-- ==== Sys2Proof/Word.lean ====
section
/-! DEFINITION. The word types of the image_process CORE (spec/00_scope.md R7, R12). -/

namespace Sys2Proof

/-- A 32-bit bit vector (R7): registers, tile buffer words, symbol words, command words. -/
abbrev Word := BitVec 32

/-- An 8-bit bit vector (R7): a byte of the output buffer, an entry of a quantization table. -/
abbrev Byte := BitVec 8

/-- The 64 words of one tile, as a command reads them in its snapshot (R11): in natural order word
`8 * row + column` (R12), or in zigzag order. A value of a computation, never a field of State. -/
abbrev Tile := Fin 64 → Word

/-- A tile buffer's number, 0 to 3 (R82). -/
abbrev BufIx := Fin 4

/-- A quantization table's number, 0 to 3 (R83). -/
abbrev TableIx := Fin 4

end Sys2Proof
end

