-- ==== Sys2Proof/Syntax.lean ====
section
/-! DEFINITION. The fourteen commands (spec/30_encoding.md R81): one constructor per row of
spec/opcode_table.json. Operands are typed by their field's range, and every value of a field names an existing
buffer or table (R82, R83), so no term of `Instr` is out of range. -/

namespace Sys2Proof

/-- A command of the CORE. `src` and `dst` name tile buffers, `qsel` a quantization table, `diff` is HUFF_DC's DIFF
bit (R81 to R84). -/
inductive Instr where
  | nop
  | fdct (src dst : BufIx)
  | idct (src dst : BufIx)
  | quant (src dst : BufIx) (qsel : TableIx)
  | dequant (src dst : BufIx) (qsel : TableIx)
  | zigzag (src dst : BufIx)
  | unzigzag (src dst : BufIx)
  | rleEnc (src : BufIx)
  | rleDec (dst : BufIx)
  | huffDc (src : BufIx) (diff : Bool)
  | huffAc
  | bitsFlush
  | outClear
  | streamReset
  deriving DecidableEq, Repr

/-- The mnemonic of spec/opcode_table.json. -/
def Instr.mnemonic : Instr → String
  | .nop => "NOP"
  | .fdct _ _ => "FDCT"
  | .idct _ _ => "IDCT"
  | .quant _ _ _ => "QUANT"
  | .dequant _ _ _ => "DEQUANT"
  | .zigzag _ _ => "ZIGZAG"
  | .unzigzag _ _ => "UNZIGZAG"
  | .rleEnc _ => "RLE_ENC"
  | .rleDec _ => "RLE_DEC"
  | .huffDc _ _ => "HUFF_DC"
  | .huffAc => "HUFF_AC"
  | .bitsFlush => "BITS_FLUSH"
  | .outClear => "OUT_CLEAR"
  | .streamReset => "STREAM_RESET"

end Sys2Proof
end

