-- ==== Sys2Proof/WellFormed.lean ====
section
/-! DEFINITION. Which command words are well formed (spec/30_encoding.md R85): the rows of spec/opcode_table.json as
masks and match values, written apart from the decoder (Decode.lean), which follows R87's fields. An `Instr` term needs
no check of its own: its operands' types are their ranges (R82, R83). -/

namespace Sys2Proof

/-- One row of spec/opcode_table.json: the bits that must match and their value (R85). -/
structure OpcodeRow where
  mnemonic : String
  mask : Word
  value : Word
  deriving DecidableEq, Repr

/-- The opcode table, in its order (R81; section 3 of 30_encoding.md). -/
def opcodeTable : List OpcodeRow :=
  [ ⟨"NOP", 0xFFFFFFFF#32, 0x00000000#32⟩,
    ⟨"FDCT", 0xFFFFF0FF#32, 0x00000001#32⟩,
    ⟨"IDCT", 0xFFFFF0FF#32, 0x00000002#32⟩,
    ⟨"QUANT", 0xFFFFC0FF#32, 0x00000003#32⟩,
    ⟨"DEQUANT", 0xFFFFC0FF#32, 0x00000004#32⟩,
    ⟨"ZIGZAG", 0xFFFFF0FF#32, 0x00000005#32⟩,
    ⟨"UNZIGZAG", 0xFFFFF0FF#32, 0x00000006#32⟩ ] ++
  [ ⟨"RLE_ENC", 0xFFFFFCFF#32, 0x00000007#32⟩,
    ⟨"RLE_DEC", 0xFFFFF3FF#32, 0x00000008#32⟩,
    ⟨"HUFF_DC", 0xFFFFBCFF#32, 0x00000009#32⟩,
    ⟨"HUFF_AC", 0xFFFFFFFF#32, 0x0000000A#32⟩,
    ⟨"BITS_FLUSH", 0xFFFFFFFF#32, 0x0000000B#32⟩,
    ⟨"OUT_CLEAR", 0xFFFFFFFF#32, 0x0000000C#32⟩,
    ⟨"STREAM_RESET", 0xFFFFFFFF#32, 0x0000000D#32⟩ ]

/-- `w & m = v` for this row (R85). -/
def OpcodeRow.fits (r : OpcodeRow) (w : Word) : Bool :=
  w &&& r.mask == r.value

/-- A word encodes a command exactly when it fits a row of the table (R85). -/
def wordWellFormed (w : Word) : Bool :=
  opcodeTable.any fun r => r.fits w

end Sys2Proof
end

