-- ==== Sys2Proof/Decode.lean ====
section
/-! DEFINITION. The command word's fields, the decoder (spec/30_encoding.md R80 to R87), total on every word and
rejecting by name, and the encoder written from the same tables. -/

namespace Sys2Proof

/-- The fields of format CMD32 (R80). -/
structure Fields where
  opc : BitVec 8
  src : BitVec 2
  dst : BitVec 2
  qsel : BitVec 2
  diff : BitVec 1
  reserved : BitVec 17
  deriving DecidableEq, Repr

/-- OPC 7:0, SRC 9:8, DST 11:10, QSEL 13:12, DIFF 14, reserved 31:15 (R80). -/
def Fields.ofWord (w : Word) : Fields where
  opc := w.extractLsb' 0 8
  src := w.extractLsb' 8 2
  dst := w.extractLsb' 10 2
  qsel := w.extractLsb' 12 2
  diff := w.extractLsb' 14 1
  reserved := w.extractLsb' 15 17

/-- The word that has these fields (R80). -/
def Fields.toWord (f : Fields) : Word :=
  f.reserved ++ f.diff ++ f.qsel ++ f.dst ++ f.src ++ f.opc

/-- Which operand fields a command uses (R81, "fields used"). -/
structure Usage where
  src : Bool := false
  dst : Bool := false
  qsel : Bool := false
  diff : Bool := false
  deriving DecidableEq, Repr

/-- R81: the command OPC selects, with its operands taken from the fields, and the fields it uses. -/
def Fields.select (f : Fields) : Option (Usage × Instr) :=
  let s : BufIx := f.src.toFin
  let d : BufIx := f.dst.toFin
  let q : TableIx := f.qsel.toFin
  match f.opc.toNat with
  | 0x00 => some (⟨false, false, false, false⟩, .nop)
  | 0x01 => some (⟨true, true, false, false⟩, .fdct s d)
  | 0x02 => some (⟨true, true, false, false⟩, .idct s d)
  | 0x03 => some (⟨true, true, true, false⟩, .quant s d q)
  | 0x04 => some (⟨true, true, true, false⟩, .dequant s d q)
  | 0x05 => some (⟨true, true, false, false⟩, .zigzag s d)
  | 0x06 => some (⟨true, true, false, false⟩, .unzigzag s d)
  | 0x07 => some (⟨true, false, false, false⟩, .rleEnc s)
  | 0x08 => some (⟨false, true, false, false⟩, .rleDec d)
  | 0x09 => some (⟨true, false, false, true⟩, .huffDc s (f.diff == 1#1))
  | 0x0A => some (⟨false, false, false, false⟩, .huffAc)
  | 0x0B => some (⟨false, false, false, false⟩, .bitsFlush)
  | 0x0C => some (⟨false, false, false, false⟩, .outClear)
  | 0x0D => some (⟨false, false, false, false⟩, .streamReset)
  | _ => none

/-- Why a word is no command (R85, R86). The engine reports every one of them as ILLEGAL (R205). -/
inductive DecodeError where
  /-- OPC in 0x0E..0xFF (R86). -/
  | reservedOpcode
  /-- A nonzero bit in 31:15 (R85). -/
  | reservedBits
  /-- SRC nonzero in a command that does not use it (R85). -/
  | unusedSrc
  /-- DST nonzero in a command that does not use it (R85). -/
  | unusedDst
  /-- QSEL nonzero in a command that does not use it (R85). -/
  | unusedQsel
  /-- DIFF nonzero in a command that does not use it (R85). -/
  | unusedDiff
  deriving DecidableEq, Repr

/-- The decoder on fields (R87). -/
def Fields.decode (f : Fields) : Except DecodeError Instr :=
  match f.select with
  | none => .error .reservedOpcode
  | some (u, i) =>
    if f.reserved ≠ 0 then .error .reservedBits
    else if !u.src && f.src ≠ 0 then .error .unusedSrc
    else if !u.dst && f.dst ≠ 0 then .error .unusedDst
    else if !u.qsel && f.qsel ≠ 0 then .error .unusedQsel
    else if !u.diff && f.diff ≠ 0 then .error .unusedDiff
    else .ok i

/-- The decoder, total on every word (R87). -/
def decode (w : Word) : Except DecodeError Instr :=
  (Fields.ofWord w).decode

/-- The fields of a command's word: OPC and the used fields by R81, everything else 0 (R85). -/
def Instr.fields : Instr → Fields
  | .nop => ⟨0x00, 0, 0, 0, 0, 0⟩
  | .fdct s d => ⟨0x01, .ofFin s, .ofFin d, 0, 0, 0⟩
  | .idct s d => ⟨0x02, .ofFin s, .ofFin d, 0, 0, 0⟩
  | .quant s d q => ⟨0x03, .ofFin s, .ofFin d, .ofFin q, 0, 0⟩
  | .dequant s d q => ⟨0x04, .ofFin s, .ofFin d, .ofFin q, 0, 0⟩
  | .zigzag s d => ⟨0x05, .ofFin s, .ofFin d, 0, 0, 0⟩
  | .unzigzag s d => ⟨0x06, .ofFin s, .ofFin d, 0, 0, 0⟩
  | .rleEnc s => ⟨0x07, .ofFin s, 0, 0, 0, 0⟩
  | .rleDec d => ⟨0x08, 0, .ofFin d, 0, 0, 0⟩
  | .huffDc s df => ⟨0x09, .ofFin s, 0, 0, .ofBool df, 0⟩
  | .huffAc => ⟨0x0A, 0, 0, 0, 0, 0⟩
  | .bitsFlush => ⟨0x0B, 0, 0, 0, 0, 0⟩
  | .outClear => ⟨0x0C, 0, 0, 0, 0, 0⟩
  | .streamReset => ⟨0x0D, 0, 0, 0, 0, 0⟩

/-- The command word of an instruction (R80, R81, R88). -/
def encode (i : Instr) : Word :=
  i.fields.toWord

/-- The instruction the decoder reads from a command whose bits are `w`, bit 0 the least significant bit. A command is one
32-bit word (R80), so more than 32 bits are no command, and bits above `nbits` are 0. -/
def decodeTableWord (nbits w : Nat) : Option Instr :=
  if nbits ≤ 32 then (decode (BitVec.ofNat 32 (w % 2 ^ nbits))).toOption else none

end Sys2Proof
end

