-- ==== Sys2Proof/Config.lean ====
section
/-! DEFINITION. What an implementation or a platform fixes and the spec leaves open (spec/00_scope.md R6,
93_implementation_defined.md Part 1). Every constant here is opaque and has no body: no proof can see its value. -/

namespace Sys2Proof

/-- QT_ROM (R30, U5): entry `i` of quantization table 0, 1 or 2, less one; so that the divisor, one more than
this, is in 1..255 whatever the opaque value is. Log 8. -/
opaque Config.qtRom : Fin 3 → Fin 64 → Fin 255

/-- What the forward transform's realization answers at each position (R104, U4), before the model holds it to
R104's accuracy bound (`Machine.fdctImpl`). Log 7. -/
opaque Config.fdctRaw : Tile → Fin 64 → Int

/-- What the inverse transform's realization answers at each position (R104, U4), before the model holds it to
R104's accuracy bound (`Machine.idctImpl`). Log 7. -/
opaque Config.idctRaw : Tile → Fin 64 → Int

/-- Free value number `n`: an unconstrained word (R68, R71, R231; U1 to U3). Log 4. -/
opaque Config.draw : Nat → Word

/-- CORE_BASE divided by 0x8000 (R61, U6). Log 9. -/
opaque Config.coreBaseIndex : Nat

/-- CORE_BASE, the host address of the register window: a multiple of 0x8000 (R61). -/
def Config.coreBase : Nat := Config.coreBaseIndex * 0x8000

end Sys2Proof
end

