-- ==== Sys2Proof/Machine/State.lean ====
section
/-! DEFINITION. The architectural state (spec/10_state.md R20 to R47), the outside world's coming moves
(spec/60_exceptions.md R200), and the state after reset (spec/70_reset_and_hazards.md R230). -/

namespace Sys2Proof.Machine

/-- Nothing in the spec stops the machine: a command error is a next state (R202, R211), so no fault exists and no
step raises one. -/
inductive Fault where
  deriving DecidableEq, Repr

/-- Why a step has no meaning in the model. -/
inductive Refusal where
  /-- Raised by an arm of `exec` for an instruction without a meaning. No arm raises it: every command has its
  meaning. Safe. -/
  | notModelled (mnemonic : String)
  /-- Raised by the host port for an access inside the window that is not 4 bytes wide or not at a multiple of 4: "the
  CORE gives it no meaning, and a model refuses it" (R64, U7). Safe. -/
  | unsupportedAccess (offset bytes : Nat)
  deriving DecidableEq, Repr

/-- The error codes of R203. The reserved codes 6 to 15 are never written (U10), so no constructor holds one. -/
inductive ErrCode where
  | none | illegal | config | capacity | table | range
  deriving DecidableEq, Repr

/-- One move of the outside world (R200, R60, R230). Log 1, log 11. -/
inductive HostMove where
  /-- The host reads `bytes` bytes at host address `addr`. -/
  | read (addr bytes : Nat)
  /-- The host writes `data` to the `bytes` bytes at host address `addr`. -/
  | write (addr bytes : Nat) (data : Word)
  /-- The host makes no access at this point: the engine takes its step, if it has one. -/
  | engineTurn
  /-- The reset input is asserted. -/
  | assertReset
  /-- The reset input is released. -/
  | releaseReset
  deriving DecidableEq, Repr

/-- The state of the CORE (R20), and the model's own fields `resetLine`, `inputs`, `readData` and `draws`. -/
structure State where
  /-- TB0..TB3 (R21): `none` is a word not written since reset, each read of which is a fresh draw (R231). Log 3. -/
  tb : Vector (Vector (Option Word) 64) 4
  /-- SB (R24): `none` as in `tb`. -/
  sb : Vector (Option Word) 64
  /-- SYMCNT 6:0 (R25). -/
  symcnt : BitVec 7
  /-- OB (R26): the bytes written since reset, by index, indices strictly rising. Log 5. -/
  ob : List Host.Cell
  /-- OB_LEN 12:0 (R27). -/
  obLen : BitVec 13
  /-- BIT_ACC (R28). -/
  bitAcc : BitVec 7
  /-- BIT_CNT (R28). -/
  bitCnt : BitVec 3
  /-- PREV_DC (R29). -/
  prevDc : Word
  /-- CTRL.IE_DONE (R33). -/
  ieDone : Bool
  /-- CTRL.IE_ERR (R33). -/
  ieErr : Bool
  /-- STATUS.DONE (R35). -/
  done : Bool
  /-- STATUS.ERR (R36). -/
  err : Bool
  /-- STATUS.OVF (R37). -/
  ovf : Bool
  /-- STATUS.HAZ (R38). -/
  haz : Bool
  /-- LASTCMD (R40). -/
  lastcmd : Word
  /-- PENDING (R41), present exactly when STATUS.BUSY is 1 (R34). Log 12. -/
  pending : Option Word
  /-- ERR_CODE (R42). -/
  errCode : ErrCode
  /-- ERR_INFO (R43). -/
  errInfo : Word
  /-- ERR_AUX (R44). -/
  errAux : Word
  /-- CFG.TILE_N (R45). -/
  tileN : BitVec 4
  /-- The model's own: the reset input is asserted (R230). Log 11. -/
  resetLine : Bool
  /-- The model's own: the outside world's coming moves, the next one first. Log 1. -/
  inputs : List HostMove
  /-- The model's own: the word the host's last read returned, if it returned one. Log 22. -/
  readData : Option Word
  /-- The model's own: the number of the next free value. Log 4. -/
  draws : Nat
  deriving DecidableEq, Repr

/-- The machine right after reset (R230 and section 5 of 10_state.md), with no host move to come. -/
def State.reset : State where
  tb := Vector.replicate 4 (Vector.replicate 64 none)
  sb := Vector.replicate 64 none
  symcnt := 0
  ob := []
  obLen := 0
  bitAcc := 0
  bitCnt := 0
  prevDc := 0
  ieDone := false
  ieErr := false
  done := false
  err := false
  ovf := false
  haz := false
  lastcmd := 0
  pending := none
  errCode := .none
  errInfo := 0
  errAux := 0
  tileN := 8
  resetLine := false
  inputs := []
  readData := none
  draws := 0

/-- STATUS.BUSY (R34): 1 exactly while a command is pending (R41). -/
def State.busy (s : State) : Bool := s.pending.isSome

end Sys2Proof.Machine
end

