-- ==== Sys2Proof/Machine/Memory.lean ====
section
/-! DEFINITION. The byte memory of the output buffer (spec/10_state.md R26): a list of (index, byte) with strictly
rising indices. An unlisted index has not been written since reset and holds no value of its own (R231); log 5. -/

namespace Sys2Proof.Machine

/-- The canonical form: indices strictly rising. An unlisted index reads as no byte at all, so no listed entry can
equal what an unlisted one reads as. -/
abbrev Memory.wf (m : List Host.Cell) : Prop := m.Pairwise fun a b => a.1 < b.1

/-- The byte written at index `k`, if one was. -/
def Memory.read : List Host.Cell → Nat → Option Byte
  | [], _ => none
  | (a, b) :: m, k => if k = a then some b else Memory.read m k

/-- `OB[k] <- v` (R10). -/
def Memory.write : List Host.Cell → Nat → Byte → List Host.Cell
  | [], k, v => [(k, v)]
  | (a, b) :: m, k, v =>
    if k < a then (k, v) :: (a, b) :: m
    else if k = a then (k, v) :: m
    else (a, b) :: Memory.write m k v

/-- The bytes `bs` written one after another from index `k` on, in stream order (R168). -/
def Memory.writeBytes : List Host.Cell → Nat → List Byte → List Host.Cell
  | m, _, [] => m
  | m, k, b :: bs => Memory.writeBytes (Memory.write m k b) (k + 1) bs

end Sys2Proof.Machine
end

