-- ==== Sys2Proof/Machine/Ops.lean ====
section
/-! DEFINITION. The named operations over buffers and registers, the two ways a command ends
(spec/60_exceptions.md R202, R211), and reset (spec/70_reset_and_hazards.md R230). -/

namespace Sys2Proof.Machine

/-! ## Reading operands -/

/-- How many free values one command may read: one for each of the 64 words of its source. Log 4. -/
def drawsPerCommand : Nat := 64

/-- A word a command reads at place `i` of its source: the word written there, or the draw of this place if none has
been written since reset (R231). -/
def readOrDraw (s : State) (i : Fin 64) (cell : Option Word) : Word :=
  cell.getD (Config.draw (s.draws + i.val))

/-- `src = TB[b]`: the snapshot of tile buffer `b` (R11). -/
def State.tile (s : State) (b : BufIx) : Tile := fun i => readOrDraw s i s.tb[b][i]

/-- The snapshot of the symbol buffer (R11). -/
def State.symbol (s : State) (j : Fin 64) : Word := readOrDraw s j s.sb[j]

/-- `SB[0..n-1]`, in order (R24); `n` is at most 64. -/
def State.symbols (s : State) (n : Nat) : List Word := ((List.finRange 64).map s.symbol).take n

/-! ## Writing results -/

/-- All 64 words of tile buffer `b` written (R10). -/
def State.writeTile (s : State) (b : BufIx) (t : Tile) : State :=
  { s with tb := s.tb.set b (Vector.ofFn fun i => some (t i)) }

/-- Words 1..63 of tile buffer `b` written; word 0, the DC position, keeps what it held (R149). -/
def State.writeTileAc (s : State) (b : BufIx) (t : Tile) : State :=
  { s with tb := s.tb.set b (Vector.ofFn fun i => if i = 0 then s.tb[b][i] else some (t i)) }

/-- One word of a tile buffer written (R66). -/
def State.writeTileWord (s : State) (b : BufIx) (i : Fin 64) (w : Word) : State :=
  { s with tb := s.tb.set b (s.tb[b].set i (some w)) }

/-- One entry of the symbol buffer written (R67). -/
def State.writeSymbol (s : State) (j : Fin 64) (w : Word) : State :=
  { s with sb := s.sb.set j (some w) }

/-- `SB[j] <- syms[j]` for `j` from `first` on, one entry after another; the other entries keep their contents (R144). -/
def storeSymbols : Vector (Option Word) 64 → Nat → List Word → Vector (Option Word) 64
  | sb, _, [] => sb
  | sb, first, w :: ws => storeSymbols (sb.setIfInBounds first (some w)) (first + 1) ws

/-- The symbols written to the symbol buffer from SB[0] on (R144). -/
def State.writeSymbols (s : State) (syms : List Word) : State :=
  { s with sb := storeSymbols s.sb 0 syms }

/-! ## How a command ends -/

/-- The two ways a command's pseudocode ends (R202): `commit`, with the state its writes give, or
`raise Error(code, aux)`. -/
inductive Ending where
  | commit (s : State)
  | raise (code : ErrCode) (aux : Nat)
  deriving DecidableEq, Repr

/-- Error entry (R202, R211), the CORE's whole "trap entry": from the state `s` in which the command `w` started, every
write of the command discarded. -/
def raiseError (w : Word) (code : ErrCode) (aux : Nat) (s : State) : State :=
  { s with err := true, errCode := code, errInfo := w, errAux := BitVec.ofNat 32 aux, pending := none }

/-- The return from an error (R211): the host's write of 1 to STATUS.ERR; the three error registers keep their values. -/
def returnFromError (s : State) : State := { s with err := false }

/-- The success outcome (R202), on the state the command's writes gave. -/
def commitCommand (s : State) : State := { s with pending := none, done := true }

/-- The outcome of the command `w` that started in `s` (R202). -/
def outcome (w : Word) (s : State) : Ending → State
  | .commit t => commitCommand t
  | .raise code aux => raiseError w code aux s

/-- The free values of one command are used up. Log 4. -/
def State.useDraws (s : State) : State := { s with draws := s.draws + drawsPerCommand }

/-- The engine's step for the command `i` started in `s`, whose pseudocode ends as `e` (R200, R202). -/
def endCommand (i : Instr) (s : State) (e : Ending) : Host.Outcome State Fault Refusal :=
  .next (outcome (encode i) s e).useDraws

/-- `check CFG.TILE_N == 8 else raise Error(CONFIG, 0)` (R206), then `body`. -/
def withTileN (s : State) (body : Ending) : Ending :=
  if s.tileN = 8#4 then body else .raise .config 0

/-! ## Reset -/

/-- Every piece of state at its reset value (R230). The outside world is not the CORE's: the moves still to come, the
answer the host last got, the level of the reset input and the count of free values stay. Log 11. -/
def State.toReset (s : State) : State :=
  { State.reset with resetLine := s.resetLine, inputs := s.inputs, readData := s.readData, draws := s.draws }

end Sys2Proof.Machine
end

