-- ==== Sys2Proof/Machine/Operands.lean ====
section
/-! DEFINITION. How words are read and made: FX and INT (spec/10_state.md R22, R23), symbol words (R24, R141, R147),
rounding and saturation (spec/00_scope.md R8, R9), bits of a value (spec/44_huffman.md R166, R167). -/

namespace Sys2Proof.Machine

/-- `sint32(w)` (R8): the integer an INT word stands for (R23), and 256 times the number an FX word stands for (R22). -/
def sint32 (w : Word) : Int := w.toInt

/-- `word(z)` (R8). -/
def wordOf (z : Int) : Word := BitVec.ofInt 32 z

/-- `sat32(z)` (R8). -/
def sat32 (z : Int) : Int := min (max z (-2147483648)) 2147483647

/-- `satq(z)` (R8). -/
def satq (z : Int) : Int := min (max z (-32767)) 32767

/-- Magnitude category (R140): the number of bits of the absolute value. -/
def cat (z : Int) : Nat := if z = 0 then 0 else Nat.log2 z.natAbs + 1

/-- `SYM(r, s, a)` (R24, R141). -/
def sym (run size : Nat) (amp : Int) : Word :=
  0#8 ++ BitVec.ofNat 4 run ++ BitVec.ofNat 4 size ++ BitVec.ofInt 16 amp

/-- RUN, bits 23:20 of a symbol word (R24). -/
def symRun (w : Word) : Nat := (w.extractLsb' 20 4).toNat

/-- SIZE, bits 19:16 of a symbol word (R24). -/
def symSize (w : Word) : Nat := (w.extractLsb' 16 4).toNat

/-- The composite key `zero_run<<4 | size`, bits 23:16 of a symbol word (R24). -/
def symKey (w : Word) : Nat := (w.extractLsb' 16 8).toNat

/-- `sint16(AMP)`, bits 15:0 of a symbol word read as two's complement (R147). -/
def symAmp (w : Word) : Int := (w.extractLsb' 0 16).toInt

/-- `low_n(z)` (R8), as a number. -/
def lowBits (n : Nat) (z : Int) : Nat := (z % (2 ^ n : Nat)).toNat

/-- `ampbits(a, s)` (R166). -/
def ampBits (a : Int) (s : Nat) : Nat :=
  if 0 ≤ a then lowBits s a else lowBits s (a + (2 ^ s : Nat) - 1)

/-- The `n` low bits of `v`, most significant first (R167). -/
def bitsMsb (v : Nat) : Nat → List Bool
  | 0 => []
  | n + 1 => v.testBit n :: bitsMsb v n

end Sys2Proof.Machine
end

