-- ==== Sys2Proof/Machine/Flags.lean ====
section
/-! DEFINITION. STATUS, CTRL and the interrupt output (spec/10_state.md R33 to R39, spec/60_exceptions.md R210, R213), and
the overflow rule (spec/40_transform.md R105, spec/41_quantizer.md R121, R123). -/

namespace Sys2Proof.Machine

/-- The value of the bits b4..b0, higher bits 0. -/
def flagWord (b4 b3 b2 b1 b0 : Bool) : Word :=
  0#27 ++ BitVec.ofBool b4 ++ BitVec.ofBool b3 ++ BitVec.ofBool b2 ++ BitVec.ofBool b1 ++ BitVec.ofBool b0

/-- STATUS as the host reads it (R34 to R39): HAZ, OVF, ERR, DONE, BUSY in bits 4 to 0. -/
def State.statusWord (s : State) : Word := flagWord s.haz s.ovf s.err s.done s.busy

/-- CTRL as the host reads it (R33): IE_ERR, IE_DONE in bits 1 and 0. -/
def State.ctrlWord (s : State) : Word := flagWord false false false s.ieErr s.ieDone

/-- A host write of STATUS (R35 to R39): each of DONE, ERR, OVF, HAZ cleared where the word has a 1, in one step. Clearing
ERR is the return from an error (R211). -/
def State.writeStatus (s : State) (w : Word) : State :=
  let s := { s with
    done := s.done && !w.getLsbD 1
    ovf := s.ovf && !w.getLsbD 3
    haz := s.haz && !w.getLsbD 4 }
  if w.getLsbD 2 then returnFromError s else s

/-- A host write of CTRL (R33). -/
def State.writeCtrl (s : State) (w : Word) : State :=
  { s with ieDone := w.getLsbD 0, ieErr := w.getLsbD 1 }

/-- IRQ (R213). -/
def State.irq (s : State) : Bool := (s.done && s.ieDone) || (s.err && s.ieErr)

/-- Whether one or more of the 64 positions saturates (R105). -/
def anyLane (sat : Fin 64 → Bool) : Bool := (List.finRange 64).any sat

/-- STATUS.OVF set when a position saturated, kept otherwise (R37, R105). -/
def State.setOvf (s : State) (saturated : Bool) : State := { s with ovf := s.ovf || saturated }

/-- A host access the CORE drops (R38). -/
def State.hazard (s : State) : State := { s with haz := true }

end Sys2Proof.Machine
end

