-- ==== Sys2Proof/Machine/Control.lean ====
section
/-! DEFINITION. The control commands: NOP, OUT_CLEAR and STREAM_RESET (spec/45_control.md R185 to R187). -/

namespace Sys2Proof.Machine

/-- NOP (R185): commit only. -/
def execNop (s : State) : Host.Outcome State Fault Refusal :=
  endCommand .nop s (.commit s)

/-- OUT_CLEAR (R186). -/
def execOutClear (s : State) : Host.Outcome State Fault Refusal :=
  endCommand .outClear s (.commit { s with obLen := 0 })

/-- STREAM_RESET (R187). -/
def execStreamReset (s : State) : Host.Outcome State Fault Refusal :=
  endCommand .streamReset s (.commit { s with obLen := 0, bitAcc := 0, bitCnt := 0, prevDc := 0 })

end Sys2Proof.Machine
end

