-- ==== Sys2Proof/Machine/Huffman.lean ====
section
/-! DEFINITION. The bit packer and the entropy coder: HUFF_DC, HUFF_AC and BITS_FLUSH (spec/44_huffman.md R165 to
R172). -/

namespace Sys2Proof.Machine

/-- The working copies of a packing command (R167, R168): the bits not yet packed (`acc`, `cnt`), and the bytes appended so
far in stream order, so that `ob_len` is OB_LEN plus their number. -/
structure Packer where
  acc : Nat
  cnt : Nat
  out : List Byte
  deriving DecidableEq, Repr

/-- `acc = BIT_ACC`, `cnt = BIT_CNT`, nothing appended (R167). -/
def Packer.start (s : State) : Packer := ⟨s.bitAcc.toNat, s.bitCnt.toNat, []⟩

/-- What `put_byte` appends (R168): the byte, and a stuffed 0x00 after 0xFF. -/
def stuffed (b : Byte) : List Byte := if b = 0xFF#8 then [b, 0x00#8] else [b]

/-- One turn of `emit`'s loop (R167). -/
def Packer.pushBit (p : Packer) (b : Bool) : Packer :=
  let acc := 2 * p.acc + b.toNat
  if p.cnt + 1 = 8 then ⟨0, 0, p.out ++ stuffed (BitVec.ofNat 8 acc)⟩ else ⟨acc, p.cnt + 1, p.out⟩

/-- The bits appended one after another, oldest first (R167). -/
def Packer.pushBits (p : Packer) (bits : List Bool) : Packer := bits.foldl Packer.pushBit p

/-- The bits of one coded value: the code, then the amplitude bits if `size > 0` (R166, R170, R171). -/
def codedBits (c : HuffCode) (amp : Int) (size : Nat) : List Bool :=
  bitsMsb c.code c.len ++ (if 0 < size then bitsMsb (ampBits amp size) size else [])

/-- The end of a packing command (R169): CAPACITY with the length OB would have reached if that is above 4096; otherwise
OB, OB_LEN, BIT_ACC and BIT_CNT written from the working copies, on top of the command's other writes in `t`. -/
def finishPacking (s : State) (p : Packer) (t : State) : Ending :=
  let obLen := s.obLen.toNat + p.out.length
  if 4096 < obLen then .raise .capacity obLen
  else .commit { t with
    ob := Memory.writeBytes s.ob s.obLen.toNat p.out
    obLen := BitVec.ofNat 13 obLen
    bitAcc := BitVec.ofNat 7 p.acc
    bitCnt := BitVec.ofNat 3 p.cnt }

/-- The DC value HUFF_DC codes (R170): the value, or its exact difference from PREV_DC. -/
def codedDc (s : State) (src : BufIx) (diff : Bool) : Int :=
  let v := sint32 (s.tile src 0)
  if diff then v - sint32 s.prevDc else v

/-- HUFF_DC (R170). -/
def execHuffDc (src : BufIx) (diff : Bool) (s : State) : Host.Outcome State Fault Refusal :=
  let d := codedDc s src diff
  endCommand (.huffDc src diff) s (withTileN s
    (if 11 < cat d then .raise .table (cat d)
      else finishPacking s ((Packer.start s).pushBits (codedBits (dcEhuf (cat d)) d (cat d)))
        { s with prevDc := s.tile src 0 }))

/-- The bits of one symbol word (R171). -/
def symbolBits (w : Word) : List Bool := codedBits (acEhuf (symKey w)) (symAmp w) (symSize w)

/-- The lowest index of a symbol whose key is absent from the AC table (R165, R171). -/
def firstAbsentKey (syms : List Word) : Option Nat := syms.findIdx? fun w => (acEhuf (symKey w)).len == 0

/-- HUFF_AC (R171). -/
def execHuffAc (s : State) : Host.Outcome State Fault Refusal :=
  let n := s.symcnt.toNat
  let syms := s.symbols n
  endCommand .huffAc s (withTileN s
    (if 64 < n then .raise .capacity n
      else match firstAbsentKey syms with
        | some j => .raise .table j
        | none => finishPacking s ((Packer.start s).pushBits (syms.flatMap symbolBits)) s))

/-- The padded last byte (R172): the pending bits, oldest first, then 1 bits. -/
def paddedByte (acc cnt : Nat) : Byte := BitVec.ofNat 8 ((acc <<< (8 - cnt)) ||| (2 ^ (8 - cnt) - 1))

/-- The working copies after the last partial byte, if there is one, has been padded and output (R172). -/
def Packer.flush (p : Packer) : Packer :=
  if 0 < p.cnt then ⟨0, 0, p.out ++ stuffed (paddedByte p.acc p.cnt)⟩ else ⟨0, 0, p.out⟩

/-- BITS_FLUSH (R172). -/
def execBitsFlush (s : State) : Host.Outcome State Fault Refusal :=
  endCommand .bitsFlush s (finishPacking s (Packer.start s).flush s)

end Sys2Proof.Machine
end

