-- ==== Sys2Proof/Machine/Quantizer.lean ====
section
/-! DEFINITION. The quantizer unit: QUANT and DEQUANT (spec/41_quantizer.md R120 to R124). -/

namespace Sys2Proof.Machine

/-- `QT[t][i]` (R30): tables 0, 1 and 2 are the open parameter QT_ROM, table 3 is the identity table. -/
def quantTable (t : TableIx) (i : Fin 64) : Nat :=
  if h : t.val < 3 then (Config.qtRom ⟨t.val, h⟩ i).val + 1 else 1

/-- `qe` of `quant_lane` (R121): `sint32(w) / (256·T)` rounded half away from zero, exactly. -/
def quantExact (w : Word) (T : Nat) : Int :=
  (sint32 w).sign * (((sint32 w).natAbs + 128 * T) / (256 * T) : Nat)

/-- `quant_lane` (R121): the clamped quotient, and whether it was clamped. -/
def quantLane (w : Word) (T : Nat) : Word × Bool :=
  let qe := quantExact w T
  (wordOf (satq qe), satq qe != qe)

/-- `dequant_lane` (R123): the saturated product, and whether it saturated. DESIGN CHOICE (log 25): for a product of exactly
-2^31 R123's pseudocode says that it did not saturate and R124's corner case that it did; the model follows the pseudocode. -/
def dequantLane (w : Word) (T : Nat) : Word × Bool :=
  let ye := 256 * (sint32 w * T)
  (wordOf (sat32 ye), sat32 ye != ye)

/-- Every lane of a tile through one lane function, each with its divisor at the same natural index (R120). -/
def storeLanes (s : State) (dst : BufIx) (lane : Fin 64 → Word × Bool) : State :=
  (s.writeTile dst fun i => (lane i).1).setOvf (anyLane fun i => (lane i).2)

/-- QUANT (R122). -/
def execQuant (src dst : BufIx) (qsel : TableIx) (s : State) : Host.Outcome State Fault Refusal :=
  endCommand (.quant src dst qsel) s
    (withTileN s (.commit (storeLanes s dst fun i => quantLane (s.tile src i) (quantTable qsel i))))

/-- DEQUANT (R124). -/
def execDequant (src dst : BufIx) (qsel : TableIx) (s : State) : Host.Outcome State Fault Refusal :=
  endCommand (.dequant src dst qsel) s
    (withTileN s (.commit (storeLanes s dst fun i => dequantLane (s.tile src i) (quantTable qsel i))))

end Sys2Proof.Machine
end

