-- ==== Sys2Proof/Machine/RunLength.lean ====
section
/-! DEFINITION. The run-length coder: RLE_ENC and RLE_DEC (spec/43_rle.md R140 to R149). -/

namespace Sys2Proof.Machine

/-- EOB, `SYM(0,0,0)` (R141). -/
def eob : Word := sym 0 0 0

/-- ZRL, `SYM(15,0,0)` (R141). -/
def zrl : Word := sym 15 0 0

/-- The loop of R143 over the values still to code, with the counter `run`. -/
def encodeRuns : List Int → Nat → List Word
  | [], _ => []
  | v :: vs, run =>
    if v = 0 then
      if run + 1 = 16 then zrl :: encodeRuns vs (run + 1 - 16) else encodeRuns vs (run + 1)
    else sym run (cat v) v :: encodeRuns vs 0

/-- `last` (R142): the highest index in 0..63 with a nonzero value, or 0 if there is none. -/
def lastNonzero (seq : Fin 64 → Int) : Nat :=
  (List.finRange 64).foldl (fun last k => if seq k = 0 then last else k.val) 0

/-- `rle_encode` (R143): the values at indices 1..last, then EOB when `last` is below 63. -/
def rleEncode (seq : Fin 64 → Int) : List Word :=
  let last := lastNonzero seq
  encodeRuns ((((List.finRange 64).map seq).take (last + 1)).drop 1) 0 ++ (if last < 63 then [eob] else [])

/-- Whether an AC word cannot be coded (R144): outside -32767..32767. -/
def acOutOfRange (v : Int) : Bool := v < -32767 || 32767 < v

/-- The lowest index in 1..63 whose word is outside the range, if there is one (R144, R209). -/
def firstOutOfRange (seq : Fin 64 → Int) : Option (Fin 64) :=
  (List.finRange 64).find? fun i => i != 0 && acOutOfRange (seq i)

/-- RLE_ENC (R144). -/
def execRleEnc (src : BufIx) (s : State) : Host.Outcome State Fault Refusal :=
  let seq : Fin 64 → Int := fun k => sint32 (s.tile src k)
  endCommand (.rleEnc src) s (withTileN s
    (match firstOutOfRange seq with
      | some i => .raise .range i.val
      | none =>
        let syms := rleEncode seq
        .commit { s.writeSymbols syms with symcnt := BitVec.ofNat 7 syms.length }))

/-- `out[pos] <- a`, for a position in 1..63 (R148). -/
def placeAt (out : Tile) (pos : Nat) (a : Int) : Tile :=
  fun i => if i.val = pos then wordOf a else out i

/-- The loop of R148 over the symbols still to decode: stop past index 63 or at EOB, skip 16 for ZRL, else skip RUN
zeros and place the amplitude if that is still in the sequence. -/
def decodeRuns : List Word → Nat → Tile → Tile
  | [], _, out => out
  | w :: ws, pos, out =>
    if 63 < pos then out
    else if symRun w = 0 ∧ symSize w = 0 then out
    else if symRun w = 15 ∧ symSize w = 0 then decodeRuns ws (pos + 16) out
    else if pos + symRun w ≤ 63 then
      decodeRuns ws (pos + symRun w + 1) (placeAt out (pos + symRun w) (symAmp w))
    else decodeRuns ws (pos + symRun w) out

/-- `rle_decode` (R148): positions not reached are 0. -/
def rleDecode (syms : List Word) : Tile := decodeRuns syms 1 fun _ => 0

/-- RLE_DEC (R149). -/
def execRleDec (dst : BufIx) (s : State) : Host.Outcome State Fault Refusal :=
  let n := s.symcnt.toNat
  endCommand (.rleDec dst) s (withTileN s
    (if 64 < n then .raise .capacity n else .commit (s.writeTileAc dst (rleDecode (s.symbols n)))))

end Sys2Proof.Machine
end

