-- ==== Sys2Proof/Machine/Surd.lean ====
section
/-! DEFINITION. Exact arithmetic on the numbers the ideal transforms produce (spec/40_transform.md R101 to R104).

Every factor `C(k)·cos(mπ/16)` of R102 and R103 is, doubled, a whole combination of products of √2, √(2+√2) and
√(2+√(2+√2)). A `Surd` holds the eight whole coefficients of such a combination, so that the model can compare an integer
with the ideal real value exactly, with no rounding and no real number in it. -/

namespace Sys2Proof.Machine

/-- Arithmetic and an exact test for `0 ≤` on one kind of number. -/
structure ExactOps (α : Type) where
  ofInt : Int → α
  add : α → α → α
  neg : α → α
  mul : α → α → α
  nonneg : α → Bool

/-- The whole numbers. -/
def intOps : ExactOps Int where
  ofInt z := z
  add := (· + ·)
  neg := (- ·)
  mul := (· * ·)
  nonneg z := decide (0 ≤ z)

/-- The numbers `a + b√d`, as pairs `(a, b)`. The sign of `a + b√d` where `a` and `b` differ in sign is that of
`a² - d·b²`, or its opposite. -/
def ExactOps.adjoinRoot {α : Type} (o : ExactOps α) (d : α) : ExactOps (α × α) where
  ofInt z := (o.ofInt z, o.ofInt 0)
  add p q := (o.add p.1 q.1, o.add p.2 q.2)
  neg p := (o.neg p.1, o.neg p.2)
  mul p q := (o.add (o.mul p.1 q.1) (o.mul d (o.mul p.2 q.2)), o.add (o.mul p.1 q.2) (o.mul p.2 q.1))
  nonneg p :=
    let square := o.add (o.mul p.1 p.1) (o.neg (o.mul d (o.mul p.2 p.2)))
    match o.nonneg p.1, o.nonneg p.2 with
    | true, true => true
    | true, false => o.nonneg square
    | false, true => o.nonneg (o.neg square)
    | false, false => false

/-- `a + b√2`. -/
abbrev Surd1 := Int × Int

/-- `a + b√(2+√2)`. -/
abbrev Surd2 := Surd1 × Surd1

/-- `a + b√(2+√(2+√2))`. -/
abbrev Surd := Surd2 × Surd2

/-- Arithmetic on `a + b√2`. -/
def surd1 : ExactOps Surd1 := intOps.adjoinRoot 2

/-- Arithmetic on `a + b√(2+√2)`. -/
def surd2 : ExactOps Surd2 := surd1.adjoinRoot (2, 1)

/-- Arithmetic on `a + b√(2+√(2+√2))`. -/
def surd : ExactOps Surd := surd2.adjoinRoot ((2, 0), (1, 0))

/-- The sum of eight numbers. -/
def Surd.sum8 (f : Fin 8 → Surd) : Surd :=
  (List.finRange 8).foldr (fun k acc => surd.add (f k) acc) (surd.ofInt 0)

/-- `z - n`. -/
def Surd.subInt (z : Surd) (n : Int) : Surd := surd.add z (surd.ofInt (-n))

/-- `z` times a whole number. -/
def Surd.scale (n : Int) (z : Surd) : Surd :=
  (((n * z.1.1.1, n * z.1.1.2), (n * z.1.2.1, n * z.1.2.2)), ((n * z.2.1.1, n * z.2.1.2), (n * z.2.2.1, n * z.2.2.2)))

/-- `2·cos(jπ/16)` for `j` in 0..8. -/
def twoCosQuarter : Nat → Surd
  | 0 => (((2, 0), (0, 0)), ((0, 0), (0, 0)))
  | 1 => (((0, 0), (0, 0)), ((1, 0), (0, 0)))
  | 2 => (((0, 0), (1, 0)), ((0, 0), (0, 0)))
  | 3 => (((0, 0), (0, 0)), ((-1, 0), (1, 0)))
  | 4 => (((0, 1), (0, 0)), ((0, 0), (0, 0)))
  | 5 => (((0, 0), (0, 0)), ((1, 1), (-1, 0)))
  | 6 => (((0, 0), (-1, 1)), ((0, 0), (0, 0)))
  | 7 => (((0, 0), (0, 0)), ((-1, -1), (0, 1)))
  | _ => (((0, 0), (0, 0)), ((0, 0), (0, 0)))

/-- `2·cos(mπ/16)` for every `m`: the period is 32, and the cosine is even about 0 and odd about 8. -/
def twoCos (m : Nat) : Surd :=
  let j := m % 32
  if j ≤ 8 then twoCosQuarter j
  else if j ≤ 16 then surd.neg (twoCosQuarter (16 - j))
  else if j ≤ 24 then surd.neg (twoCosQuarter (j - 16))
  else twoCosQuarter (32 - j)

/-- `2·C(k)·cos(π(2n+1)k/16)` (R101 to R103); `C(0) = 1/√2` is `cos(4π/16)`. -/
def cosFactor (k n : Fin 8) : Surd :=
  if k = 0 then twoCos 4 else twoCos ((2 * n.val + 1) * k.val)

/-- The largest whole number `y` with `den·y ≤ z`, for `0 ≤ z < den·(lo + 2^fuel)` and `den·lo ≤ z`, bit by bit. -/
def Surd.floorFrom (z : Surd) (den : Int) : Nat → Int → Int
  | 0, lo => lo
  | fuel + 1, lo =>
    let mid := lo + 2 ^ fuel
    if surd.nonneg (z.subInt (den * mid)) then Surd.floorFrom z den fuel mid else Surd.floorFrom z den fuel lo

end Sys2Proof.Machine
end

