-- ==== Sys2Proof/Machine/Transform.lean ====
section
/-! DEFINITION. The transform engine: FDCT and IDCT (spec/40_transform.md R100 to R107). -/

namespace Sys2Proof.Machine

/-- The index `8·row + column` of a natural-order tile (R12, R100). -/
def at8 (row col : Fin 8) : Fin 64 := ⟨8 * row.val + col.val, by omega⟩

/-- The row of a natural index (R12). -/
def rowOf (i : Fin 64) : Fin 8 := ⟨i.val / 8, by omega⟩

/-- The column of a natural index (R12). -/
def colOf (i : Fin 64) : Fin 8 := ⟨i.val % 8, by omega⟩

/-- 16 times the ideal forward value in units of 2^-8, `16·256·Rf(u,v)` (R102, R104), exactly. -/
def forward16 (src : Tile) (u v : Fin 8) : Surd :=
  Surd.sum8 fun x =>
    surd.mul (cosFactor u x) (Surd.sum8 fun y => Surd.scale (sint32 (src (at8 x y))) (cosFactor v y))

/-- 16 times the ideal inverse value in units of 2^-8, `16·256·Ri(x,y)` (R103, R104), exactly. -/
def inverse16 (src : Tile) (x y : Fin 8) : Surd :=
  Surd.sum8 fun u =>
    surd.mul (cosFactor u x) (Surd.sum8 fun v => Surd.scale (sint32 (src (at8 u v))) (cosFactor v y))

/-- DCT_ERR (R6, R104). -/
def dctErr : Int := 1

/-- Whether the integer `y` is within DCT_ERR of `z / 16` (R104). -/
def withinDctErr (z : Surd) (y : Int) : Bool :=
  surd.nonneg (z.subInt (16 * (y - dctErr))) && surd.nonneg ((surd.neg z).subInt (-16 * (y + dctErr)))

/-- `rha(z / 16)` (R9): what the reference realization of R104 returns. -/
def nearestSixteenth (z : Surd) : Int :=
  if surd.nonneg z then Surd.floorFrom ((Surd.scale 2 z).subInt (-16)) 32 40 0
  else -Surd.floorFrom ((Surd.scale (-2) z).subInt (-16)) 32 40 0

/-- `y` where it is within DCT_ERR of `z / 16`, the reference value otherwise: so every answer R104 allows, and no other,
is the answer for some `y`. Log 7. -/
def holdToBound (z : Surd) (y : Int) : Int :=
  if withinDctErr z y then y else nearestSixteenth z

/-- The reference realization of the forward transform (R104). -/
def fdctReference (src : Tile) (i : Fin 64) : Int := nearestSixteenth (forward16 src (rowOf i) (colOf i))

/-- The reference realization of the inverse transform (R104). -/
def idctReference (src : Tile) (i : Fin 64) : Int := nearestSixteenth (inverse16 src (rowOf i) (colOf i))

/-- `fdct_impl` (R104): a function of the 64 source words, within DCT_ERR of 256 times the ideal value, otherwise open. -/
def fdctImpl (src : Tile) (i : Fin 64) : Int :=
  holdToBound (forward16 src (rowOf i) (colOf i)) (Config.fdctRaw src i)

/-- `idct_impl` (R104), as `fdctImpl`. -/
def idctImpl (src : Tile) (i : Fin 64) : Int :=
  holdToBound (inverse16 src (rowOf i) (colOf i)) (Config.idctRaw src i)

/-- A tile of integers stored saturated, OVF set if one of them saturates (R105). -/
def storeSaturated (s : State) (dst : BufIx) (y : Fin 64 → Int) : State :=
  (s.writeTile dst fun i => wordOf (sat32 (y i))).setOvf (anyLane fun i => sat32 (y i) != y i)

/-- FDCT (R106). -/
def execFdct (src dst : BufIx) (s : State) : Host.Outcome State Fault Refusal :=
  endCommand (.fdct src dst) s (withTileN s (.commit (storeSaturated s dst (fdctImpl (s.tile src)))))

/-- IDCT (R107). -/
def execIdct (src dst : BufIx) (s : State) : Host.Outcome State Fault Refusal :=
  endCommand (.idct src dst) s (withTileN s (.commit (storeSaturated s dst (idctImpl (s.tile src)))))

end Sys2Proof.Machine
end

