-- ==== Sys2Proof/Machine/Zigzag.lean ====
section
/-! DEFINITION. The zigzag permutation network: ZIGZAG and UNZIGZAG (spec/42_zigzag.md R130 to R133). -/

namespace Sys2Proof.Machine

/-- `ZZ[k]`, the natural index of zigzag element `k` (R130). -/
def zzTable : Vector (Fin 64) 64 :=
  #v[0, 1, 8, 16, 9, 2, 3, 10,
   17, 24, 32, 25, 18, 11, 4, 5,
   12, 19, 26, 33, 40, 48, 41, 34,
   27, 20, 13, 6, 7, 14, 21, 28,
   35, 42, 49, 56, 57, 50, 43, 36,
   29, 22, 15, 23, 30, 37, 44, 51,
   58, 59, 52, 45, 38, 31, 39, 46,
   53, 60, 61, 54, 47, 55, 62, 63]

/-- `IZZ[i]`, the zigzag index of natural index `i` (R131). -/
def izzTable : Vector (Fin 64) 64 :=
  #v[0, 1, 5, 6, 14, 15, 27, 28,
   2, 4, 7, 13, 16, 26, 29, 42,
   3, 8, 12, 17, 25, 30, 41, 43,
   9, 11, 18, 24, 31, 40, 44, 53,
   10, 19, 23, 32, 39, 45, 52, 54,
   20, 22, 33, 38, 46, 51, 55, 60,
   21, 34, 37, 47, 50, 56, 59, 61,
   35, 36, 48, 49, 57, 58, 62, 63]

/-- `ZZ[k]` (R130). -/
def zz (k : Fin 64) : Fin 64 := zzTable[k]

/-- `IZZ[i]` (R131). -/
def izz (i : Fin 64) : Fin 64 := izzTable[i]

/-- Natural order to zigzag order: word `k` of the result is word `ZZ[k]` of the source (R132). -/
def toZigzag (src : Tile) : Tile := fun k => src (zz k)

/-- Zigzag order to natural order: word `ZZ[k]` of the result is word `k` of the source, that is, word `i` of the result is
word `IZZ[i]` of the source (R133, R131). -/
def ofZigzag (src : Tile) : Tile := fun i => src (izz i)

/-- ZIGZAG (R132). -/
def execZigzag (src dst : BufIx) (s : State) : Host.Outcome State Fault Refusal :=
  endCommand (.zigzag src dst) s (withTileN s (.commit (s.writeTile dst (toZigzag (s.tile src)))))

/-- UNZIGZAG (R133). -/
def execUnzigzag (src dst : BufIx) (s : State) : Host.Outcome State Fault Refusal :=
  endCommand (.unzigzag src dst) s (withTileN s (.commit (s.writeTile dst (ofZigzag (s.tile src)))))

end Sys2Proof.Machine
end

