-- ==== Sys2Proof/Machine/Dispatch.lean ====
section
/-! DEFINITION. The dispatch of a decoded command to its meaning (spec/30_encoding.md R81). -/

namespace Sys2Proof.Machine

/-- The meaning of a command in the state in which the engine takes it (R200). -/
def exec (i : Instr) (s : State) : Host.Outcome State Fault Refusal :=
  match i with
  | .nop => Sys2Proof.Machine.execNop s
  | .fdct src dst => Sys2Proof.Machine.execFdct src dst s
  | .idct src dst => Sys2Proof.Machine.execIdct src dst s
  | .quant src dst qsel => Sys2Proof.Machine.execQuant src dst qsel s
  | .dequant src dst qsel => Sys2Proof.Machine.execDequant src dst qsel s
  | .zigzag src dst => Sys2Proof.Machine.execZigzag src dst s
  | .unzigzag src dst => Sys2Proof.Machine.execUnzigzag src dst s
  | .rleEnc src => Sys2Proof.Machine.execRleEnc src s
  | .rleDec dst => Sys2Proof.Machine.execRleDec dst s
  | .huffDc src diff => Sys2Proof.Machine.execHuffDc src diff s
  | .huffAc => Sys2Proof.Machine.execHuffAc s
  | .bitsFlush => Sys2Proof.Machine.execBitsFlush s
  | .outClear => Sys2Proof.Machine.execOutClear s
  | .streamReset => Sys2Proof.Machine.execStreamReset s

end Sys2Proof.Machine
end

