-- ==== Sys2Proof/Machine/Engine.lean ====
section
/-! DEFINITION. The engine's step: executing the pending command (spec/60_exceptions.md R200, R205). -/

namespace Sys2Proof.Machine

/-- `execute(w)` (R200): an illegal word ends with ILLEGAL (R205), any other runs its command. -/
def execute (w : Word) (s : State) : Host.Outcome State Fault Refusal :=
  match decode w with
  | .ok i => exec i s
  | .error _ => .next (raiseError w .illegal 0 s)

/-- The engine's step is enabled exactly when PENDING holds a command (R200); otherwise the engine is idle (R221). -/
def engineStep (s : State) : Host.Outcome State Fault Refusal :=
  match s.pending with
  | some w => execute w s
  | none => .next s

end Sys2Proof.Machine
end

