-- ==== Sys2Proof/Machine/HostPort.lean ====
section
/-! DEFINITION. The host port: the window map, host reads and host writes (spec/20_memory.md R60 to R73,
spec/10_state.md R47, spec/60_exceptions.md R201). -/

namespace Sys2Proof.Machine

/-- What stands at a word of the window (R62, R47). -/
inductive Location where
  | id | ctrl | status | cmd | errCode | errInfo | errAux | cfg | symcnt | obLen | bitstate | prevDc
  | tileWord (b : BufIx) (i : Fin 64)
  | symbolWord (j : Fin 64)
  | outputWord (m : Fin 1024)
  | quantWord (t : TableIx) (m : Fin 16)
  | reserved
  deriving DecidableEq, Repr

/-- The register at word `n` of the register page (R47). -/
def registerAt : Nat → Location
  | 0 => .id
  | 1 => .ctrl
  | 2 => .status
  | 3 => .cmd
  | 4 => .errCode
  | 5 => .errInfo
  | 6 => .errAux
  | 7 => .cfg
  | 8 => .symcnt
  | 9 => .obLen
  | 10 => .bitstate
  | 11 => .prevDc
  | _ => .reserved

/-- The window map (R62), by offset from CORE_BASE, a multiple of 4 (R64). -/
def locate (off : Nat) : Location :=
  if off < 0x1000 then registerAt (off / 4)
  else if off < 0x1400 then
    .tileWord (Fin.ofNat 4 ((off - 0x1000) / 0x100)) (Fin.ofNat 64 ((off - 0x1000) / 4))
  else if off < 0x2000 then .reserved
  else if off < 0x2100 then .symbolWord (Fin.ofNat 64 ((off - 0x2000) / 4))
  else if off < 0x3000 then .reserved
  else if off < 0x4000 then .outputWord (Fin.ofNat 1024 ((off - 0x3000) / 4))
  else if off < 0x4100 then
    .quantWord (Fin.ofNat 4 ((off - 0x4000) / 0x40)) (Fin.ofNat 16 ((off - 0x4000) / 4))
  else .reserved

/-- The offset of a host address the CORE sees; the CORE does not see any other address (R61). -/
def windowOffset (addr : Nat) : Option Nat :=
  if Config.coreBase ≤ addr ∧ addr < Config.coreBase + 0x8000 then some (addr - Config.coreBase) else none

/-- The locations the engine owns while a command is pending: their reads are unconstrained (R71 b). -/
def Location.engineOwnsRead : Location → Bool
  | .tileWord _ _ | .symbolWord _ | .outputWord _ | .symcnt | .obLen | .bitstate | .prevDc => true
  | .id | .ctrl | .status | .cmd | .errCode | .errInfo | .errAux | .cfg | .quantWord _ _ | .reserved => false

/-- The locations a host write of which is dropped with HAZ while a command is pending (R71 a). -/
def Location.engineOwnsWrite : Location → Bool
  | .tileWord _ _ | .symbolWord _ | .cfg | .symcnt | .prevDc => true
  | .id | .ctrl | .status | .cmd | .errCode | .errInfo | .errAux | .obLen | .bitstate | .outputWord _ | .quantWord _ _
  | .reserved => false

/-- The code of R203. -/
def ErrCode.toBits : ErrCode → BitVec 4
  | .none => 0
  | .illegal => 1
  | .config => 2
  | .capacity => 3
  | .table => 4
  | .range => 5

/-- ID (R32). -/
def idWord : Word := 0x49504331#32

/-- BITSTATE (R28): BIT_CNT in bits 10:8, BIT_ACC in bits 6:0. -/
def State.bitstateWord (s : State) : Word := 0#21 ++ s.bitCnt ++ 0#1 ++ s.bitAcc

/-- Four bytes as a host word, the first in bits 7:0 (R63). -/
def littleEndian (b0 b1 b2 b3 : Byte) : Word := b3 ++ b2 ++ b1 ++ b0

/-- Byte `k` of the output buffer as a host read sees it (R68): the stream's byte below OB_LEN, an unconstrained byte at or
above it. -/
def State.outputByte (s : State) (k : Nat) (free : Byte) : Byte :=
  if k < s.obLen.toNat then (Memory.read s.ob k).getD free else free

/-- The word a host read of a location returns while no command is pending; `free` stands for what is unconstrained
(R65 to R69, R47). -/
def State.idleRead (s : State) (free : Word) : Location → Word
  | .id => idWord
  | .ctrl => s.ctrlWord
  | .status => s.statusWord
  | .cmd => s.lastcmd
  | .errCode => s.errCode.toBits.zeroExtend 32
  | .errInfo => s.errInfo
  | .errAux => s.errAux
  | .cfg => s.tileN.zeroExtend 32
  | .symcnt => s.symcnt.zeroExtend 32
  | .obLen => s.obLen.zeroExtend 32
  | .bitstate => s.bitstateWord
  | .prevDc => s.prevDc
  | .tileWord b i => s.tb[b][i].getD free
  | .symbolWord j => s.sb[j].getD free
  | .outputWord m =>
    littleEndian (s.outputByte (4 * m.val) (free.extractLsb' 0 8)) (s.outputByte (4 * m.val + 1) (free.extractLsb' 8 8))
      (s.outputByte (4 * m.val + 2) (free.extractLsb' 16 8)) (s.outputByte (4 * m.val + 3) (free.extractLsb' 24 8))
  | .quantWord t m =>
    littleEndian (quantByte t m 0) (quantByte t m 1) (quantByte t m 2) (quantByte t m 3)
  | .reserved => 0
where
  /-- Entry `4m + j` of a quantization table, as a byte (R63, R69). -/
  quantByte (t : TableIx) (m : Fin 16) (j : Fin 4) : Byte :=
    BitVec.ofNat 8 (quantTable t ⟨4 * m.val + j.val, by omega⟩)

/-- The word a host read of a location returns (R71 b, c). -/
def State.readLocation (s : State) (l : Location) : Word :=
  if s.busy && l.engineOwnsRead then Config.draw s.draws else s.idleRead (Config.draw s.draws) l

/-- A host read (R72): the word is answered and nothing of the CORE changes; the free value it may have used is used up. -/
def hostRead (l : Location) (s : State) : State :=
  { s with readData := some (s.readLocation l), draws := s.draws + 1 }

/-- A host write of `w` to CMD (R201): accepted when BUSY = 0 and ERR = 0, dropped with HAZ otherwise. -/
def hostWriteCmd (w : Word) (s : State) : State :=
  if s.busy = false ∧ s.err = false then { s with pending := some w, lastcmd := w } else s.hazard

/-- What a host write stores when it is not dropped (R25, R29, R33, R39, R45, R65 to R70, R201). -/
def storeLocation (l : Location) (w : Word) (s : State) : State :=
  match l with
  | .ctrl => s.writeCtrl w
  | .status => s.writeStatus w
  | .cmd => hostWriteCmd w s
  | .cfg => { s with tileN := w.extractLsb' 0 4 }
  | .symcnt => { s with symcnt := w.extractLsb' 0 7 }
  | .prevDc => { s with prevDc := w }
  | .tileWord b i => s.writeTileWord b i w
  | .symbolWord j => s.writeSymbol j w
  | .id | .errCode | .errInfo | .errAux | .obLen | .bitstate | .outputWord _ | .quantWord _ _ | .reserved => s

/-- A host write (R71 a, c). -/
def hostWrite (l : Location) (w : Word) (s : State) : State :=
  if s.busy && l.engineOwnsWrite then s.hazard else storeLocation l w s

/-- A host access at a host address: outside the window the CORE does not see it (R61), so it does nothing and a read is not
answered; of another width or alignment it is refused (R64); while reset is asserted it is not accepted (R230). Log 9,
log 10, log 11. -/
def hostAccess (addr bytes : Nat) (access : Location → State → State) (missed : State → State) (s : State) :
    Host.Outcome State Fault Refusal :=
  match windowOffset addr with
  | none => .next (missed s)
  | some off =>
    if bytes ≠ 4 ∨ off % 4 ≠ 0 then .refused (.unsupportedAccess off bytes)
    else if s.resetLine then .next (missed s)
    else .next (access (locate off) s)

/-- A read the CORE did not answer. Log 22. -/
def unanswered (s : State) : State := { s with readData := none }

end Sys2Proof.Machine
end

