-- ==== Sys2Proof/Machine/Agents.lean ====
section
/-! DEFINITION. One step of the whole machine: the next move of the outside world, or the engine's
(spec/60_exceptions.md R200, spec/70_reset_and_hazards.md R230). Log 1. -/

namespace Sys2Proof.Machine

/-- The effect of one move of the outside world (R200, R230). -/
def takeMove (m : HostMove) (s : State) : Host.Outcome State Fault Refusal :=
  match m with
  | .read addr bytes => hostAccess addr bytes hostRead unanswered s
  | .write addr bytes data => hostAccess addr bytes (fun l s => hostWrite l data s) (fun s => s) s
  | .engineTurn => engineStep s
  | .assertReset => .next { s.toReset with resetLine := true }
  | .releaseReset => .next { s with resetLine := false }

/-- One step: the outside world's next move, taken off the list; with none left, the engine's step. -/
def machineStep (s : State) : Host.Outcome State Fault Refusal :=
  match s.inputs with
  | [] => engineStep s
  | m :: rest => takeMove m { s with inputs := rest }

/-- The accepted CMD write of the word `w` (R201), with the engine's turn next. Log 14. -/
def State.withCommand (s : State) (w : Word) : State :=
  { s with pending := some w, lastcmd := w, inputs := .engineTurn :: s.inputs }

end Sys2Proof.Machine
end

