-- ==== Sys2Proof/Machine/Step.lean ====
section
/-! DEFINITION. The step of the machine, and the placing of one command as the next the engine runs. -/

namespace Sys2Proof.Machine

/-- One step of the machine (R200). -/
def step (s : State) : Host.Outcome State Fault Refusal := machineStep s

/-- `s` with the command whose bits are `w` pending and the engine's turn next: what an accepted CMD write does (R201).
Bits at and above `nbits` are 0. Log 14. -/
def State.withFetchWord (s : State) (nbits w : Nat) : State :=
  s.withCommand (BitVec.ofNat 32 (w % 2 ^ nbits))

end Sys2Proof.Machine
end

