-- ==== Sys2Proof/Ideal.lean ====
section
/-! DEFINITION. What the statements compare the machine with, written from the spec apart from the machine's own definitions:
the ideal real values of the transforms (spec/40_transform.md R101 to R103), the generator of the zigzag order
(spec/42_zigzag.md R130), the expanded Huffman tables as printed (spec/44_huffman.md R163, R164), the decoder's mask of used
bits (spec/30_encoding.md R87), the symbols of a
sequence and the expansion of symbol words (spec/43_rle.md R141 to R143, R147, R148), and single accesses of the host. The machine uses none of these. -/

namespace Sys2Proof

open Sys2Proof.Machine

/-- `C(0) = 1/√2`, `C(k) = 1` for other `k` (R101). -/
noncomputable def normFactor (k : Fin 8) : ℝ := if k = 0 then 1 / Real.sqrt 2 else 1

/-- `cos(π(2n+1)k/16)` (R102, R103). -/
noncomputable def kernel (k n : Fin 8) : ℝ := Real.cos (Real.pi * (2 * n.val + 1) * k.val / 16)

/-- `Rf(u,v)` (R102). -/
noncomputable def idealForward (f : Fin 8 → Fin 8 → ℝ) (u v : Fin 8) : ℝ :=
  normFactor u * normFactor v / 4 * ∑ x, ∑ y, f x y * kernel u x * kernel v y

/-- `Ri(x,y)` (R103). -/
noncomputable def idealInverse (F : Fin 8 → Fin 8 → ℝ) (x y : Fin 8) : ℝ :=
  1 / 4 * ∑ u, ∑ v, normFactor u * normFactor v * F u v * kernel u x * kernel v y

/-- The FX reading of a natural-order tile (R22, R12): `sint32(w) / 256` at each row and column. -/
noncomputable def fxTile (src : Tile) (row col : Fin 8) : ℝ := (sint32 (src (at8 row col)) : ℝ) / 256

/-- The zigzag order as R130 generates it: anti-diagonals `d = row + col`, the even ones with the rows reversed. -/
def zigzagOrder : List Nat :=
  (List.range 15).flatMap fun d =>
    let rows := (List.range 8).filter fun r => d - 7 ≤ r && r ≤ d
    (if d % 2 = 0 then rows.reverse else rows).map fun r => 8 * r + (d - r)

/-- R163's table: (category, len, code). -/
def dcTablePrinted : List (Nat × Nat × Nat) :=
  [(0, 2, 0x0), (1, 3, 0x2), (2, 3, 0x3), (3, 3, 0x4), (4, 3, 0x5), (5, 3, 0x6), (6, 4, 0xE), (7, 5, 0x1E), (8, 6, 0x3E),
    (9, 7, 0x7E), (10, 8, 0xFE), (11, 9, 0x1FE)]

/-- R164's table: (key, len, code). -/
def acTablePrinted : List (Nat × Nat × Nat) :=
  [(0x00, 4, 0xA), (0x01, 2, 0x0), (0x02, 2, 0x1), (0x03, 3, 0x4), (0x04, 4, 0xB), (0x05, 5, 0x1A), (0x06, 7, 0x78), (0x07, 8, 0xF8), (0x08, 10, 0x3F6), (0x09, 16, 0xFF82), (0x0A, 16, 0xFF83), (0x11, 4, 0xC)] ++
  [(0x12, 5, 0x1B), (0x13, 7, 0x79), (0x14, 9, 0x1F6), (0x15, 11, 0x7F6), (0x16, 16, 0xFF84), (0x17, 16, 0xFF85), (0x18, 16, 0xFF86), (0x19, 16, 0xFF87), (0x1A, 16, 0xFF88), (0x21, 5, 0x1C), (0x22, 8, 0xF9), (0x23, 10, 0x3F7)] ++
  [(0x24, 12, 0xFF4), (0x25, 16, 0xFF89), (0x26, 16, 0xFF8A), (0x27, 16, 0xFF8B), (0x28, 16, 0xFF8C), (0x29, 16, 0xFF8D), (0x2A, 16, 0xFF8E), (0x31, 6, 0x3A), (0x32, 9, 0x1F7), (0x33, 12, 0xFF5), (0x34, 16, 0xFF8F), (0x35, 16, 0xFF90)] ++
  [(0x36, 16, 0xFF91), (0x37, 16, 0xFF92), (0x38, 16, 0xFF93), (0x39, 16, 0xFF94), (0x3A, 16, 0xFF95), (0x41, 6, 0x3B), (0x42, 10, 0x3F8), (0x43, 16, 0xFF96), (0x44, 16, 0xFF97), (0x45, 16, 0xFF98), (0x46, 16, 0xFF99), (0x47, 16, 0xFF9A)] ++
  [(0x48, 16, 0xFF9B), (0x49, 16, 0xFF9C), (0x4A, 16, 0xFF9D), (0x51, 7, 0x7A), (0x52, 11, 0x7F7), (0x53, 16, 0xFF9E), (0x54, 16, 0xFF9F), (0x55, 16, 0xFFA0), (0x56, 16, 0xFFA1), (0x57, 16, 0xFFA2), (0x58, 16, 0xFFA3), (0x59, 16, 0xFFA4)] ++
  [(0x5A, 16, 0xFFA5), (0x61, 7, 0x7B), (0x62, 12, 0xFF6), (0x63, 16, 0xFFA6), (0x64, 16, 0xFFA7), (0x65, 16, 0xFFA8), (0x66, 16, 0xFFA9), (0x67, 16, 0xFFAA), (0x68, 16, 0xFFAB), (0x69, 16, 0xFFAC), (0x6A, 16, 0xFFAD), (0x71, 8, 0xFA)] ++
  [(0x72, 12, 0xFF7), (0x73, 16, 0xFFAE), (0x74, 16, 0xFFAF), (0x75, 16, 0xFFB0), (0x76, 16, 0xFFB1), (0x77, 16, 0xFFB2), (0x78, 16, 0xFFB3), (0x79, 16, 0xFFB4), (0x7A, 16, 0xFFB5), (0x81, 9, 0x1F8), (0x82, 15, 0x7FC0), (0x83, 16, 0xFFB6)] ++
  [(0x84, 16, 0xFFB7), (0x85, 16, 0xFFB8), (0x86, 16, 0xFFB9), (0x87, 16, 0xFFBA), (0x88, 16, 0xFFBB), (0x89, 16, 0xFFBC), (0x8A, 16, 0xFFBD), (0x91, 9, 0x1F9), (0x92, 16, 0xFFBE), (0x93, 16, 0xFFBF), (0x94, 16, 0xFFC0), (0x95, 16, 0xFFC1)] ++
  [(0x96, 16, 0xFFC2), (0x97, 16, 0xFFC3), (0x98, 16, 0xFFC4), (0x99, 16, 0xFFC5), (0x9A, 16, 0xFFC6), (0xA1, 9, 0x1FA), (0xA2, 16, 0xFFC7), (0xA3, 16, 0xFFC8), (0xA4, 16, 0xFFC9), (0xA5, 16, 0xFFCA), (0xA6, 16, 0xFFCB), (0xA7, 16, 0xFFCC)] ++
  [(0xA8, 16, 0xFFCD), (0xA9, 16, 0xFFCE), (0xAA, 16, 0xFFCF), (0xB1, 10, 0x3F9), (0xB2, 16, 0xFFD0), (0xB3, 16, 0xFFD1), (0xB4, 16, 0xFFD2), (0xB5, 16, 0xFFD3), (0xB6, 16, 0xFFD4), (0xB7, 16, 0xFFD5), (0xB8, 16, 0xFFD6), (0xB9, 16, 0xFFD7)] ++
  [(0xBA, 16, 0xFFD8), (0xC1, 10, 0x3FA), (0xC2, 16, 0xFFD9), (0xC3, 16, 0xFFDA), (0xC4, 16, 0xFFDB), (0xC5, 16, 0xFFDC), (0xC6, 16, 0xFFDD), (0xC7, 16, 0xFFDE), (0xC8, 16, 0xFFDF), (0xC9, 16, 0xFFE0), (0xCA, 16, 0xFFE1), (0xD1, 11, 0x7F8)] ++
  [(0xD2, 16, 0xFFE2), (0xD3, 16, 0xFFE3), (0xD4, 16, 0xFFE4), (0xD5, 16, 0xFFE5), (0xD6, 16, 0xFFE6), (0xD7, 16, 0xFFE7), (0xD8, 16, 0xFFE8), (0xD9, 16, 0xFFE9), (0xDA, 16, 0xFFEA), (0xE1, 16, 0xFFEB), (0xE2, 16, 0xFFEC), (0xE3, 16, 0xFFED)] ++
  [(0xE4, 16, 0xFFEE), (0xE5, 16, 0xFFEF), (0xE6, 16, 0xFFF0), (0xE7, 16, 0xFFF1), (0xE8, 16, 0xFFF2), (0xE9, 16, 0xFFF3), (0xEA, 16, 0xFFF4), (0xF0, 11, 0x7F9), (0xF1, 16, 0xFFF5), (0xF2, 16, 0xFFF6), (0xF3, 16, 0xFFF7), (0xF4, 16, 0xFFF8)] ++
  [(0xF5, 16, 0xFFF9), (0xF6, 16, 0xFFFA), (0xF7, 16, 0xFFFB), (0xF8, 16, 0xFFFC), (0xF9, 16, 0xFFFD), (0xFA, 16, 0xFFFE)]

/-- `used` of R87: the bits of a command word that the command with this OPC uses (R81). -/
def usedMask : Nat → Word
  | 0x01 | 0x02 | 0x05 | 0x06 => 0x00000FFF#32
  | 0x03 | 0x04 => 0x00003FFF#32
  | 0x07 => 0x000003FF#32
  | 0x08 => 0x00000CFF#32
  | 0x09 => 0x000043FF#32
  | _ => 0x000000FF#32

/-- The words that code a nonzero coefficient `v` after `z` zeros: a ZRL (15,0,0) for each 16 zeros, then the symbol of the
zeros left over, the category (R140) and the value's low 16 bits (R141, R143). -/
def coefficientSymbols (z : Nat) (v : Int) : List Word :=
  List.replicate (z / 16) 0x00F00000#32 ++
    [BitVec.ofNat 32 (2 ^ 20 * (z % 16) + 2 ^ 16 * cat v + (v % 2 ^ 16).toNat)]

/-- The symbols of a sequence (R142, R143), without a running counter: each nonzero coefficient from index 1 on is coded with
the zeros between it and the nonzero one before it (or index 0), and EOB (0,0,0) ends them when coefficient 63 is zero. Zeros
after the last nonzero coefficient have no other symbol. -/
def sequenceSymbols (seq : Fin 64 → Int) : List Word :=
  let nonzero := (List.finRange 64).filter fun i => i ≠ 0 ∧ seq i ≠ 0
  (List.zipWith (fun before i => coefficientSymbols (i.val - before.val - 1) (seq i)) (0 :: nonzero) nonzero).flatten ++
    if seq 63 = 0 then [0x00000000#32] else []

/-- Whether a symbol word is EOB (R147): RUN and SIZE, bits 23:16, are 0. -/
def isEobWord (w : Word) : Bool := w.toNat / 2 ^ 16 % 256 == 0

/-- What one symbol word other than EOB stands for (R147): ZRL (bits 23:16 are 0xF0) for 16 zeros, any other for RUN zeros and
then AMP as a signed number; the other bits are not looked at. -/
def symbolExpansion (w : Word) : List Int :=
  let amp : Int := w.toNat % 2 ^ 16
  if w.toNat / 2 ^ 16 % 256 = 0xF0 then List.replicate 16 0
  else List.replicate (w.toNat / 2 ^ 20 % 16) 0 ++ [if amp < 2 ^ 15 then amp else amp - 2 ^ 16]

/-- Coefficient `i` (1 to 63) of the sequence that symbol words stand for (R148): the symbols before the first EOB expanded one
after another from coefficient 1 on, and 0 where they do not reach. What they put past coefficient 63 is not in the sequence. -/
def expandedCoefficient (syms : List Word) (i : Fin 64) : Int :=
  ((syms.takeWhile fun w => !isEobWord w).flatMap symbolExpansion).getD (i.val - 1) 0

/-- A host read of the word at offset `off` in state `s` is answered with `w`, and leaves the CORE as it is (R72). -/
def ReadsAs (s : State) (off : Nat) (w : Word) : Prop :=
  ∀ rest, step { s with inputs := .read (Config.coreBase + off) 4 :: rest } =
    .next { s with inputs := rest, readData := some w, draws := s.draws + 1 }

/-- A host write of `data` to the word at offset `off` in state `s` leaves the CORE as `t`. -/
def WriteGives (s : State) (off : Nat) (data : Word) (t : State) : Prop :=
  ∀ rest, step { s with inputs := .write (Config.coreBase + off) 4 data :: rest } = .next { t with inputs := rest }

/-- The state a command that fails leaves (R202): everything as it was when the command started, but for the error. -/
def failed (s : State) (w : Word) (code : ErrCode) (aux : Nat) : State :=
  { s with err := true, errCode := code, errInfo := w, errAux := BitVec.ofNat 32 aux, pending := none,
            draws := s.draws + 64 }

end Sys2Proof
end

