-- ==== Sys2Proof/Safety.lean ====
section
/-! DEFINITION. What the claims are about: the end of a run, a clean run, and the invariants of the machine
(spec/70_reset_and_hazards.md R245, spec/60_exceptions.md R212). -/

namespace Sys2Proof

open Sys2Proof.Machine

/-- Whether a move is a host access (R60); the engine's turn and the reset input's moves are none. -/
def isAccess : HostMove → Bool
  | .read _ _ | .write _ _ _ => true
  | .engineTurn | .assertReset | .releaseReset => false

/-- The host has made its last access: no access is left among the moves to come, at whatever address (log 24). -/
def hostDone (s : State) : Prop := ∀ m ∈ s.inputs, isAccess m = false

/-- A point where a run can end (R245): the host has made its last access and BUSY = 0. A reset still to come is no access, so
the run does not wait for it. -/
def runOver (s : State) : Prop := hostDone s ∧ s.pending = none

/-- The run from `s` ends (R245) after `k` steps, in `t`: the first point where it can end. -/
def RunEnds (s : State) (k : Nat) (t : State) : Prop :=
  Host.Core.run Sys2Proof.core k s = .next t ∧ runOver t ∧
    ∀ j < k, ∀ u, Host.Core.run Sys2Proof.core j s = .next u → ¬ runOver u

/-- A run that ended with no failed command and no dropped access (R245's premise for a claim about outputs). -/
def cleanEnd (s : State) : Prop := runOver s ∧ s.err = false ∧ s.haz = false

/-- The stream state is as R26 to R28 give it: OB in canonical form within its 4096 bytes, OB_LEN at most 4096, every byte
below OB_LEN written, and the bits of BIT_ACC at and above BIT_CNT 0. -/
structure StreamInv (s : State) : Prop where
  wf : Memory.wf s.ob
  inRange : ∀ k, (Memory.read s.ob k).isSome → k < 4096
  written : ∀ k, k < s.obLen.toNat → (Memory.read s.ob k).isSome
  lenLe : s.obLen.toNat ≤ 4096
  accLt : s.bitAcc.toNat < 2 ^ s.bitCnt.toNat

/-- Every 0xFF byte of the stream is followed by a stuffed 0x00 (R168). -/
def StuffedInv (s : State) : Prop :=
  ∀ k, k < s.obLen.toNat → Memory.read s.ob k = some 0xFF#8 →
    k + 1 < s.obLen.toNat ∧ Memory.read s.ob (k + 1) = some 0x00#8

/-- What holds of the command registers (R40, R41, R202, R212, R230): a pending command is the last accepted one, none is
pending while ERR is 1 or while reset is asserted, and ERR = 1 has an error's code recorded. -/
structure CommandInv (s : State) : Prop where
  pendingIsLast : ∀ w, s.pending = some w → s.lastcmd = w
  noneWhileErr : s.err = true → s.pending = none
  noneInReset : s.resetLine = true → s.pending = none
  errRecorded : s.err = true → s.errCode ≠ .none

end Sys2Proof
end

