-- ==== Sys2Proof/Certificates/Slice0/Obligations.lean ====
section
/-! DEFINITION. The statements for the provers. A frame is written by putting fields back: "`t` with these fields put back is
`s`" says that every other field of `t` is that of `s`. The counter `draws` of the next free value (log 4) is the model's own;
a statement that names it says only how far it moves, and none rests on what a free value is. -/

open Sys2Proof Sys2Proof.Machine

/-! ## Encoding (30_encoding.md) -/

/-- Decoding a command's word gives the command back, with every operand (R80, R81, R87, R88). -/
def Obligations.DecodeOfEncodeIsTheCommand : Prop :=
  ∀ i : Instr, decode (encode i) = .ok i

/-- A word that decodes is the word of the command it decodes to: no bit of it is dropped (R85, R87). -/
def Obligations.EncodeOfDecodeIsTheWord : Prop :=
  ∀ (w : Word) (i : Instr), decode w = .ok i → encode i = w

/-- R85: a word encodes a command exactly when it fits that command's row of the table, and a word that fits no row is ended
by the engine with ILLEGAL, changing nothing else. -/
def Obligations.WordIsCommandExactlyWhenItFitsTheRow : Prop :=
  (∀ w : Word, (∃ i, decode w = .ok i) ↔ ∃ r ∈ opcodeTable, r.fits w = true) ∧
  (∀ (w : Word) (i : Instr), decode w = .ok i → ∀ r ∈ opcodeTable, r.fits w = true ↔ r.mnemonic = i.mnemonic) ∧
  (∀ (w : Word) (s : State), (∀ r ∈ opcodeTable, r.fits w = false) → s.pending = some w →
    engineStep s = .next { s with err := true, errCode := .illegal, errInfo := w, errAux := 0, pending := none })

/-- R87 and R205: a word whose OPC is above 0x0D, or that has a bit outside the bits its command uses, is no command and ends
with ILLEGAL before any other check; every other word is one. -/
def Obligations.IllegalWordsByOpcodeAndUsedBits : Prop :=
  ∀ w : Word,
    let opc := (w.extractLsb' 0 8).toNat
    ((opc ≤ 0x0D ∧ w &&& ~~~usedMask opc = 0) → ∃ i, decode w = .ok i) ∧
    ((0x0D < opc ∨ w &&& ~~~usedMask opc ≠ 0) → ∀ s : State, s.pending = some w →
      engineStep s = .next { s with err := true, errCode := .illegal, errInfo := w, errAux := 0, pending := none })

/-- Words of 95_test_vectors.md decode to the commands they stand for there (R81, R88). -/
def Obligations.SpecWordsDecode : Prop :=
  decode 0x00000000#32 = .ok .nop ∧ decode 0x00000401#32 = .ok (.fdct 0 1) ∧ decode 0x00000102#32 = .ok (.idct 1 0) ∧
  decode 0x00003503#32 = .ok (.quant 1 1 3) ∧ decode 0x00003F04#32 = .ok (.dequant 3 3 3) ∧
  decode 0x00000105#32 = .ok (.zigzag 1 0) ∧ decode 0x00000E06#32 = .ok (.unzigzag 2 3) ∧
  decode 0x00000207#32 = .ok (.rleEnc 2) ∧ decode 0x00000808#32 = .ok (.rleDec 2) ∧
  decode 0x00004209#32 = .ok (.huffDc 2 true) ∧ decode 0x00000009#32 = .ok (.huffDc 0 false) ∧
  decode 0x0000000A#32 = .ok .huffAc ∧ decode 0x0000000B#32 = .ok .bitsFlush ∧ decode 0x0000000C#32 = .ok .outClear ∧
  decode 0x0000000D#32 = .ok .streamReset

/-! ## Steps and acceptance (60_exceptions.md) -/

/-- The engine's step runs the decoded pending command, at the engine's turn or when no move of the outside world is left; and
`withFetchWord` makes the very next step run its word's command (R200; log 1, log 14). -/
def Obligations.StepRunsTheDecodedCommand : Prop :=
  (∀ (s : State) (w : Word) (i : Instr), s.pending = some w → decode w = .ok i →
    (s.inputs = [] → step s = exec i s) ∧
    (∀ rest, s.inputs = .engineTurn :: rest → step s = exec i { s with inputs := rest })) ∧
  (∀ (s : State) (nbits n : Nat) (i : Instr), decode (BitVec.ofNat 32 (n % 2 ^ nbits)) = .ok i →
    step (s.withFetchWord nbits n) =
      exec i { s with pending := some (BitVec.ofNat 32 (n % 2 ^ nbits)), lastcmd := BitVec.ofNat 32 (n % 2 ^ nbits) })

/-- With no command pending the engine executes nothing, and so after reset (R200, R221, R233). -/
def Obligations.EngineIdleWithoutCommand : Prop :=
  (∀ s : State, s.pending = none →
    (s.inputs = [] → step s = .next s) ∧
    (∀ rest, s.inputs = .engineTurn :: rest → step s = .next { s with inputs := rest })) ∧
  step State.reset = .next State.reset

/-- R201: a host write to CMD is accepted when BUSY = 0 and ERR = 0, and dropped with HAZ otherwise. -/
def Obligations.CmdWriteAcceptedOrDropped : Prop :=
  ∀ (s : State) (w : Word), s.resetLine = false →
    ((s.busy = false ∧ s.err = false) → WriteGives s 0x00C w { s with pending := some w, lastcmd := w }) ∧
    ((s.busy = true ∨ s.err = true) → WriteGives s 0x00C w { s with haz := true })

/-- Every accepted command is eventually executed (R200's weak fairness), and so every run that is not refused ends (R245): once
the outside world has made its moves, one more step leaves nothing pending, and by then there has been a first point where the
host had made its last access and BUSY was 0, at which the run ended. That so many steps are enough is the model's schedule, in
which the engine steps when the list of moves is empty (log 1, a DESIGN CHOICE; R243 gives no time); which accesses count is
log 24. A run that is over stays over, and nothing but a reset then changes the state it ended in. -/
def Obligations.RunEndsWithNothingPending : Prop :=
  (∀ s t : State, Host.Core.run Sys2Proof.core (s.inputs.length + 1) s = .next t →
    t.inputs = [] ∧ t.pending = none ∧ ∃ k ≤ s.inputs.length + 1, ∃ e, RunEnds s k e) ∧
  (∀ s t : State, runOver s → step s = .next t → runOver t ∧
    (s.inputs.head? ≠ some .assertReset → { t with inputs := s.inputs, resetLine := s.resetLine } = s))

/-- While a command is pending, no move of the outside world but reset and the engine's turn changes the command or anything
it reads (R71, R73, R75). Of what commands write without reading it, a STATUS write may clear OVF, DONE and ERR (R39), and
nothing sets them. -/
def Obligations.PendingCommandInputsCannotChange : Prop :=
  ∀ (s t : State) (w : Word) (m : HostMove) (rest : List HostMove), s.pending = some w → s.inputs = m :: rest →
    m ≠ .engineTurn → m ≠ .assertReset → step s = .next t →
      { t with inputs := s.inputs, ieDone := s.ieDone, ieErr := s.ieErr, done := s.done, err := s.err, ovf := s.ovf,
               haz := s.haz, resetLine := s.resetLine, readData := s.readData, draws := s.draws } = s ∧
      (t.ovf = true → s.ovf = true) ∧ (t.done = true → s.done = true) ∧ (t.err = true → s.err = true)

/-- R71 (a) and (b): while BUSY, a host write of a tile buffer word, an SB entry, CFG, SYMCNT or PREV_DC is dropped with HAZ, and
a host read of a tile buffer word, an SB entry, an OB word, SYMCNT, OB_LEN, BITSTATE or PREV_DC returns a free value. -/
def Obligations.BusyDataAccesses : Prop :=
  ∀ (s : State) (off : Nat), s.busy = true → s.resetLine = false → off % 4 = 0 →
    (((0x1000 ≤ off ∧ off < 0x1400) ∨ (0x2000 ≤ off ∧ off < 0x2100) ∨ off = 0x01C ∨ off = 0x020 ∨ off = 0x02C) →
      ∀ w, WriteGives s off w { s with haz := true }) ∧
    (((0x1000 ≤ off ∧ off < 0x1400) ∨ (0x2000 ≤ off ∧ off < 0x2100) ∨ (0x3000 ≤ off ∧ off < 0x4000) ∨ off = 0x020 ∨
        off = 0x024 ∨ off = 0x028 ∨ off = 0x02C) →
      ReadsAs s off (Config.draw s.draws))

/-- R202 and R215: every pending word ends, in one step, in one of two ways: it commits, with DONE set, nothing pending and no
error field changed, or it fails, and changes nothing but ERR, the error registers and PENDING (DONE is not set). -/
def Obligations.EveryCommandCommitsOrChangesNothing : Prop :=
  ∀ (s : State) (w : Word), s.pending = some w → ∃ t, engineStep s = .next t ∧ t.pending = none ∧
    ((t.done = true ∧
        { t with tb := s.tb, sb := s.sb, symcnt := s.symcnt, ob := s.ob, obLen := s.obLen, bitAcc := s.bitAcc,
                 bitCnt := s.bitCnt, prevDc := s.prevDc, ovf := s.ovf, done := s.done, pending := s.pending,
                 draws := s.draws } = s) ∨
      (∃ code aux, code ≠ ErrCode.none ∧
        { t with draws := s.draws } =
          { s with err := true, errCode := code, errInfo := w, errAux := aux, pending := none }))

/-- R206: with CFG.TILE_N ≠ 8 every command of OPC 0x01 to 0x0A ends with CONFIG, ERR_AUX = 0. -/
def Obligations.TileSizeMismatchIsConfigError : Prop :=
  ∀ (i : Instr) (s : State), 0x01 ≤ (encode i &&& 0xFF#32).toNat → (encode i &&& 0xFF#32).toNat ≤ 0x0A → s.tileN ≠ 8 →
    exec i s = .next (failed s (encode i) .config 0)

/-! ## Host accesses (20_memory.md, 10_state.md) -/

/-- What the host reads at the registers, busy or not where R71 (c) says so (R28, R32 to R36, R40, R42 to R45, R47). -/
def Obligations.RegisterReads : Prop :=
  ∀ s : State, s.resetLine = false →
    ReadsAs s 0x000 0x49504331#32 ∧
    ReadsAs s 0x004 (BitVec.ofNat 32 (s.ieDone.toNat + 2 * s.ieErr.toNat)) ∧
    ReadsAs s 0x008 (BitVec.ofNat 32
      (s.pending.isSome.toNat + 2 * s.done.toNat + 4 * s.err.toNat + 8 * s.ovf.toNat + 16 * s.haz.toNat)) ∧
    ReadsAs s 0x00C s.lastcmd ∧
    (∀ code n, (code, n) ∈ [(ErrCode.none, 0), (.illegal, 1), (.config, 2), (.capacity, 3), (.table, 4), (.range, 5)] →
      s.errCode = code → ReadsAs s 0x010 (BitVec.ofNat 32 n)) ∧
    ReadsAs s 0x014 s.errInfo ∧ ReadsAs s 0x018 s.errAux ∧ ReadsAs s 0x01C (BitVec.ofNat 32 s.tileN.toNat) ∧
    (s.busy = false →
      ReadsAs s 0x020 (BitVec.ofNat 32 s.symcnt.toNat) ∧ ReadsAs s 0x024 (BitVec.ofNat 32 s.obLen.toNat) ∧
      ReadsAs s 0x028 (BitVec.ofNat 32 (256 * s.bitCnt.toNat + s.bitAcc.toNat)) ∧ ReadsAs s 0x02C s.prevDc)

/-- No host read changes anything of the CORE (R72): only the list of moves, the answer and the count of free values move. -/
def Obligations.HostReadChangesNothing : Prop :=
  ∀ (s t : State) (addr bytes : Nat) (rest : List HostMove), s.inputs = .read addr bytes :: rest → step s = .next t →
    t.inputs = rest ∧ { t with inputs := s.inputs, readData := s.readData, draws := s.draws } = s

/-- R66: a host write of a tile buffer word stores all 32 bits there and changes no other word, and a host read of a word that
has been written returns it. -/
def Obligations.TileWordAccess : Prop :=
  ∀ (s : State) (b : BufIx) (i : Fin 64) (w : Word), s.busy = false → s.resetLine = false →
    (∃ t, WriteGives s (0x1000 + 0x100 * b.val + 4 * i.val) w t ∧ t.tb[b][i] = some w ∧
      (∀ (b' : BufIx) (i' : Fin 64), ¬(b' = b ∧ i' = i) → t.tb[b'][i'] = s.tb[b'][i']) ∧ { t with tb := s.tb } = s) ∧
    (s.tb[b][i] = some w → ReadsAs s (0x1000 + 0x100 * b.val + 4 * i.val) w)

/-- R67: a host write of a symbol buffer entry stores all 32 bits there and changes no other entry, and a host read of an entry
that has been written returns it, whatever SYMCNT holds. -/
def Obligations.SymbolWordAccess : Prop :=
  ∀ (s : State) (j : Fin 64) (w : Word), s.busy = false → s.resetLine = false →
    (∃ t, WriteGives s (0x2000 + 4 * j.val) w t ∧ t.sb[j] = some w ∧
      (∀ j' : Fin 64, j' ≠ j → t.sb[j'] = s.sb[j']) ∧ { t with sb := s.sb } = s) ∧
    (s.sb[j] = some w → ReadsAs s (0x2000 + 4 * j.val) w)

/-- Host writes of CTRL at any time, and of CFG, SYMCNT and PREV_DC while no command is pending, store the register's own bits
and change nothing else (R25, R29, R33, R45). -/
def Obligations.HostWritesOfRegisters : Prop :=
  ∀ (s : State) (w : Word), s.resetLine = false →
    WriteGives s 0x004 w { s with ieDone := w.getLsbD 0, ieErr := w.getLsbD 1 } ∧
    (s.busy = false →
      WriteGives s 0x01C w { s with tileN := BitVec.ofNat 4 (w.toNat % 16) } ∧
      WriteGives s 0x020 w { s with symcnt := BitVec.ofNat 7 (w.toNat % 128) } ∧
      WriteGives s 0x02C w { s with prevDc := w })

/-- R39: a write to STATUS clears each of DONE, ERR, OVF, HAZ whose bit it has at 1, all in the same step, at any time, and
nothing else; the reserved bits of STATUS read 0, and reading it has no side effect. Clearing ERR alone is the return from an
error, which keeps the error registers (R211). -/
def Obligations.StatusWriteOneToClear : Prop :=
  ∀ (s : State) (w : Word), s.resetLine = false →
    WriteGives s 0x008 w
      { s with done := s.done && !w.getLsbD 1, err := s.err && !w.getLsbD 2, ovf := s.ovf && !w.getLsbD 3,
               haz := s.haz && !w.getLsbD 4 } ∧
    WriteGives s 0x008 0x4#32 { s with err := false } ∧
    (∃ v, ReadsAs s 0x008 v ∧ v.toNat < 32)

/-- R65 and R70 (and R68, R69 for writes): a host write to a read-only or reserved offset changes no state, and a reserved offset
reads 0. -/
def Obligations.ReservedAndReadOnlyOffsets : Prop :=
  ∀ (s : State) (off : Nat), s.resetLine = false → off % 4 = 0 → off < 0x8000 →
    (((0x030 ≤ off ∧ off < 0x1000) ∨ (0x1400 ≤ off ∧ off < 0x2000) ∨ (0x2100 ≤ off ∧ off < 0x3000) ∨ 0x4100 ≤ off) →
      ReadsAs s off 0 ∧ ∀ w, WriteGives s off w s) ∧
    ((off = 0x000 ∨ off = 0x010 ∨ off = 0x014 ∨ off = 0x018 ∨ off = 0x024 ∨ off = 0x028 ∨ (0x3000 ≤ off ∧ off < 0x4100)) →
      ∀ w, WriteGives s off w s)

/-- R63, R68, R69: each byte of an OB word that lies below OB_LEN is read at its place, the first byte in bits 7:0, also in the
word that OB_LEN falls into; and so is each byte of a word of a quantization table. -/
def Obligations.ByteWordsAreLittleEndian : Prop :=
  ∀ s : State, s.resetLine = false →
    (∀ m < 1024, s.busy = false → ∃ w : Word, ReadsAs s (0x3000 + 4 * m) w ∧
      ∀ j < 4, 4 * m + j < s.obLen.toNat → ∀ b : Byte, Memory.read s.ob (4 * m + j) = some b →
        w.toNat / 2 ^ (8 * j) % 256 = b.toNat) ∧
    (∀ (t : TableIx) (m : Fin 16) (i0 i1 i2 i3 : Fin 64), i0.val = 4 * m.val → i1.val = 4 * m.val + 1 →
      i2.val = 4 * m.val + 2 → i3.val = 4 * m.val + 3 →
      ReadsAs s (0x4000 + 0x40 * t.val + 4 * m.val)
        (BitVec.ofNat 32 (quantTable t i0 + 2 ^ 8 * quantTable t i1 + 2 ^ 16 * quantTable t i2 + 2 ^ 24 * quantTable t i3)))

/-- R30: every divisor is in 1..255, and table 3 is the identity table. -/
def Obligations.QuantTableEntries : Prop :=
  (∀ (t : TableIx) (i : Fin 64), 1 ≤ quantTable t i ∧ quantTable t i ≤ 255) ∧ ∀ i : Fin 64, quantTable 3 i = 1

/-- R64: a host access inside the window of another width than 32 bits, or at an offset that is not a multiple of 4, is refused:
no step. -/
def Obligations.UnsupportedAccessRefused : Prop :=
  ∀ (s : State) (off bytes : Nat) (w : Word) (rest : List HostMove), off < 0x8000 → (bytes ≠ 4 ∨ off % 4 ≠ 0) →
    step { s with inputs := .read (Config.coreBase + off) bytes :: rest } = .refused (.unsupportedAccess off bytes) ∧
    step { s with inputs := .write (Config.coreBase + off) bytes w :: rest } = .refused (.unsupportedAccess off bytes)

/-- R61: the window starts at a multiple of 0x8000, and an access at any other address is not seen by the CORE (the answer of
such a read is the model's choice: none, log 22). -/
def Obligations.OtherAddressesUnseen : Prop :=
  Config.coreBase % 0x8000 = 0 ∧
  ∀ (s : State) (addr bytes : Nat) (w : Word) (rest : List HostMove),
    (addr < Config.coreBase ∨ Config.coreBase + 0x8000 ≤ addr) →
      step { s with inputs := .read addr bytes :: rest } = .next { s with inputs := rest, readData := none } ∧
      step { s with inputs := .write addr bytes w :: rest } = .next { s with inputs := rest }

/-- R213, R214: IRQ is the function of STATUS and CTRL the spec gives, and it falls only in a step that writes STATUS or CTRL or
asserts reset. -/
def Obligations.IrqFallsOnlyByAcknowledgeOrMask : Prop :=
  (∀ s : State, s.irq = true ↔ (s.done = true ∧ s.ieDone = true) ∨ (s.err = true ∧ s.ieErr = true)) ∧
  (∀ s t : State, step s = .next t → s.irq = true → t.irq = false → ∃ rest,
    s.inputs = .assertReset :: rest ∨ (∃ w, s.inputs = .write (Config.coreBase + 0x004) 4 w :: rest) ∨
    (∃ w, s.inputs = .write (Config.coreBase + 0x008) 4 w :: rest))

/-! ## Reset (70_reset_and_hazards.md) -/

/-- R230: asserting the reset input, at any time and with a command pending, puts every piece of state in its reset value and
discards the command; while it is asserted no host access is accepted, and it can be released. R230 leaves assertion and release
to the platform: that the later moves are kept, that an access during reset is taken off the list and not held back, and what
the move `releaseReset` does are the model's choice (log 11, a DESIGN CHOICE), and so is that an unwritten location holds `none`
(logs 3 and 5). What the host sees of a read that is not accepted is left open here. -/
def Obligations.ResetFromAnyState : Prop :=
  ∀ (s : State) (rest : List HostMove), s.inputs = .assertReset :: rest → ∃ t, step s = .next t ∧
    t.symcnt = 0 ∧ t.obLen = 0 ∧ t.bitAcc = 0 ∧ t.bitCnt = 0 ∧ t.prevDc = 0 ∧ t.ieDone = false ∧ t.ieErr = false ∧
    t.busy = false ∧ t.done = false ∧ t.err = false ∧ t.ovf = false ∧ t.haz = false ∧ t.lastcmd = 0 ∧
    t.errCode = .none ∧ t.errInfo = 0 ∧ t.errAux = 0 ∧ t.tileN = 8 ∧ t.pending = none ∧ t.irq = false ∧
    (∀ (b : BufIx) (i : Fin 64), t.tb[b][i] = none) ∧ (∀ j : Fin 64, t.sb[j] = none) ∧
    (∀ k, Memory.read t.ob k = none) ∧ t.inputs = rest ∧
    ∀ (off : Nat) (w : Word) (rest' : List HostMove), off % 4 = 0 → off < 0x8000 →
      step { t with inputs := .write (Config.coreBase + off) 4 w :: rest' } = .next { t with inputs := rest' } ∧
      (∃ d, step { t with inputs := .read (Config.coreBase + off) 4 :: rest' } =
        .next { t with inputs := rest', readData := d }) ∧
      step { t with inputs := .releaseReset :: rest' } = .next { t with inputs := rest', resetLine := false }

/-- R231, R68: a location not written since reset reads as a free value, another for every read, for the host and for a
command's snapshot; and so does each byte at or above OB_LEN, also in the word that OB_LEN falls into (that it is the byte at
the same place of the read's free value is the model's choice, log 5). -/
def Obligations.UnwrittenLocationsReadFree : Prop :=
  (∀ s : State, s.busy = false → s.resetLine = false →
    (∀ (b : BufIx) (i : Fin 64), s.tb[b][i] = none →
      ReadsAs s (0x1000 + 0x100 * b.val + 4 * i.val) (Config.draw s.draws)) ∧
    (∀ j : Fin 64, s.sb[j] = none → ReadsAs s (0x2000 + 4 * j.val) (Config.draw s.draws)) ∧
    (∀ m, s.obLen.toNat ≤ 4 * m → m < 1024 → ReadsAs s (0x3000 + 4 * m) (Config.draw s.draws)) ∧
    (∀ m < 1024, ∃ w : Word, ReadsAs s (0x3000 + 4 * m) w ∧ ∀ j < 4, s.obLen.toNat ≤ 4 * m + j →
      w.toNat / 2 ^ (8 * j) % 256 = (Config.draw s.draws).toNat / 2 ^ (8 * j) % 256)) ∧
  (∀ (s : State) (b : BufIx) (i : Fin 64),
    (s.tb[b][i] = none → s.tile b i = Config.draw (s.draws + i.val)) ∧
    (∀ w, s.tb[b][i] = some w → s.tile b i = w) ∧
    (s.sb[i] = none → s.symbol i = Config.draw (s.draws + i.val)) ∧
    (∀ w, s.sb[i] = some w → s.symbol i = w))

/-! ## The transform engine (40_transform.md) -/

/-- R105 to R107: with CFG.TILE_N = 8, FDCT and IDCT complete, whatever SRC holds and also with SRC = DST: every word of DST
becomes the realization's integer for the snapshot of SRC, saturated; OVF is set exactly when one saturates; nothing else
changes (R109). -/
def Obligations.TransformCommandsComplete : Prop :=
  ∀ (src dst : BufIx) (s : State), s.tileN = 8 →
    let done (i : Instr) (y : Fin 64 → Int) : Prop := ∃ t, exec i s = .next t ∧
      (∀ k : Fin 64, ∃ v : Word, t.tb[dst][k] = some v ∧ v.toInt = max (-2147483648) (min (y k) 2147483647)) ∧
      (∀ b : BufIx, b ≠ dst → t.tb[b] = s.tb[b]) ∧
      (t.ovf = true ↔ s.ovf = true ∨ ∃ k, y k < -2147483648 ∨ 2147483647 < y k) ∧
      t.done = true ∧ t.pending = none ∧
      { t with tb := s.tb, ovf := s.ovf, done := s.done, pending := s.pending, draws := s.draws } = s
    done (.fdct src dst) (fdctImpl (s.tile src)) ∧ done (.idct src dst) (idctImpl (s.tile src))

/-- R104: whatever the open realizations are, each answer is within DCT_ERR = 1 of 256 times the ideal value; every integer
within the bound can be the answer, and is, where it is what the configuration's parameter gives; the reference realization's
answer is the nearest integer, and of two equally near ones the one of larger magnitude. That the answer is the parameter's
integer held to the bound (`holdToBound`) is the way the model takes the parameter (log 7, a DESIGN CHOICE). -/
def Obligations.TransformAccuracy : Prop :=
  ∀ (src : Tile) (r c : Fin 8),
    |(fdctImpl src (at8 r c) : ℝ) - 256 * idealForward (fxTile src) r c| ≤ 1 ∧
    |(idctImpl src (at8 r c) : ℝ) - 256 * idealInverse (fxTile src) r c| ≤ 1 ∧
    fdctImpl src (at8 r c) = holdToBound (forward16 src r c) (Config.fdctRaw src (at8 r c)) ∧
    idctImpl src (at8 r c) = holdToBound (inverse16 src r c) (Config.idctRaw src (at8 r c)) ∧
    (∀ y : Int, |(y : ℝ) - 256 * idealForward (fxTile src) r c| ≤ 1 → holdToBound (forward16 src r c) y = y) ∧
    (∀ y : Int, |(y : ℝ) - 256 * idealInverse (fxTile src) r c| ≤ 1 → holdToBound (inverse16 src r c) y = y) ∧
    (∀ y x, (y = fdctReference src (at8 r c) ∧ x = 256 * idealForward (fxTile src) r c) ∨
        (y = idctReference src (at8 r c) ∧ x = 256 * idealInverse (fxTile src) r c) →
      |(y : ℝ) - x| ≤ 1 / 2 ∧ (|(y : ℝ) - x| = 1 / 2 → |x| < |(y : ℝ)|))

/-- R110: a tile whose words are all equal has a DC answer within 1 of 8 times the word and AC answers within 1 of 0, and after
QUANT with any divisor every AC value is 0. -/
def Obligations.FlatTileHasNoAc : Prop :=
  ∀ (src : Tile) (c : Word), (∀ i, src i = c) →
    |fdctImpl src 0 - 8 * c.toInt| ≤ 1 ∧
    ∀ i : Fin 64, i ≠ 0 → |fdctImpl src i| ≤ 1 ∧
      ∀ T : Nat, 1 ≤ T → T ≤ 255 → quantLane (wordOf (sat32 (fdctImpl src i))) T = (0, false)

/-- R111: FDCT of samples in -128..255 does not saturate, so it leaves OVF as it was. -/
def Obligations.ByteSamplesDoNotSaturate : Prop :=
  ∀ (src dst : BufIx) (s : State), s.tileN = 8 →
    (∀ i, -128 * 256 ≤ (s.tile src i).toInt ∧ (s.tile src i).toInt ≤ 255 * 256) →
    ∃ t, exec (.fdct src dst) s = .next t ∧ t.ovf = s.ovf ∧ t.done = true

/-- R112: FDCT then IDCT of a tile, with neither command saturating, returns every sample within 9 units of 2^-8. -/
def Obligations.TransformRoundTrip : Prop :=
  ∀ (a b c : BufIx) (s s1 s2 : State), s.tileN = 8 → s.ovf = false →
    exec (.fdct a b) s = .next s1 → exec (.idct b c) s1 = .next s2 → s2.ovf = false →
      ∀ i : Fin 64, ∃ w : Word, s2.tb[c][i] = some w ∧ |w.toInt - (s.tile a i).toInt| ≤ 9

/-! ## The quantizer (41_quantizer.md) -/

/-- R121: the quotient is the integer nearest to `sint32(w) / (256·T)`, ties away from zero, and the lane's word is it clamped to
-32767..32767, with the second answer telling whether it was clamped. -/
def Obligations.QuantLaneRoundsHalfAway : Prop :=
  ∀ (w : Word) (T : Nat), 1 ≤ T → T ≤ 255 →
    2 * |w.toInt - 256 * T * quantExact w T| ≤ 256 * T ∧
    (2 * |w.toInt - 256 * T * quantExact w T| = 256 * T → |w.toInt| < |256 * T * quantExact w T|) ∧
    (quantLane w T).1.toInt = max (-32767) (min (quantExact w T) 32767) ∧
    ((quantLane w T).2 = true ↔ quantExact w T < -32767 ∨ 32767 < quantExact w T)

/-- R122, R123, R124: with CFG.TILE_N = 8, QUANT and DEQUANT complete, also with SRC = DST: every word of DST becomes its lane's
word for the snapshot of SRC and the divisor at the same index; OVF is set exactly when a lane clamps or saturates; nothing
else changes. That a DEQUANT lane of exactly -2^31 does not count as saturated is the model's choice (log 25, a DESIGN
CHOICE). -/
def Obligations.QuantCommandsComplete : Prop :=
  ∀ (src dst : BufIx) (q : TableIx) (s : State), s.tileN = 8 →
    let done (i : Instr) (y : Fin 64 → Int) (lo hi : Int) : Prop := ∃ t, exec i s = .next t ∧
      (∀ k : Fin 64, ∃ v : Word, t.tb[dst][k] = some v ∧ v.toInt = max lo (min (y k) hi)) ∧
      (∀ b : BufIx, b ≠ dst → t.tb[b] = s.tb[b]) ∧
      (t.ovf = true ↔ s.ovf = true ∨ ∃ k, y k < lo ∨ hi < y k) ∧
      t.done = true ∧ t.pending = none ∧
      { t with tb := s.tb, ovf := s.ovf, done := s.done, pending := s.pending, draws := s.draws } = s
    done (.quant src dst q) (fun k => quantExact (s.tile src k) (quantTable q k)) (-32767) 32767 ∧
    done (.dequant src dst q) (fun k => 256 * ((s.tile src k).toInt * quantTable q k)) (-2147483648) 2147483647

/-- R125: a lane that does not clamp comes back within T/2 and without saturation, every lane of magnitude below 32767.5·T does
not clamp, and dequantizing any QUANT output never saturates. -/
def Obligations.QuantizationBound : Prop :=
  ∀ (w : Word) (T : Nat), 1 ≤ T → T ≤ 255 →
    (dequantLane (quantLane w T).1 T).2 = false ∧
    ((quantLane w T).2 = false → 2 * |(dequantLane (quantLane w T).1 T).1.toInt - w.toInt| ≤ 256 * T) ∧
    (2 * |w.toInt| < 65535 * (256 * T) → (quantLane w T).2 = false)

/-- R126: with the identity table, an integer-valued coefficient passes QUANT and DEQUANT unchanged. -/
def Obligations.IdentityTablePassesIntegers : Prop :=
  ∀ (w : Word) (k : Int) (i : Fin 64), w.toInt = 256 * k → |k| ≤ 32767 →
    quantLane w (quantTable 3 i) = (wordOf k, false) ∧ dequantLane (wordOf k) (quantTable 3 i) = (w, false)

/-! ## The zigzag permutation (42_zigzag.md) -/

/-- R130, R131: the table ZZ is the generated order, and IZZ is its inverse. -/
def Obligations.ZigzagTableIsGenerated : Prop :=
  (List.finRange 64).map (fun k => (zz k).val) = zigzagOrder ∧ (∀ k, izz (zz k) = k) ∧ ∀ i, zz (izz i) = i

/-- R132, R133: with CFG.TILE_N = 8, ZIGZAG and UNZIGZAG complete, also with SRC = DST, moving every word of the snapshot bit for
bit, and change nothing else. -/
def Obligations.ZigzagCommandsComplete : Prop :=
  ∀ (src dst : BufIx) (s : State), s.tileN = 8 →
    let moved (t : State) : Prop := (∀ b : BufIx, b ≠ dst → t.tb[b] = s.tb[b]) ∧ t.done = true ∧ t.pending = none ∧
      { t with tb := s.tb, done := s.done, pending := s.pending, draws := s.draws } = s
    (∃ t, exec (.zigzag src dst) s = .next t ∧ (∀ k : Fin 64, t.tb[dst][k] = some (s.tile src (zz k))) ∧ moved t) ∧
    (∃ t, exec (.unzigzag src dst) s = .next t ∧ (∀ k : Fin 64, t.tb[dst][zz k] = some (s.tile src k)) ∧ moved t)

/-- R134: ZIGZAG then UNZIGZAG, and UNZIGZAG then ZIGZAG, return every buffer word unchanged; and zigzag index 0 is the DC. -/
def Obligations.ZigzagRoundTrip : Prop :=
  zz 0 = 0 ∧ ∀ (a b c : BufIx) (s s1 s2 : State), s.tileN = 8 →
    ((exec (.zigzag a b) s = .next s1 ∧ exec (.unzigzag b c) s1 = .next s2) ∨
      (exec (.unzigzag a b) s = .next s1 ∧ exec (.zigzag b c) s1 = .next s2)) →
    ∀ i : Fin 64, s2.tb[c][i] = some (s.tile a i)

/-! ## The run-length coder (43_rle.md) -/

/-- R140: the magnitude category is 0 for 0, and otherwise the k with 2^(k-1) ≤ |x| < 2^k. -/
def Obligations.MagnitudeCategory : Prop :=
  cat 0 = 0 ∧ ∀ x : Int, x ≠ 0 → 1 ≤ cat x ∧ 2 ^ (cat x - 1) ≤ x.natAbs ∧ x.natAbs < 2 ^ cat x

/-- R142 to R144: with CFG.TILE_N = 8 and every AC word in range, RLE_ENC completes: SB holds the sequence's symbols from SB[0]
on, as Ideal.lean writes them apart from the machine's loop (no symbol for a zero after the last nonzero coefficient but EOB,
and EOB whenever coefficient 63 is zero); the entries above keep their contents, SYMCNT is their number, and nothing else
changes. -/
def Obligations.RleEncCompletes : Prop :=
  ∀ (src : BufIx) (s : State), s.tileN = 8 →
    (∀ i : Fin 64, i ≠ 0 → -32767 ≤ (s.tile src i).toInt ∧ (s.tile src i).toInt ≤ 32767) →
    let syms := sequenceSymbols fun k => (s.tile src k).toInt
    ∃ t, exec (.rleEnc src) s = .next t ∧
      (∀ (j : Fin 64) (h : j.val < syms.length), t.sb[j] = some syms[j.val]) ∧
      (∀ j : Fin 64, syms.length ≤ j.val → t.sb[j] = s.sb[j]) ∧
      t.symcnt.toNat = syms.length ∧ t.done = true ∧ t.pending = none ∧
      { t with sb := s.sb, symcnt := s.symcnt, done := s.done, pending := s.pending, draws := s.draws } = s

/-- R209: RLE_ENC of a sequence with an AC word outside -32767..32767 ends with RANGE and the lowest such index. -/
def Obligations.RleEncRangeError : Prop :=
  ∀ (src : BufIx) (s : State) (i : Fin 64), s.tileN = 8 → i ≠ 0 →
    ((s.tile src i).toInt < -32767 ∨ 32767 < (s.tile src i).toInt) →
    (∀ k : Fin 64, k ≠ 0 → k < i → -32767 ≤ (s.tile src k).toInt ∧ (s.tile src k).toInt ≤ 32767) →
    exec (.rleEnc src) s = .next (failed s (encode (.rleEnc src)) .range i.val)

/-- R142, R143, R145: RLE_ENC produces 1 to 63 symbols; EOB stands at most once, as the last one, and it does stand last exactly
when the last coefficient is zero; a symbol of size 0 is EOB or ZRL; and the symbols before EOB expand (R147) to exactly the
coefficients 1..last, where last is the highest index of a nonzero one, so no symbol but EOB codes a zero after it. -/
def Obligations.RleSymbolCount : Prop :=
  ∀ seq : Fin 64 → Int, (∀ i, i ≠ 0 → -32767 ≤ seq i ∧ seq i ≤ 32767) →
    1 ≤ (rleEncode seq).length ∧ (rleEncode seq).length ≤ 63 ∧
    (∀ w ∈ rleEncode seq, symSize w = 0 → w = eob ∨ w = zrl) ∧
    (∀ j, (rleEncode seq)[j]? = some eob → j + 1 = (rleEncode seq).length ∧ seq 63 = 0) ∧
    ((rleEncode seq).getLast? = some eob ↔ seq 63 = 0) ∧
    ∃ last : Fin 64, (∀ k, last < k → seq k = 0) ∧ (last ≠ 0 → seq last ≠ 0) ∧
      ((rleEncode seq).takeWhile fun w => !isEobWord w).flatMap symbolExpansion =
        (((List.finRange 64).map seq).take (last.val + 1)).drop 1

/-- R146: z zeros before a nonzero value give exactly z/16 ZRL symbols and then a symbol with zero_run z mod 16. -/
def Obligations.ZeroRunsSubtractSixteen : Prop :=
  ∀ (z : Nat) (v : Int) (rest : List Int), v ≠ 0 →
    encodeRuns (List.replicate z 0 ++ v :: rest) 0 =
      List.replicate (z / 16) zrl ++ sym (z % 16) (cat v) v :: encodeRuns rest 0

/-- R147 to R149: with CFG.TILE_N = 8 and SYMCNT at most 64, RLE_DEC completes, whatever the symbol words are: words 1..63 of
DST are the sequence that SB[0..SYMCNT-1] stand for, as Ideal.lean writes it apart from the machine (each symbol by its class,
SIZE and bits 31:24 ignored, up to the first EOB or coefficient 63); word 0 and everything else keep their contents; with SYMCNT
above 64 it ends with CAPACITY and SYMCNT. -/
def Obligations.RleDecCompletes : Prop :=
  ∀ (dst : BufIx) (s : State), s.tileN = 8 →
    (s.symcnt.toNat ≤ 64 → ∃ t, exec (.rleDec dst) s = .next t ∧
      (∀ i : Fin 64, i ≠ 0 →
        t.tb[dst][i] = some (BitVec.ofInt 32
          (expandedCoefficient (((List.finRange 64).map s.symbol).take s.symcnt.toNat) i))) ∧
      t.tb[dst][(0 : Fin 64)] = s.tb[dst][(0 : Fin 64)] ∧ (∀ b : BufIx, b ≠ dst → t.tb[b] = s.tb[b]) ∧
      t.done = true ∧ t.pending = none ∧
      { t with tb := s.tb, done := s.done, pending := s.pending, draws := s.draws } = s) ∧
    (64 < s.symcnt.toNat → exec (.rleDec dst) s = .next (failed s (encode (.rleDec dst)) .capacity s.symcnt.toNat))

/-- R150: for a sequence whose AC words are in -32767..32767, RLE_ENC from buffer A then RLE_DEC into buffer B leaves every AC
word of B equal to that of A. -/
def Obligations.RleRoundTrip : Prop :=
  ∀ (a b : BufIx) (s s1 s2 : State), s.tileN = 8 →
    (∀ i : Fin 64, i ≠ 0 → -32767 ≤ (s.tile a i).toInt ∧ (s.tile a i).toInt ≤ 32767) →
    exec (.rleEnc a) s = .next s1 → exec (.rleDec b) s1 = .next s2 →
      ∀ i : Fin 64, i ≠ 0 → s2.tb[b][i] = some (s.tile a i)

/-! ## The entropy coder (44_huffman.md) -/

/-- R163 to R165: the canonical expansion of the two standard tables is the printed one, and every other key is absent. -/
def Obligations.HuffmanTablesAsPrinted : Prop :=
  (∀ e ∈ dcTablePrinted, dcEhuf e.1 = ⟨e.2.2, e.2.1⟩) ∧ (∀ e ∈ acTablePrinted, acEhuf e.1 = ⟨e.2.2, e.2.1⟩) ∧
  (∀ s, 12 ≤ s → (dcEhuf s).len = 0) ∧
  (∀ r s : Fin 16, (acEhuf (16 * r.val + s.val)).len = 0 ↔ 11 ≤ s.val ∨ (s.val = 0 ∧ r.val ≠ 0 ∧ r.val ≠ 15))

/-- No code of a table is the beginning of another code of it, so a stream of codes can be read back (R160). -/
def Obligations.CodesAreSelfDelimiting : Prop :=
  (∀ k k' : Fin 12, k ≠ k' →
    ¬ bitsMsb (dcEhuf k.val).code (dcEhuf k.val).len <+: bitsMsb (dcEhuf k'.val).code (dcEhuf k'.val).len) ∧
  (∀ k k' : Nat, (acEhuf k).len ≠ 0 → (acEhuf k').len ≠ 0 → k ≠ k' →
    ¬ bitsMsb (acEhuf k).code (acEhuf k).len <+: bitsMsb (acEhuf k').code (acEhuf k').len)

/-- R166: for every size s, also one that does not fit the amplitude, the amplitude bits are the low s bits, most significant
first (R167), of the value, or of the value plus 2^s − 1 if it is negative. In the value's own category they are that number
itself, it fits exactly, and so the first of the bits is the value's sign. -/
def Obligations.AmplitudeBitsFit : Prop :=
  ∀ a : Int,
    (∀ s : Nat, let x : Int := if 0 ≤ a then a else a + 2 ^ s - 1
      ampBits a s < 2 ^ s ∧ (∃ k : Int, x = ampBits a s + k * 2 ^ s) ∧ (bitsMsb (ampBits a s) s).length = s ∧
      ∀ i < s, (bitsMsb (ampBits a s) s)[i]? = some (decide (x / 2 ^ (s - 1 - i) % 2 = 1))) ∧
    (a ≠ 0 →
      (ampBits a (cat a) : Int) = (if 0 ≤ a then a else a + 2 ^ cat a - 1) ∧ ampBits a (cat a) < 2 ^ cat a ∧
      (bitsMsb (ampBits a (cat a)) (cat a)).head? = some (decide (0 ≤ a)))

/-- R167, R168: appending bits adds exactly them, in order, to the stream: the pending bits and the new bits are the bits, most
significant first, of the completed bytes and then the bits now pending; each completed byte is appended, with a stuffed 0x00
after 0xFF; and fewer than 8 bits stay pending. -/
def Obligations.PackerAppendsTheBits : Prop :=
  ∀ (p : Packer) (bits : List Bool), p.cnt < 8 → p.acc < 2 ^ p.cnt →
    let q := p.pushBits bits
    q.cnt < 8 ∧ q.acc < 2 ^ q.cnt ∧ ∃ bytes : List Byte,
      bitsMsb p.acc p.cnt ++ bits = bytes.flatMap (fun b => bitsMsb b.toNat 8) ++ bitsMsb q.acc q.cnt ∧
      q.out = p.out ++ bytes.flatMap fun b => if b = 0xFF#8 then [b, 0x00#8] else [b]

/-- R170: HUFF_DC with CFG.TILE_N = 8: TABLE with the category when it is above 11; otherwise the DC code and the amplitude bits
are packed, and PREV_DC takes the DC value itself, unless OB would pass 4096 bytes: then CAPACITY with the length needed.
Nothing else changes. -/
def Obligations.HuffDcOutcome : Prop :=
  ∀ (src : BufIx) (diff : Bool) (s : State), s.tileN = 8 →
    let v : Int := (s.tile src 0).toInt
    let d : Int := if diff = true then v - s.prevDc.toInt else v
    let p := (Packer.start s).pushBits
      (bitsMsb (dcEhuf (cat d)).code (dcEhuf (cat d)).len ++ bitsMsb (ampBits d (cat d)) (cat d))
    (11 < cat d → exec (.huffDc src diff) s = .next (failed s (encode (.huffDc src diff)) .table (cat d))) ∧
    (cat d ≤ 11 → s.obLen.toNat + p.out.length ≤ 4096 → exec (.huffDc src diff) s = .next
      { s with prevDc := s.tile src 0, ob := Memory.writeBytes s.ob s.obLen.toNat p.out,
               obLen := BitVec.ofNat 13 (s.obLen.toNat + p.out.length), bitAcc := BitVec.ofNat 7 p.acc,
               bitCnt := BitVec.ofNat 3 p.cnt, done := true, pending := none, draws := s.draws + 64 }) ∧
    (cat d ≤ 11 → 4096 < s.obLen.toNat + p.out.length → exec (.huffDc src diff) s =
      .next (failed s (encode (.huffDc src diff)) .capacity (s.obLen.toNat + p.out.length)))

/-- R171: HUFF_AC with CFG.TILE_N = 8: CAPACITY when SYMCNT is above 64; TABLE with the lowest index of a symbol whose key is
absent; otherwise code and amplitude bits of all SYMCNT symbols are packed in order, unless OB would pass 4096 bytes: then
CAPACITY with the length needed. Nothing else changes. -/
def Obligations.HuffAcOutcome : Prop :=
  ∀ s : State, s.tileN = 8 →
    let n := s.symcnt.toNat
    let syms := ((List.finRange 64).map s.symbol).take n
    let len (w : Word) : Nat := (acEhuf (16 * symRun w + symSize w)).len
    let bits (w : Word) : List Bool := bitsMsb (acEhuf (16 * symRun w + symSize w)).code (len w) ++
      bitsMsb (ampBits (w.extractLsb' 0 16).toInt (symSize w)) (symSize w)
    let p := (Packer.start s).pushBits (syms.flatMap bits)
    (64 < n → exec .huffAc s = .next (failed s (encode .huffAc) .capacity n)) ∧
    (n ≤ 64 → ∀ (j : Nat) (h : j < syms.length), len syms[j] = 0 → (∀ k (hk : k < j), len syms[k] ≠ 0) →
      exec .huffAc s = .next (failed s (encode .huffAc) .table j)) ∧
    (n ≤ 64 → (∀ w ∈ syms, len w ≠ 0) → s.obLen.toNat + p.out.length ≤ 4096 → exec .huffAc s = .next
      { s with ob := Memory.writeBytes s.ob s.obLen.toNat p.out,
               obLen := BitVec.ofNat 13 (s.obLen.toNat + p.out.length), bitAcc := BitVec.ofNat 7 p.acc,
               bitCnt := BitVec.ofNat 3 p.cnt, done := true, pending := none, draws := s.draws + 64 }) ∧
    (n ≤ 64 → (∀ w ∈ syms, len w ≠ 0) → 4096 < s.obLen.toNat + p.out.length → exec .huffAc s =
      .next (failed s (encode .huffAc) .capacity (s.obLen.toNat + p.out.length)))

/-- R172: BITS_FLUSH pads the pending bits with 1 bits to a byte, which is output with its stuffing, and leaves nothing pending;
with nothing pending nothing is appended; CAPACITY with the length needed if OB would pass 4096 bytes. It does not read
CFG.TILE_N. Nothing else changes. -/
def Obligations.BitsFlushOutcome : Prop :=
  ∀ s : State, s.bitAcc.toNat < 2 ^ s.bitCnt.toNat → ∃ out : List Byte,
    (s.bitCnt = 0 → out = []) ∧
    (s.bitCnt ≠ 0 → ∃ b : Byte, out = (if b = 0xFF#8 then [b, 0x00#8] else [b]) ∧
      bitsMsb b.toNat 8 = bitsMsb s.bitAcc.toNat s.bitCnt.toNat ++ List.replicate (8 - s.bitCnt.toNat) true) ∧
    (s.obLen.toNat + out.length ≤ 4096 → exec .bitsFlush s = .next
      { s with ob := Memory.writeBytes s.ob s.obLen.toNat out, obLen := BitVec.ofNat 13 (s.obLen.toNat + out.length),
               bitAcc := 0, bitCnt := 0, done := true, pending := none, draws := s.draws + 64 }) ∧
    (4096 < s.obLen.toNat + out.length → exec .bitsFlush s =
      .next (failed s (encode .bitsFlush) .capacity (s.obLen.toNat + out.length)))

/-- The bytes a packing command appends stand in OB from OB_LEN on, in order, and every other byte of OB reads as before
(R168). -/
def Obligations.AppendedBytesAndNoOthers : Prop :=
  ∀ (m : List Host.Cell) (first : Nat) (bytes : List Byte) (k : Nat),
    Memory.read (Memory.writeBytes m first bytes) k =
      if first ≤ k ∧ k < first + bytes.length then bytes[k - first]? else Memory.read m k

/-- R173, R239: one tile (HUFF_DC, then HUFF_AC of at most 63 symbols) appends at most 416 bytes, from every state of the stream
that can be reached. -/
def Obligations.TileAppendsAtMost416Bytes : Prop :=
  ∀ (src : BufIx) (diff : Bool) (s s1 s2 : State), StreamInv s → s.err = false → s.symcnt.toNat ≤ 63 →
    exec (.huffDc src diff) s = .next s1 → s1.err = false → exec .huffAc s1 = .next s2 → s2.err = false →
      s2.obLen.toNat ≤ s.obLen.toNat + 416

/-! ## Control commands (45_control.md) -/

/-- R185 to R187: NOP, OUT_CLEAR and STREAM_RESET complete in every state and write what their rules say, nothing else; after
STREAM_RESET the stream registers are as after reset. -/
def Obligations.ControlCommandsComplete : Prop :=
  ∀ s : State,
    exec .nop s = .next { s with done := true, pending := none, draws := s.draws + 64 } ∧
    exec .outClear s = .next { s with obLen := 0, done := true, pending := none, draws := s.draws + 64 } ∧
    exec .streamReset s = .next
      { s with obLen := State.reset.obLen, bitAcc := State.reset.bitAcc, bitCnt := State.reset.bitCnt,
               prevDc := State.reset.prevDc, done := true, pending := none, draws := s.draws + 64 } ∧
    State.reset.obLen = 0 ∧ State.reset.bitAcc = 0 ∧ State.reset.bitCnt = 0 ∧ State.reset.prevDc = 0

/-! ## Invariants of every step -/

/-- Every step keeps the stream state as R26 to R28 give it: OB in canonical form and within 4096 bytes, OB_LEN at most 4096 with
every byte below it written, and no bit in BIT_ACC at or above BIT_CNT. -/
def Obligations.EveryStepKeepsTheStreamState : Prop :=
  ∀ s t : State, StreamInv s → step s = .next t → StreamInv t

/-- R168 as an invariant: in every step, every 0xFF byte of the stream stays followed by a stuffed 0x00. -/
def Obligations.EveryStepKeepsTheStuffing : Prop :=
  ∀ s t : State, StreamInv s → StuffedInv s → step s = .next t → StuffedInv t

/-- R40, R41, R202, R212 as an invariant: a pending command is the last accepted one, none is pending while ERR is 1 or reset is
asserted, and ERR = 1 has an error's code recorded. -/
def Obligations.EveryStepKeepsTheCommandRegisters : Prop :=
  ∀ s t : State, CommandInv s → step s = .next t → CommandInv t

/-- The three invariants hold after reset. -/
def Obligations.InvariantsHoldAtReset : Prop :=
  StreamInv State.reset ∧ StuffedInv State.reset ∧ CommandInv State.reset
end

