-- ==== Sys2Proof/Laws/Memory.lean ====
section
/-! SUPPORT. The output buffer's memory: read after write, and every operation keeps the canonical form. -/

namespace Sys2Proof.Machine

@[simp] theorem Memory.read_nil (k : Nat) : Memory.read [] k = none := rfl

theorem Memory.read_write (m : List Host.Cell) (k j : Nat) (v : Byte) :
    Memory.read (Memory.write m k v) j = if j = k then some v else Memory.read m j := by
  induction m with
  | nil => simp [Memory.write, Memory.read]
  | cons c m ih =>
    obtain ⟨a, b⟩ := c
    unfold Memory.write
    split
    · simp [Memory.read]
    · split
      · subst_vars
        by_cases h : j = a <;> simp [Memory.read, h]
      · simp only [Memory.read, ih]
        split <;> split <;> simp_all

@[simp] theorem Memory.read_write_same (m : List Host.Cell) (k : Nat) (v : Byte) :
    Memory.read (Memory.write m k v) k = some v := by simp [Memory.read_write]

theorem Memory.read_write_other (m : List Host.Cell) {k j : Nat} (v : Byte) (h : j ≠ k) :
    Memory.read (Memory.write m k v) j = Memory.read m j := by simp [Memory.read_write, h]

/-- Every listed index of a memory after a write is the written one or was listed before. -/
theorem Memory.mem_write {m : List Host.Cell} {k : Nat} {v : Byte} {c : Host.Cell} (h : c ∈ Memory.write m k v) :
    c.1 = k ∨ c ∈ m := by
  induction m with
  | nil => simp_all [Memory.write]
  | cons d m ih =>
    unfold Memory.write at h
    split at h
    · rcases List.mem_cons.1 h with h | h
      · simp [h]
      · exact .inr h
    · split at h
      · rcases List.mem_cons.1 h with h | h
        · simp [h]
        · exact .inr (List.mem_cons_of_mem _ h)
      · rcases List.mem_cons.1 h with h | h
        · simp [h]
        · exact (ih h).imp id (List.mem_cons_of_mem _)

/-- A write keeps the canonical form. -/
theorem Memory.wf_write {m : List Host.Cell} (k : Nat) (v : Byte) (h : Memory.wf m) : Memory.wf (Memory.write m k v) := by
  induction m with
  | nil => simp [Memory.write, Memory.wf]
  | cons c m ih =>
    obtain ⟨ha, hm⟩ := List.pairwise_cons.1 h
    unfold Memory.write
    split
    · rename_i hk
      refine List.pairwise_cons.2 ⟨?_, h⟩
      rintro d hd
      rcases List.mem_cons.1 hd with rfl | hd
      · exact hk
      · exact lt_trans hk (ha d hd)
    · split
      · subst_vars
        exact List.pairwise_cons.2 ⟨ha, hm⟩
      · refine List.pairwise_cons.2 ⟨fun d hd => ?_, ih hm⟩
        rcases Memory.mem_write hd with hd | hd
        · simp only [hd]; omega
        · exact ha d hd

/-- Writing bytes one after another keeps the canonical form. -/
theorem Memory.wf_writeBytes {m : List Host.Cell} (k : Nat) (bs : List Byte) (h : Memory.wf m) :
    Memory.wf (Memory.writeBytes m k bs) := by
  induction bs generalizing m k with
  | nil => exact h
  | cons b bs ih => exact ih (k + 1) (Memory.wf_write k b h)

end Sys2Proof.Machine
end

