-- ==== Sys2Proof/Laws/State.lean ====
section
/-! SUPPORT. What each operation over State does to each field: one lemma per field and operation. -/

namespace Sys2Proof.Machine

@[simp] theorem State.writeTile_tb (s : State) (b : BufIx) (t : Tile) : (s.writeTile b t).tb = s.tb.set b (Vector.ofFn fun i => some (t i)) := rfl
@[simp] theorem State.writeTile_sb (s : State) (b : BufIx) (t : Tile) : (s.writeTile b t).sb = s.sb := rfl
@[simp] theorem State.writeTile_symcnt (s : State) (b : BufIx) (t : Tile) : (s.writeTile b t).symcnt = s.symcnt := rfl
@[simp] theorem State.writeTile_ob (s : State) (b : BufIx) (t : Tile) : (s.writeTile b t).ob = s.ob := rfl
@[simp] theorem State.writeTile_obLen (s : State) (b : BufIx) (t : Tile) : (s.writeTile b t).obLen = s.obLen := rfl
@[simp] theorem State.writeTile_bitAcc (s : State) (b : BufIx) (t : Tile) : (s.writeTile b t).bitAcc = s.bitAcc := rfl
@[simp] theorem State.writeTile_bitCnt (s : State) (b : BufIx) (t : Tile) : (s.writeTile b t).bitCnt = s.bitCnt := rfl
@[simp] theorem State.writeTile_prevDc (s : State) (b : BufIx) (t : Tile) : (s.writeTile b t).prevDc = s.prevDc := rfl
@[simp] theorem State.writeTile_ieDone (s : State) (b : BufIx) (t : Tile) : (s.writeTile b t).ieDone = s.ieDone := rfl
@[simp] theorem State.writeTile_ieErr (s : State) (b : BufIx) (t : Tile) : (s.writeTile b t).ieErr = s.ieErr := rfl
@[simp] theorem State.writeTile_done (s : State) (b : BufIx) (t : Tile) : (s.writeTile b t).done = s.done := rfl
@[simp] theorem State.writeTile_err (s : State) (b : BufIx) (t : Tile) : (s.writeTile b t).err = s.err := rfl
@[simp] theorem State.writeTile_ovf (s : State) (b : BufIx) (t : Tile) : (s.writeTile b t).ovf = s.ovf := rfl
@[simp] theorem State.writeTile_haz (s : State) (b : BufIx) (t : Tile) : (s.writeTile b t).haz = s.haz := rfl
@[simp] theorem State.writeTile_lastcmd (s : State) (b : BufIx) (t : Tile) : (s.writeTile b t).lastcmd = s.lastcmd := rfl
@[simp] theorem State.writeTile_pending (s : State) (b : BufIx) (t : Tile) : (s.writeTile b t).pending = s.pending := rfl
@[simp] theorem State.writeTile_errCode (s : State) (b : BufIx) (t : Tile) : (s.writeTile b t).errCode = s.errCode := rfl
@[simp] theorem State.writeTile_errInfo (s : State) (b : BufIx) (t : Tile) : (s.writeTile b t).errInfo = s.errInfo := rfl
@[simp] theorem State.writeTile_errAux (s : State) (b : BufIx) (t : Tile) : (s.writeTile b t).errAux = s.errAux := rfl
@[simp] theorem State.writeTile_tileN (s : State) (b : BufIx) (t : Tile) : (s.writeTile b t).tileN = s.tileN := rfl
@[simp] theorem State.writeTile_resetLine (s : State) (b : BufIx) (t : Tile) : (s.writeTile b t).resetLine = s.resetLine := rfl
@[simp] theorem State.writeTile_inputs (s : State) (b : BufIx) (t : Tile) : (s.writeTile b t).inputs = s.inputs := rfl
@[simp] theorem State.writeTile_readData (s : State) (b : BufIx) (t : Tile) : (s.writeTile b t).readData = s.readData := rfl
@[simp] theorem State.writeTile_draws (s : State) (b : BufIx) (t : Tile) : (s.writeTile b t).draws = s.draws := rfl

@[simp] theorem State.writeTileAc_tb (s : State) (b : BufIx) (t : Tile) : (s.writeTileAc b t).tb = s.tb.set b (Vector.ofFn fun i => if i = 0 then s.tb[b][i] else some (t i)) := rfl
@[simp] theorem State.writeTileAc_sb (s : State) (b : BufIx) (t : Tile) : (s.writeTileAc b t).sb = s.sb := rfl
@[simp] theorem State.writeTileAc_symcnt (s : State) (b : BufIx) (t : Tile) : (s.writeTileAc b t).symcnt = s.symcnt := rfl
@[simp] theorem State.writeTileAc_ob (s : State) (b : BufIx) (t : Tile) : (s.writeTileAc b t).ob = s.ob := rfl
@[simp] theorem State.writeTileAc_obLen (s : State) (b : BufIx) (t : Tile) : (s.writeTileAc b t).obLen = s.obLen := rfl
@[simp] theorem State.writeTileAc_bitAcc (s : State) (b : BufIx) (t : Tile) : (s.writeTileAc b t).bitAcc = s.bitAcc := rfl
@[simp] theorem State.writeTileAc_bitCnt (s : State) (b : BufIx) (t : Tile) : (s.writeTileAc b t).bitCnt = s.bitCnt := rfl
@[simp] theorem State.writeTileAc_prevDc (s : State) (b : BufIx) (t : Tile) : (s.writeTileAc b t).prevDc = s.prevDc := rfl
@[simp] theorem State.writeTileAc_ieDone (s : State) (b : BufIx) (t : Tile) : (s.writeTileAc b t).ieDone = s.ieDone := rfl
@[simp] theorem State.writeTileAc_ieErr (s : State) (b : BufIx) (t : Tile) : (s.writeTileAc b t).ieErr = s.ieErr := rfl
@[simp] theorem State.writeTileAc_done (s : State) (b : BufIx) (t : Tile) : (s.writeTileAc b t).done = s.done := rfl
@[simp] theorem State.writeTileAc_err (s : State) (b : BufIx) (t : Tile) : (s.writeTileAc b t).err = s.err := rfl
@[simp] theorem State.writeTileAc_ovf (s : State) (b : BufIx) (t : Tile) : (s.writeTileAc b t).ovf = s.ovf := rfl
@[simp] theorem State.writeTileAc_haz (s : State) (b : BufIx) (t : Tile) : (s.writeTileAc b t).haz = s.haz := rfl
@[simp] theorem State.writeTileAc_lastcmd (s : State) (b : BufIx) (t : Tile) : (s.writeTileAc b t).lastcmd = s.lastcmd := rfl
@[simp] theorem State.writeTileAc_pending (s : State) (b : BufIx) (t : Tile) : (s.writeTileAc b t).pending = s.pending := rfl
@[simp] theorem State.writeTileAc_errCode (s : State) (b : BufIx) (t : Tile) : (s.writeTileAc b t).errCode = s.errCode := rfl
@[simp] theorem State.writeTileAc_errInfo (s : State) (b : BufIx) (t : Tile) : (s.writeTileAc b t).errInfo = s.errInfo := rfl
@[simp] theorem State.writeTileAc_errAux (s : State) (b : BufIx) (t : Tile) : (s.writeTileAc b t).errAux = s.errAux := rfl
@[simp] theorem State.writeTileAc_tileN (s : State) (b : BufIx) (t : Tile) : (s.writeTileAc b t).tileN = s.tileN := rfl
@[simp] theorem State.writeTileAc_resetLine (s : State) (b : BufIx) (t : Tile) : (s.writeTileAc b t).resetLine = s.resetLine := rfl
@[simp] theorem State.writeTileAc_inputs (s : State) (b : BufIx) (t : Tile) : (s.writeTileAc b t).inputs = s.inputs := rfl
@[simp] theorem State.writeTileAc_readData (s : State) (b : BufIx) (t : Tile) : (s.writeTileAc b t).readData = s.readData := rfl
@[simp] theorem State.writeTileAc_draws (s : State) (b : BufIx) (t : Tile) : (s.writeTileAc b t).draws = s.draws := rfl

@[simp] theorem State.writeTileWord_tb (s : State) (b : BufIx) (i : Fin 64) (w : Word) : (s.writeTileWord b i w).tb = s.tb.set b (s.tb[b].set i (some w)) := rfl
@[simp] theorem State.writeTileWord_sb (s : State) (b : BufIx) (i : Fin 64) (w : Word) : (s.writeTileWord b i w).sb = s.sb := rfl
@[simp] theorem State.writeTileWord_symcnt (s : State) (b : BufIx) (i : Fin 64) (w : Word) : (s.writeTileWord b i w).symcnt = s.symcnt := rfl
@[simp] theorem State.writeTileWord_ob (s : State) (b : BufIx) (i : Fin 64) (w : Word) : (s.writeTileWord b i w).ob = s.ob := rfl
@[simp] theorem State.writeTileWord_obLen (s : State) (b : BufIx) (i : Fin 64) (w : Word) : (s.writeTileWord b i w).obLen = s.obLen := rfl
@[simp] theorem State.writeTileWord_bitAcc (s : State) (b : BufIx) (i : Fin 64) (w : Word) : (s.writeTileWord b i w).bitAcc = s.bitAcc := rfl
@[simp] theorem State.writeTileWord_bitCnt (s : State) (b : BufIx) (i : Fin 64) (w : Word) : (s.writeTileWord b i w).bitCnt = s.bitCnt := rfl
@[simp] theorem State.writeTileWord_prevDc (s : State) (b : BufIx) (i : Fin 64) (w : Word) : (s.writeTileWord b i w).prevDc = s.prevDc := rfl
@[simp] theorem State.writeTileWord_ieDone (s : State) (b : BufIx) (i : Fin 64) (w : Word) : (s.writeTileWord b i w).ieDone = s.ieDone := rfl
@[simp] theorem State.writeTileWord_ieErr (s : State) (b : BufIx) (i : Fin 64) (w : Word) : (s.writeTileWord b i w).ieErr = s.ieErr := rfl
@[simp] theorem State.writeTileWord_done (s : State) (b : BufIx) (i : Fin 64) (w : Word) : (s.writeTileWord b i w).done = s.done := rfl
@[simp] theorem State.writeTileWord_err (s : State) (b : BufIx) (i : Fin 64) (w : Word) : (s.writeTileWord b i w).err = s.err := rfl
@[simp] theorem State.writeTileWord_ovf (s : State) (b : BufIx) (i : Fin 64) (w : Word) : (s.writeTileWord b i w).ovf = s.ovf := rfl
@[simp] theorem State.writeTileWord_haz (s : State) (b : BufIx) (i : Fin 64) (w : Word) : (s.writeTileWord b i w).haz = s.haz := rfl
@[simp] theorem State.writeTileWord_lastcmd (s : State) (b : BufIx) (i : Fin 64) (w : Word) : (s.writeTileWord b i w).lastcmd = s.lastcmd := rfl
@[simp] theorem State.writeTileWord_pending (s : State) (b : BufIx) (i : Fin 64) (w : Word) : (s.writeTileWord b i w).pending = s.pending := rfl
@[simp] theorem State.writeTileWord_errCode (s : State) (b : BufIx) (i : Fin 64) (w : Word) : (s.writeTileWord b i w).errCode = s.errCode := rfl
@[simp] theorem State.writeTileWord_errInfo (s : State) (b : BufIx) (i : Fin 64) (w : Word) : (s.writeTileWord b i w).errInfo = s.errInfo := rfl
@[simp] theorem State.writeTileWord_errAux (s : State) (b : BufIx) (i : Fin 64) (w : Word) : (s.writeTileWord b i w).errAux = s.errAux := rfl
@[simp] theorem State.writeTileWord_tileN (s : State) (b : BufIx) (i : Fin 64) (w : Word) : (s.writeTileWord b i w).tileN = s.tileN := rfl
@[simp] theorem State.writeTileWord_resetLine (s : State) (b : BufIx) (i : Fin 64) (w : Word) : (s.writeTileWord b i w).resetLine = s.resetLine := rfl
@[simp] theorem State.writeTileWord_inputs (s : State) (b : BufIx) (i : Fin 64) (w : Word) : (s.writeTileWord b i w).inputs = s.inputs := rfl
@[simp] theorem State.writeTileWord_readData (s : State) (b : BufIx) (i : Fin 64) (w : Word) : (s.writeTileWord b i w).readData = s.readData := rfl
@[simp] theorem State.writeTileWord_draws (s : State) (b : BufIx) (i : Fin 64) (w : Word) : (s.writeTileWord b i w).draws = s.draws := rfl

@[simp] theorem State.writeSymbol_tb (s : State) (j : Fin 64) (w : Word) : (s.writeSymbol j w).tb = s.tb := rfl
@[simp] theorem State.writeSymbol_sb (s : State) (j : Fin 64) (w : Word) : (s.writeSymbol j w).sb = s.sb.set j (some w) := rfl
@[simp] theorem State.writeSymbol_symcnt (s : State) (j : Fin 64) (w : Word) : (s.writeSymbol j w).symcnt = s.symcnt := rfl
@[simp] theorem State.writeSymbol_ob (s : State) (j : Fin 64) (w : Word) : (s.writeSymbol j w).ob = s.ob := rfl
@[simp] theorem State.writeSymbol_obLen (s : State) (j : Fin 64) (w : Word) : (s.writeSymbol j w).obLen = s.obLen := rfl
@[simp] theorem State.writeSymbol_bitAcc (s : State) (j : Fin 64) (w : Word) : (s.writeSymbol j w).bitAcc = s.bitAcc := rfl
@[simp] theorem State.writeSymbol_bitCnt (s : State) (j : Fin 64) (w : Word) : (s.writeSymbol j w).bitCnt = s.bitCnt := rfl
@[simp] theorem State.writeSymbol_prevDc (s : State) (j : Fin 64) (w : Word) : (s.writeSymbol j w).prevDc = s.prevDc := rfl
@[simp] theorem State.writeSymbol_ieDone (s : State) (j : Fin 64) (w : Word) : (s.writeSymbol j w).ieDone = s.ieDone := rfl
@[simp] theorem State.writeSymbol_ieErr (s : State) (j : Fin 64) (w : Word) : (s.writeSymbol j w).ieErr = s.ieErr := rfl
@[simp] theorem State.writeSymbol_done (s : State) (j : Fin 64) (w : Word) : (s.writeSymbol j w).done = s.done := rfl
@[simp] theorem State.writeSymbol_err (s : State) (j : Fin 64) (w : Word) : (s.writeSymbol j w).err = s.err := rfl
@[simp] theorem State.writeSymbol_ovf (s : State) (j : Fin 64) (w : Word) : (s.writeSymbol j w).ovf = s.ovf := rfl
@[simp] theorem State.writeSymbol_haz (s : State) (j : Fin 64) (w : Word) : (s.writeSymbol j w).haz = s.haz := rfl
@[simp] theorem State.writeSymbol_lastcmd (s : State) (j : Fin 64) (w : Word) : (s.writeSymbol j w).lastcmd = s.lastcmd := rfl
@[simp] theorem State.writeSymbol_pending (s : State) (j : Fin 64) (w : Word) : (s.writeSymbol j w).pending = s.pending := rfl
@[simp] theorem State.writeSymbol_errCode (s : State) (j : Fin 64) (w : Word) : (s.writeSymbol j w).errCode = s.errCode := rfl
@[simp] theorem State.writeSymbol_errInfo (s : State) (j : Fin 64) (w : Word) : (s.writeSymbol j w).errInfo = s.errInfo := rfl
@[simp] theorem State.writeSymbol_errAux (s : State) (j : Fin 64) (w : Word) : (s.writeSymbol j w).errAux = s.errAux := rfl
@[simp] theorem State.writeSymbol_tileN (s : State) (j : Fin 64) (w : Word) : (s.writeSymbol j w).tileN = s.tileN := rfl
@[simp] theorem State.writeSymbol_resetLine (s : State) (j : Fin 64) (w : Word) : (s.writeSymbol j w).resetLine = s.resetLine := rfl
@[simp] theorem State.writeSymbol_inputs (s : State) (j : Fin 64) (w : Word) : (s.writeSymbol j w).inputs = s.inputs := rfl
@[simp] theorem State.writeSymbol_readData (s : State) (j : Fin 64) (w : Word) : (s.writeSymbol j w).readData = s.readData := rfl
@[simp] theorem State.writeSymbol_draws (s : State) (j : Fin 64) (w : Word) : (s.writeSymbol j w).draws = s.draws := rfl

@[simp] theorem State.writeSymbols_tb (s : State) (syms : List Word) : (s.writeSymbols syms).tb = s.tb := rfl
@[simp] theorem State.writeSymbols_sb (s : State) (syms : List Word) : (s.writeSymbols syms).sb = storeSymbols s.sb 0 syms := rfl
@[simp] theorem State.writeSymbols_symcnt (s : State) (syms : List Word) : (s.writeSymbols syms).symcnt = s.symcnt := rfl
@[simp] theorem State.writeSymbols_ob (s : State) (syms : List Word) : (s.writeSymbols syms).ob = s.ob := rfl
@[simp] theorem State.writeSymbols_obLen (s : State) (syms : List Word) : (s.writeSymbols syms).obLen = s.obLen := rfl
@[simp] theorem State.writeSymbols_bitAcc (s : State) (syms : List Word) : (s.writeSymbols syms).bitAcc = s.bitAcc := rfl
@[simp] theorem State.writeSymbols_bitCnt (s : State) (syms : List Word) : (s.writeSymbols syms).bitCnt = s.bitCnt := rfl
@[simp] theorem State.writeSymbols_prevDc (s : State) (syms : List Word) : (s.writeSymbols syms).prevDc = s.prevDc := rfl
@[simp] theorem State.writeSymbols_ieDone (s : State) (syms : List Word) : (s.writeSymbols syms).ieDone = s.ieDone := rfl
@[simp] theorem State.writeSymbols_ieErr (s : State) (syms : List Word) : (s.writeSymbols syms).ieErr = s.ieErr := rfl
@[simp] theorem State.writeSymbols_done (s : State) (syms : List Word) : (s.writeSymbols syms).done = s.done := rfl
@[simp] theorem State.writeSymbols_err (s : State) (syms : List Word) : (s.writeSymbols syms).err = s.err := rfl
@[simp] theorem State.writeSymbols_ovf (s : State) (syms : List Word) : (s.writeSymbols syms).ovf = s.ovf := rfl
@[simp] theorem State.writeSymbols_haz (s : State) (syms : List Word) : (s.writeSymbols syms).haz = s.haz := rfl
@[simp] theorem State.writeSymbols_lastcmd (s : State) (syms : List Word) : (s.writeSymbols syms).lastcmd = s.lastcmd := rfl
@[simp] theorem State.writeSymbols_pending (s : State) (syms : List Word) : (s.writeSymbols syms).pending = s.pending := rfl
@[simp] theorem State.writeSymbols_errCode (s : State) (syms : List Word) : (s.writeSymbols syms).errCode = s.errCode := rfl
@[simp] theorem State.writeSymbols_errInfo (s : State) (syms : List Word) : (s.writeSymbols syms).errInfo = s.errInfo := rfl
@[simp] theorem State.writeSymbols_errAux (s : State) (syms : List Word) : (s.writeSymbols syms).errAux = s.errAux := rfl
@[simp] theorem State.writeSymbols_tileN (s : State) (syms : List Word) : (s.writeSymbols syms).tileN = s.tileN := rfl
@[simp] theorem State.writeSymbols_resetLine (s : State) (syms : List Word) : (s.writeSymbols syms).resetLine = s.resetLine := rfl
@[simp] theorem State.writeSymbols_inputs (s : State) (syms : List Word) : (s.writeSymbols syms).inputs = s.inputs := rfl
@[simp] theorem State.writeSymbols_readData (s : State) (syms : List Word) : (s.writeSymbols syms).readData = s.readData := rfl
@[simp] theorem State.writeSymbols_draws (s : State) (syms : List Word) : (s.writeSymbols syms).draws = s.draws := rfl

@[simp] theorem State.setOvf_tb (s : State) (sat : Bool) : (s.setOvf sat).tb = s.tb := rfl
@[simp] theorem State.setOvf_sb (s : State) (sat : Bool) : (s.setOvf sat).sb = s.sb := rfl
@[simp] theorem State.setOvf_symcnt (s : State) (sat : Bool) : (s.setOvf sat).symcnt = s.symcnt := rfl
@[simp] theorem State.setOvf_ob (s : State) (sat : Bool) : (s.setOvf sat).ob = s.ob := rfl
@[simp] theorem State.setOvf_obLen (s : State) (sat : Bool) : (s.setOvf sat).obLen = s.obLen := rfl
@[simp] theorem State.setOvf_bitAcc (s : State) (sat : Bool) : (s.setOvf sat).bitAcc = s.bitAcc := rfl
@[simp] theorem State.setOvf_bitCnt (s : State) (sat : Bool) : (s.setOvf sat).bitCnt = s.bitCnt := rfl
@[simp] theorem State.setOvf_prevDc (s : State) (sat : Bool) : (s.setOvf sat).prevDc = s.prevDc := rfl
@[simp] theorem State.setOvf_ieDone (s : State) (sat : Bool) : (s.setOvf sat).ieDone = s.ieDone := rfl
@[simp] theorem State.setOvf_ieErr (s : State) (sat : Bool) : (s.setOvf sat).ieErr = s.ieErr := rfl
@[simp] theorem State.setOvf_done (s : State) (sat : Bool) : (s.setOvf sat).done = s.done := rfl
@[simp] theorem State.setOvf_err (s : State) (sat : Bool) : (s.setOvf sat).err = s.err := rfl
@[simp] theorem State.setOvf_ovf (s : State) (sat : Bool) : (s.setOvf sat).ovf = (s.ovf || sat) := rfl
@[simp] theorem State.setOvf_haz (s : State) (sat : Bool) : (s.setOvf sat).haz = s.haz := rfl
@[simp] theorem State.setOvf_lastcmd (s : State) (sat : Bool) : (s.setOvf sat).lastcmd = s.lastcmd := rfl
@[simp] theorem State.setOvf_pending (s : State) (sat : Bool) : (s.setOvf sat).pending = s.pending := rfl
@[simp] theorem State.setOvf_errCode (s : State) (sat : Bool) : (s.setOvf sat).errCode = s.errCode := rfl
@[simp] theorem State.setOvf_errInfo (s : State) (sat : Bool) : (s.setOvf sat).errInfo = s.errInfo := rfl
@[simp] theorem State.setOvf_errAux (s : State) (sat : Bool) : (s.setOvf sat).errAux = s.errAux := rfl
@[simp] theorem State.setOvf_tileN (s : State) (sat : Bool) : (s.setOvf sat).tileN = s.tileN := rfl
@[simp] theorem State.setOvf_resetLine (s : State) (sat : Bool) : (s.setOvf sat).resetLine = s.resetLine := rfl
@[simp] theorem State.setOvf_inputs (s : State) (sat : Bool) : (s.setOvf sat).inputs = s.inputs := rfl
@[simp] theorem State.setOvf_readData (s : State) (sat : Bool) : (s.setOvf sat).readData = s.readData := rfl
@[simp] theorem State.setOvf_draws (s : State) (sat : Bool) : (s.setOvf sat).draws = s.draws := rfl

@[simp] theorem State.hazard_tb (s : State) : (s.hazard).tb = s.tb := rfl
@[simp] theorem State.hazard_sb (s : State) : (s.hazard).sb = s.sb := rfl
@[simp] theorem State.hazard_symcnt (s : State) : (s.hazard).symcnt = s.symcnt := rfl
@[simp] theorem State.hazard_ob (s : State) : (s.hazard).ob = s.ob := rfl
@[simp] theorem State.hazard_obLen (s : State) : (s.hazard).obLen = s.obLen := rfl
@[simp] theorem State.hazard_bitAcc (s : State) : (s.hazard).bitAcc = s.bitAcc := rfl
@[simp] theorem State.hazard_bitCnt (s : State) : (s.hazard).bitCnt = s.bitCnt := rfl
@[simp] theorem State.hazard_prevDc (s : State) : (s.hazard).prevDc = s.prevDc := rfl
@[simp] theorem State.hazard_ieDone (s : State) : (s.hazard).ieDone = s.ieDone := rfl
@[simp] theorem State.hazard_ieErr (s : State) : (s.hazard).ieErr = s.ieErr := rfl
@[simp] theorem State.hazard_done (s : State) : (s.hazard).done = s.done := rfl
@[simp] theorem State.hazard_err (s : State) : (s.hazard).err = s.err := rfl
@[simp] theorem State.hazard_ovf (s : State) : (s.hazard).ovf = s.ovf := rfl
@[simp] theorem State.hazard_haz (s : State) : (s.hazard).haz = true := rfl
@[simp] theorem State.hazard_lastcmd (s : State) : (s.hazard).lastcmd = s.lastcmd := rfl
@[simp] theorem State.hazard_pending (s : State) : (s.hazard).pending = s.pending := rfl
@[simp] theorem State.hazard_errCode (s : State) : (s.hazard).errCode = s.errCode := rfl
@[simp] theorem State.hazard_errInfo (s : State) : (s.hazard).errInfo = s.errInfo := rfl
@[simp] theorem State.hazard_errAux (s : State) : (s.hazard).errAux = s.errAux := rfl
@[simp] theorem State.hazard_tileN (s : State) : (s.hazard).tileN = s.tileN := rfl
@[simp] theorem State.hazard_resetLine (s : State) : (s.hazard).resetLine = s.resetLine := rfl
@[simp] theorem State.hazard_inputs (s : State) : (s.hazard).inputs = s.inputs := rfl
@[simp] theorem State.hazard_readData (s : State) : (s.hazard).readData = s.readData := rfl
@[simp] theorem State.hazard_draws (s : State) : (s.hazard).draws = s.draws := rfl

@[simp] theorem State.useDraws_tb (s : State) : (s.useDraws).tb = s.tb := rfl
@[simp] theorem State.useDraws_sb (s : State) : (s.useDraws).sb = s.sb := rfl
@[simp] theorem State.useDraws_symcnt (s : State) : (s.useDraws).symcnt = s.symcnt := rfl
@[simp] theorem State.useDraws_ob (s : State) : (s.useDraws).ob = s.ob := rfl
@[simp] theorem State.useDraws_obLen (s : State) : (s.useDraws).obLen = s.obLen := rfl
@[simp] theorem State.useDraws_bitAcc (s : State) : (s.useDraws).bitAcc = s.bitAcc := rfl
@[simp] theorem State.useDraws_bitCnt (s : State) : (s.useDraws).bitCnt = s.bitCnt := rfl
@[simp] theorem State.useDraws_prevDc (s : State) : (s.useDraws).prevDc = s.prevDc := rfl
@[simp] theorem State.useDraws_ieDone (s : State) : (s.useDraws).ieDone = s.ieDone := rfl
@[simp] theorem State.useDraws_ieErr (s : State) : (s.useDraws).ieErr = s.ieErr := rfl
@[simp] theorem State.useDraws_done (s : State) : (s.useDraws).done = s.done := rfl
@[simp] theorem State.useDraws_err (s : State) : (s.useDraws).err = s.err := rfl
@[simp] theorem State.useDraws_ovf (s : State) : (s.useDraws).ovf = s.ovf := rfl
@[simp] theorem State.useDraws_haz (s : State) : (s.useDraws).haz = s.haz := rfl
@[simp] theorem State.useDraws_lastcmd (s : State) : (s.useDraws).lastcmd = s.lastcmd := rfl
@[simp] theorem State.useDraws_pending (s : State) : (s.useDraws).pending = s.pending := rfl
@[simp] theorem State.useDraws_errCode (s : State) : (s.useDraws).errCode = s.errCode := rfl
@[simp] theorem State.useDraws_errInfo (s : State) : (s.useDraws).errInfo = s.errInfo := rfl
@[simp] theorem State.useDraws_errAux (s : State) : (s.useDraws).errAux = s.errAux := rfl
@[simp] theorem State.useDraws_tileN (s : State) : (s.useDraws).tileN = s.tileN := rfl
@[simp] theorem State.useDraws_resetLine (s : State) : (s.useDraws).resetLine = s.resetLine := rfl
@[simp] theorem State.useDraws_inputs (s : State) : (s.useDraws).inputs = s.inputs := rfl
@[simp] theorem State.useDraws_readData (s : State) : (s.useDraws).readData = s.readData := rfl
@[simp] theorem State.useDraws_draws (s : State) : (s.useDraws).draws = s.draws + 64 := rfl

@[simp] theorem State.writeCtrl_tb (s : State) (w : Word) : (s.writeCtrl w).tb = s.tb := rfl
@[simp] theorem State.writeCtrl_sb (s : State) (w : Word) : (s.writeCtrl w).sb = s.sb := rfl
@[simp] theorem State.writeCtrl_symcnt (s : State) (w : Word) : (s.writeCtrl w).symcnt = s.symcnt := rfl
@[simp] theorem State.writeCtrl_ob (s : State) (w : Word) : (s.writeCtrl w).ob = s.ob := rfl
@[simp] theorem State.writeCtrl_obLen (s : State) (w : Word) : (s.writeCtrl w).obLen = s.obLen := rfl
@[simp] theorem State.writeCtrl_bitAcc (s : State) (w : Word) : (s.writeCtrl w).bitAcc = s.bitAcc := rfl
@[simp] theorem State.writeCtrl_bitCnt (s : State) (w : Word) : (s.writeCtrl w).bitCnt = s.bitCnt := rfl
@[simp] theorem State.writeCtrl_prevDc (s : State) (w : Word) : (s.writeCtrl w).prevDc = s.prevDc := rfl
@[simp] theorem State.writeCtrl_ieDone (s : State) (w : Word) : (s.writeCtrl w).ieDone = w.getLsbD 0 := rfl
@[simp] theorem State.writeCtrl_ieErr (s : State) (w : Word) : (s.writeCtrl w).ieErr = w.getLsbD 1 := rfl
@[simp] theorem State.writeCtrl_done (s : State) (w : Word) : (s.writeCtrl w).done = s.done := rfl
@[simp] theorem State.writeCtrl_err (s : State) (w : Word) : (s.writeCtrl w).err = s.err := rfl
@[simp] theorem State.writeCtrl_ovf (s : State) (w : Word) : (s.writeCtrl w).ovf = s.ovf := rfl
@[simp] theorem State.writeCtrl_haz (s : State) (w : Word) : (s.writeCtrl w).haz = s.haz := rfl
@[simp] theorem State.writeCtrl_lastcmd (s : State) (w : Word) : (s.writeCtrl w).lastcmd = s.lastcmd := rfl
@[simp] theorem State.writeCtrl_pending (s : State) (w : Word) : (s.writeCtrl w).pending = s.pending := rfl
@[simp] theorem State.writeCtrl_errCode (s : State) (w : Word) : (s.writeCtrl w).errCode = s.errCode := rfl
@[simp] theorem State.writeCtrl_errInfo (s : State) (w : Word) : (s.writeCtrl w).errInfo = s.errInfo := rfl
@[simp] theorem State.writeCtrl_errAux (s : State) (w : Word) : (s.writeCtrl w).errAux = s.errAux := rfl
@[simp] theorem State.writeCtrl_tileN (s : State) (w : Word) : (s.writeCtrl w).tileN = s.tileN := rfl
@[simp] theorem State.writeCtrl_resetLine (s : State) (w : Word) : (s.writeCtrl w).resetLine = s.resetLine := rfl
@[simp] theorem State.writeCtrl_inputs (s : State) (w : Word) : (s.writeCtrl w).inputs = s.inputs := rfl
@[simp] theorem State.writeCtrl_readData (s : State) (w : Word) : (s.writeCtrl w).readData = s.readData := rfl
@[simp] theorem State.writeCtrl_draws (s : State) (w : Word) : (s.writeCtrl w).draws = s.draws := rfl

@[simp] theorem State.writeStatus_tb (s : State) (w : Word) : (s.writeStatus w).tb = s.tb := by unfold State.writeStatus; cases h : w.getLsbD 2 <;> simp [returnFromError]
@[simp] theorem State.writeStatus_sb (s : State) (w : Word) : (s.writeStatus w).sb = s.sb := by unfold State.writeStatus; cases h : w.getLsbD 2 <;> simp [returnFromError]
@[simp] theorem State.writeStatus_symcnt (s : State) (w : Word) : (s.writeStatus w).symcnt = s.symcnt := by unfold State.writeStatus; cases h : w.getLsbD 2 <;> simp [returnFromError]
@[simp] theorem State.writeStatus_ob (s : State) (w : Word) : (s.writeStatus w).ob = s.ob := by unfold State.writeStatus; cases h : w.getLsbD 2 <;> simp [returnFromError]
@[simp] theorem State.writeStatus_obLen (s : State) (w : Word) : (s.writeStatus w).obLen = s.obLen := by unfold State.writeStatus; cases h : w.getLsbD 2 <;> simp [returnFromError]
@[simp] theorem State.writeStatus_bitAcc (s : State) (w : Word) : (s.writeStatus w).bitAcc = s.bitAcc := by unfold State.writeStatus; cases h : w.getLsbD 2 <;> simp [returnFromError]
@[simp] theorem State.writeStatus_bitCnt (s : State) (w : Word) : (s.writeStatus w).bitCnt = s.bitCnt := by unfold State.writeStatus; cases h : w.getLsbD 2 <;> simp [returnFromError]
@[simp] theorem State.writeStatus_prevDc (s : State) (w : Word) : (s.writeStatus w).prevDc = s.prevDc := by unfold State.writeStatus; cases h : w.getLsbD 2 <;> simp [returnFromError]
@[simp] theorem State.writeStatus_ieDone (s : State) (w : Word) : (s.writeStatus w).ieDone = s.ieDone := by unfold State.writeStatus; cases h : w.getLsbD 2 <;> simp [returnFromError]
@[simp] theorem State.writeStatus_ieErr (s : State) (w : Word) : (s.writeStatus w).ieErr = s.ieErr := by unfold State.writeStatus; cases h : w.getLsbD 2 <;> simp [returnFromError]
@[simp] theorem State.writeStatus_done (s : State) (w : Word) : (s.writeStatus w).done = (s.done && !w.getLsbD 1) := by unfold State.writeStatus; cases h : w.getLsbD 2 <;> simp [returnFromError]
@[simp] theorem State.writeStatus_err (s : State) (w : Word) : (s.writeStatus w).err = (s.err && !w.getLsbD 2) := by unfold State.writeStatus; cases h : w.getLsbD 2 <;> simp [returnFromError]
@[simp] theorem State.writeStatus_ovf (s : State) (w : Word) : (s.writeStatus w).ovf = (s.ovf && !w.getLsbD 3) := by unfold State.writeStatus; cases h : w.getLsbD 2 <;> simp [returnFromError]
@[simp] theorem State.writeStatus_haz (s : State) (w : Word) : (s.writeStatus w).haz = (s.haz && !w.getLsbD 4) := by unfold State.writeStatus; cases h : w.getLsbD 2 <;> simp [returnFromError]
@[simp] theorem State.writeStatus_lastcmd (s : State) (w : Word) : (s.writeStatus w).lastcmd = s.lastcmd := by unfold State.writeStatus; cases h : w.getLsbD 2 <;> simp [returnFromError]
@[simp] theorem State.writeStatus_pending (s : State) (w : Word) : (s.writeStatus w).pending = s.pending := by unfold State.writeStatus; cases h : w.getLsbD 2 <;> simp [returnFromError]
@[simp] theorem State.writeStatus_errCode (s : State) (w : Word) : (s.writeStatus w).errCode = s.errCode := by unfold State.writeStatus; cases h : w.getLsbD 2 <;> simp [returnFromError]
@[simp] theorem State.writeStatus_errInfo (s : State) (w : Word) : (s.writeStatus w).errInfo = s.errInfo := by unfold State.writeStatus; cases h : w.getLsbD 2 <;> simp [returnFromError]
@[simp] theorem State.writeStatus_errAux (s : State) (w : Word) : (s.writeStatus w).errAux = s.errAux := by unfold State.writeStatus; cases h : w.getLsbD 2 <;> simp [returnFromError]
@[simp] theorem State.writeStatus_tileN (s : State) (w : Word) : (s.writeStatus w).tileN = s.tileN := by unfold State.writeStatus; cases h : w.getLsbD 2 <;> simp [returnFromError]
@[simp] theorem State.writeStatus_resetLine (s : State) (w : Word) : (s.writeStatus w).resetLine = s.resetLine := by unfold State.writeStatus; cases h : w.getLsbD 2 <;> simp [returnFromError]
@[simp] theorem State.writeStatus_inputs (s : State) (w : Word) : (s.writeStatus w).inputs = s.inputs := by unfold State.writeStatus; cases h : w.getLsbD 2 <;> simp [returnFromError]
@[simp] theorem State.writeStatus_readData (s : State) (w : Word) : (s.writeStatus w).readData = s.readData := by unfold State.writeStatus; cases h : w.getLsbD 2 <;> simp [returnFromError]
@[simp] theorem State.writeStatus_draws (s : State) (w : Word) : (s.writeStatus w).draws = s.draws := by unfold State.writeStatus; cases h : w.getLsbD 2 <;> simp [returnFromError]

@[simp] theorem raiseError_tb (w : Word) (c : ErrCode) (aux : Nat) (s : State) : (raiseError w c aux s).tb = s.tb := rfl
@[simp] theorem raiseError_sb (w : Word) (c : ErrCode) (aux : Nat) (s : State) : (raiseError w c aux s).sb = s.sb := rfl
@[simp] theorem raiseError_symcnt (w : Word) (c : ErrCode) (aux : Nat) (s : State) : (raiseError w c aux s).symcnt = s.symcnt := rfl
@[simp] theorem raiseError_ob (w : Word) (c : ErrCode) (aux : Nat) (s : State) : (raiseError w c aux s).ob = s.ob := rfl
@[simp] theorem raiseError_obLen (w : Word) (c : ErrCode) (aux : Nat) (s : State) : (raiseError w c aux s).obLen = s.obLen := rfl
@[simp] theorem raiseError_bitAcc (w : Word) (c : ErrCode) (aux : Nat) (s : State) : (raiseError w c aux s).bitAcc = s.bitAcc := rfl
@[simp] theorem raiseError_bitCnt (w : Word) (c : ErrCode) (aux : Nat) (s : State) : (raiseError w c aux s).bitCnt = s.bitCnt := rfl
@[simp] theorem raiseError_prevDc (w : Word) (c : ErrCode) (aux : Nat) (s : State) : (raiseError w c aux s).prevDc = s.prevDc := rfl
@[simp] theorem raiseError_ieDone (w : Word) (c : ErrCode) (aux : Nat) (s : State) : (raiseError w c aux s).ieDone = s.ieDone := rfl
@[simp] theorem raiseError_ieErr (w : Word) (c : ErrCode) (aux : Nat) (s : State) : (raiseError w c aux s).ieErr = s.ieErr := rfl
@[simp] theorem raiseError_done (w : Word) (c : ErrCode) (aux : Nat) (s : State) : (raiseError w c aux s).done = s.done := rfl
@[simp] theorem raiseError_err (w : Word) (c : ErrCode) (aux : Nat) (s : State) : (raiseError w c aux s).err = true := rfl
@[simp] theorem raiseError_ovf (w : Word) (c : ErrCode) (aux : Nat) (s : State) : (raiseError w c aux s).ovf = s.ovf := rfl
@[simp] theorem raiseError_haz (w : Word) (c : ErrCode) (aux : Nat) (s : State) : (raiseError w c aux s).haz = s.haz := rfl
@[simp] theorem raiseError_lastcmd (w : Word) (c : ErrCode) (aux : Nat) (s : State) : (raiseError w c aux s).lastcmd = s.lastcmd := rfl
@[simp] theorem raiseError_pending (w : Word) (c : ErrCode) (aux : Nat) (s : State) : (raiseError w c aux s).pending = none := rfl
@[simp] theorem raiseError_errCode (w : Word) (c : ErrCode) (aux : Nat) (s : State) : (raiseError w c aux s).errCode = c := rfl
@[simp] theorem raiseError_errInfo (w : Word) (c : ErrCode) (aux : Nat) (s : State) : (raiseError w c aux s).errInfo = w := rfl
@[simp] theorem raiseError_errAux (w : Word) (c : ErrCode) (aux : Nat) (s : State) : (raiseError w c aux s).errAux = BitVec.ofNat 32 aux := rfl
@[simp] theorem raiseError_tileN (w : Word) (c : ErrCode) (aux : Nat) (s : State) : (raiseError w c aux s).tileN = s.tileN := rfl
@[simp] theorem raiseError_resetLine (w : Word) (c : ErrCode) (aux : Nat) (s : State) : (raiseError w c aux s).resetLine = s.resetLine := rfl
@[simp] theorem raiseError_inputs (w : Word) (c : ErrCode) (aux : Nat) (s : State) : (raiseError w c aux s).inputs = s.inputs := rfl
@[simp] theorem raiseError_readData (w : Word) (c : ErrCode) (aux : Nat) (s : State) : (raiseError w c aux s).readData = s.readData := rfl
@[simp] theorem raiseError_draws (w : Word) (c : ErrCode) (aux : Nat) (s : State) : (raiseError w c aux s).draws = s.draws := rfl

@[simp] theorem commitCommand_tb (s : State) : (commitCommand s).tb = s.tb := rfl
@[simp] theorem commitCommand_sb (s : State) : (commitCommand s).sb = s.sb := rfl
@[simp] theorem commitCommand_symcnt (s : State) : (commitCommand s).symcnt = s.symcnt := rfl
@[simp] theorem commitCommand_ob (s : State) : (commitCommand s).ob = s.ob := rfl
@[simp] theorem commitCommand_obLen (s : State) : (commitCommand s).obLen = s.obLen := rfl
@[simp] theorem commitCommand_bitAcc (s : State) : (commitCommand s).bitAcc = s.bitAcc := rfl
@[simp] theorem commitCommand_bitCnt (s : State) : (commitCommand s).bitCnt = s.bitCnt := rfl
@[simp] theorem commitCommand_prevDc (s : State) : (commitCommand s).prevDc = s.prevDc := rfl
@[simp] theorem commitCommand_ieDone (s : State) : (commitCommand s).ieDone = s.ieDone := rfl
@[simp] theorem commitCommand_ieErr (s : State) : (commitCommand s).ieErr = s.ieErr := rfl
@[simp] theorem commitCommand_done (s : State) : (commitCommand s).done = true := rfl
@[simp] theorem commitCommand_err (s : State) : (commitCommand s).err = s.err := rfl
@[simp] theorem commitCommand_ovf (s : State) : (commitCommand s).ovf = s.ovf := rfl
@[simp] theorem commitCommand_haz (s : State) : (commitCommand s).haz = s.haz := rfl
@[simp] theorem commitCommand_lastcmd (s : State) : (commitCommand s).lastcmd = s.lastcmd := rfl
@[simp] theorem commitCommand_pending (s : State) : (commitCommand s).pending = none := rfl
@[simp] theorem commitCommand_errCode (s : State) : (commitCommand s).errCode = s.errCode := rfl
@[simp] theorem commitCommand_errInfo (s : State) : (commitCommand s).errInfo = s.errInfo := rfl
@[simp] theorem commitCommand_errAux (s : State) : (commitCommand s).errAux = s.errAux := rfl
@[simp] theorem commitCommand_tileN (s : State) : (commitCommand s).tileN = s.tileN := rfl
@[simp] theorem commitCommand_resetLine (s : State) : (commitCommand s).resetLine = s.resetLine := rfl
@[simp] theorem commitCommand_inputs (s : State) : (commitCommand s).inputs = s.inputs := rfl
@[simp] theorem commitCommand_readData (s : State) : (commitCommand s).readData = s.readData := rfl
@[simp] theorem commitCommand_draws (s : State) : (commitCommand s).draws = s.draws := rfl

@[simp] theorem hostRead_tb (l : Location) (s : State) : (hostRead l s).tb = s.tb := rfl
@[simp] theorem hostRead_sb (l : Location) (s : State) : (hostRead l s).sb = s.sb := rfl
@[simp] theorem hostRead_symcnt (l : Location) (s : State) : (hostRead l s).symcnt = s.symcnt := rfl
@[simp] theorem hostRead_ob (l : Location) (s : State) : (hostRead l s).ob = s.ob := rfl
@[simp] theorem hostRead_obLen (l : Location) (s : State) : (hostRead l s).obLen = s.obLen := rfl
@[simp] theorem hostRead_bitAcc (l : Location) (s : State) : (hostRead l s).bitAcc = s.bitAcc := rfl
@[simp] theorem hostRead_bitCnt (l : Location) (s : State) : (hostRead l s).bitCnt = s.bitCnt := rfl
@[simp] theorem hostRead_prevDc (l : Location) (s : State) : (hostRead l s).prevDc = s.prevDc := rfl
@[simp] theorem hostRead_ieDone (l : Location) (s : State) : (hostRead l s).ieDone = s.ieDone := rfl
@[simp] theorem hostRead_ieErr (l : Location) (s : State) : (hostRead l s).ieErr = s.ieErr := rfl
@[simp] theorem hostRead_done (l : Location) (s : State) : (hostRead l s).done = s.done := rfl
@[simp] theorem hostRead_err (l : Location) (s : State) : (hostRead l s).err = s.err := rfl
@[simp] theorem hostRead_ovf (l : Location) (s : State) : (hostRead l s).ovf = s.ovf := rfl
@[simp] theorem hostRead_haz (l : Location) (s : State) : (hostRead l s).haz = s.haz := rfl
@[simp] theorem hostRead_lastcmd (l : Location) (s : State) : (hostRead l s).lastcmd = s.lastcmd := rfl
@[simp] theorem hostRead_pending (l : Location) (s : State) : (hostRead l s).pending = s.pending := rfl
@[simp] theorem hostRead_errCode (l : Location) (s : State) : (hostRead l s).errCode = s.errCode := rfl
@[simp] theorem hostRead_errInfo (l : Location) (s : State) : (hostRead l s).errInfo = s.errInfo := rfl
@[simp] theorem hostRead_errAux (l : Location) (s : State) : (hostRead l s).errAux = s.errAux := rfl
@[simp] theorem hostRead_tileN (l : Location) (s : State) : (hostRead l s).tileN = s.tileN := rfl
@[simp] theorem hostRead_resetLine (l : Location) (s : State) : (hostRead l s).resetLine = s.resetLine := rfl
@[simp] theorem hostRead_inputs (l : Location) (s : State) : (hostRead l s).inputs = s.inputs := rfl
@[simp] theorem hostRead_readData (l : Location) (s : State) : (hostRead l s).readData = some (s.readLocation l) := rfl
@[simp] theorem hostRead_draws (l : Location) (s : State) : (hostRead l s).draws = s.draws + 1 := rfl

end Sys2Proof.Machine
end

