-- ==== Sys2Proof/Laws/Ops.lean ====
section
/-! SUPPORT. The two ways a command ends, and what every command leaves alone. -/

namespace Sys2Proof.Machine

/-- A raised error leaves the failed state (R202). -/
theorem endCommand_raise (i : Instr) (s : State) (c : ErrCode) (aux : Nat) :
    endCommand i s (.raise c aux) = .next (failed s (encode i) c aux) := rfl

/-- A commit leaves the state its writes gave, DONE set and nothing pending (R202). -/
theorem endCommand_commit (i : Instr) (s t : State) :
    endCommand i s (.commit t) = .next (commitCommand t).useDraws := rfl

@[simp] theorem withTileN_eight {s : State} (h : s.tileN = 8) (e : Ending) : withTileN s e = e := by
  simp [withTileN, h]

@[simp] theorem withTileN_other {s : State} (h : s.tileN ≠ 8) (e : Ending) : withTileN s e = .raise .config 0 := by
  simp only [withTileN]
  exact if_neg h

/-- What a command may write: everything but the data buffers, the stream registers and OVF is as it was. -/
def DataOnly (s t : State) : Prop :=
  { t with tb := s.tb, sb := s.sb, symcnt := s.symcnt, ob := s.ob, obLen := s.obLen, bitAcc := s.bitAcc,
           bitCnt := s.bitCnt, prevDc := s.prevDc, ovf := s.ovf } = s

/-- The pseudocode of a command ended well formed: an error with a code, or a commit of data only. -/
def GoodEnding (s : State) (e : Ending) : Prop :=
  (∃ c aux, e = .raise c aux ∧ c ≠ .none) ∨ ∃ t, e = .commit t ∧ DataOnly s t

theorem GoodEnding.raise {s : State} {c : ErrCode} (aux : Nat) (h : c ≠ .none) : GoodEnding s (.raise c aux) :=
  .inl ⟨c, aux, rfl, h⟩

theorem GoodEnding.commit {s t : State} (h : DataOnly s t) : GoodEnding s (.commit t) := .inr ⟨t, rfl, h⟩

theorem GoodEnding.withTileN {s : State} {e : Ending} (h : GoodEnding s e) : GoodEnding s (withTileN s e) := by
  unfold Machine.withTileN
  split
  · exact h
  · exact .raise 0 (by decide)

theorem goodEnding_finishPacking {s t : State} (p : Packer) (h : DataOnly s t) :
    GoodEnding s (finishPacking s p t) := by
  unfold finishPacking
  dsimp only
  split
  · exact .raise _ (by decide)
  · exact .commit h

/-- Every command ends in one of the two ways, and writes data only (R202). -/
theorem exec_ends (i : Instr) (s : State) : ∃ e, exec i s = endCommand i s e ∧ GoodEnding s e := by
  cases i with
  | nop => exact ⟨_, rfl, .commit rfl⟩
  | fdct src dst => exact ⟨_, rfl, .withTileN (.commit rfl)⟩
  | idct src dst => exact ⟨_, rfl, .withTileN (.commit rfl)⟩
  | quant src dst q => exact ⟨_, rfl, .withTileN (.commit rfl)⟩
  | dequant src dst q => exact ⟨_, rfl, .withTileN (.commit rfl)⟩
  | zigzag src dst => exact ⟨_, rfl, .withTileN (.commit rfl)⟩
  | unzigzag src dst => exact ⟨_, rfl, .withTileN (.commit rfl)⟩
  | rleEnc src =>
    refine ⟨_, rfl, .withTileN ?_⟩
    split
    · exact .raise _ (by decide)
    · exact .commit rfl
  | rleDec dst =>
    refine ⟨_, rfl, .withTileN ?_⟩
    split
    · exact .raise _ (by decide)
    · exact .commit rfl
  | huffDc src diff =>
    refine ⟨_, rfl, .withTileN ?_⟩
    split
    · exact .raise _ (by decide)
    · exact goodEnding_finishPacking _ rfl
  | huffAc =>
    refine ⟨_, rfl, .withTileN ?_⟩
    split
    · exact .raise _ (by decide)
    · split
      · exact .raise _ (by decide)
      · exact goodEnding_finishPacking _ rfl
  | bitsFlush => exact ⟨_, rfl, goodEnding_finishPacking _ rfl⟩
  | outClear => exact ⟨_, rfl, .commit rfl⟩
  | streamReset => exact ⟨_, rfl, .commit rfl⟩

/-- Inversion of the engine's step: with nothing pending nothing happens; else the error state of R202, or data written, DONE
set and nothing pending. -/
theorem engineStep_cases {s t : State} (h : engineStep s = .next t) :
    (s.pending = none ∧ t = s) ∨
    (∃ w, s.pending = some w ∧
      ((∃ v c aux d, c ≠ .none ∧ t = { raiseError v c aux s with draws := d }) ∨
        ∃ i u, decode w = .ok i ∧ exec i s = .next t ∧ DataOnly s u ∧ t = (commitCommand u).useDraws)) := by
  unfold engineStep at h
  cases hp : s.pending with
  | none => simp only [hp] at h; cases h; exact .inl ⟨rfl, rfl⟩
  | some w =>
    refine .inr ⟨w, rfl, ?_⟩
    simp only [hp, execute] at h
    cases hd : decode w with
    | error e =>
      simp only [hd] at h
      cases h
      exact .inl ⟨w, .illegal, 0, s.draws, by decide, rfl⟩
    | ok i =>
      simp only [hd] at h
      obtain ⟨e, he, hg⟩ := exec_ends i s
      have ht : t = (outcome (encode i) s e).useDraws := by
        rw [he] at h; exact (Host.Outcome.next.inj h).symm
      rcases hg with ⟨c, aux, rfl, hc⟩ | ⟨u, rfl, hu⟩
      · exact .inl ⟨encode i, c, aux, s.draws + 64, hc, ht⟩
      · exact .inr ⟨i, u, rfl, h, hu, ht⟩

end Sys2Proof.Machine
end

