-- ==== Sys2Proof/Laws/Buffers.lean ====
section
/-! SUPPORT. The data buffers: what a read gives after a write, and what a command's snapshot holds. -/

namespace Sys2Proof.Machine

theorem writeTile_same (s : State) (b : BufIx) (t : Tile) (i : Fin 64) : (s.writeTile b t).tb[b][i] = some (t i) := by
  simp [State.writeTile]

theorem writeTile_other (s : State) {b b' : BufIx} (t : Tile) (h : b' ≠ b) : (s.writeTile b t).tb[b'] = s.tb[b'] := by
  have : b.val ≠ b'.val := fun e => h (Fin.ext e.symm)
  simp [State.writeTile, this]

theorem writeTileAc_same (s : State) (b : BufIx) (t : Tile) (i : Fin 64) :
    (s.writeTileAc b t).tb[b][i] = if i = 0 then s.tb[b][i] else some (t i) := by
  simp [State.writeTileAc]

theorem writeTileAc_other (s : State) {b b' : BufIx} (t : Tile) (h : b' ≠ b) :
    (s.writeTileAc b t).tb[b'] = s.tb[b'] := by
  have : b.val ≠ b'.val := fun e => h (Fin.ext e.symm)
  simp [State.writeTileAc, this]

theorem writeTileWord_same (s : State) (b : BufIx) (i : Fin 64) (w : Word) :
    (s.writeTileWord b i w).tb[b][i] = some w := by
  simp [State.writeTileWord]

/-- The snapshot of a buffer whose words have all been written holds what was written (R11). -/
theorem tile_of_written {s : State} {b : BufIx} {t : Tile} (h : ∀ i : Fin 64, s.tb[b][i] = some (t i)) :
    s.tile b = t := by
  funext i
  unfold State.tile readOrDraw
  rw [h i]
  rfl

/-- An entry of the snapshot of the symbol buffer that has been written is what was written (R11). -/
theorem symbol_of_written {s : State} {j : Fin 64} {w : Word} (h : s.sb[j] = some w) : s.symbol j = w := by
  unfold State.symbol readOrDraw
  rw [h]
  rfl

/-- What an entry of the symbol buffer holds after symbols have been stored from `first` on. -/
theorem storeSymbols_getElem (sb : Vector (Option Word) 64) (first : Nat) (syms : List Word) (j : Nat) (hj : j < 64) :
    (storeSymbols sb first syms)[j] = if h : first ≤ j ∧ j - first < syms.length then some syms[j - first] else sb[j] := by
  induction syms generalizing sb first with
  | nil => simp [storeSymbols]
  | cons w ws ih =>
    simp only [storeSymbols, ih, Vector.getElem_setIfInBounds, List.length_cons]
    by_cases h0 : first = j
    · subst h0
      simp
    · by_cases hle : first + 1 ≤ j
      · have h1 : j - first = (j - (first + 1)) + 1 := by omega
        by_cases hlen : j - (first + 1) < ws.length
        · rw [dif_pos ⟨hle, hlen⟩, dif_pos (by omega)]
          simp [h1]
        · rw [dif_neg (by omega), dif_neg (by omega), if_neg h0]
      · rw [dif_neg (by omega), dif_neg (by omega), if_neg h0]

/-- The symbols SB[0..n-1], for at most 64 of them. -/
theorem symbols_length (s : State) {n : Nat} (h : n ≤ 64) : (s.symbols n).length = n := by
  simp [State.symbols, h]

/-- OVF after a tile has been stored saturated (R105). -/
theorem storeSaturated_ovf (s : State) (dst : BufIx) (y : Fin 64 → Int) :
    (storeSaturated s dst y).ovf = (s.ovf || anyLane fun i => sat32 (y i) != y i) := rfl

/-- OVF after the lanes of a tile have been stored (R122, R124). -/
theorem storeLanes_ovf (s : State) (dst : BufIx) (lane : Fin 64 → Word × Bool) :
    (storeLanes s dst lane).ovf = (s.ovf || anyLane fun i => (lane i).2) := rfl

theorem anyLane_iff (sat : Fin 64 → Bool) : anyLane sat = true ↔ ∃ i, sat i = true := by simp [anyLane]

end Sys2Proof.Machine
end

