-- ==== Sys2Proof/Laws/Host.lean ====
section
/-! SUPPORT. The host port: what a step with a host access at the head of the list does, once and for all. -/

namespace Sys2Proof.Machine

/-- An address inside the window has its offset (R61). -/
@[simp] theorem windowOffset_inside {off : Nat} (h : off < 0x8000) : windowOffset (Config.coreBase + off) = some off := by
  simp [windowOffset, h]

/-- An address outside the window has none (R61). -/
theorem windowOffset_outside {addr : Nat} (h : addr < Config.coreBase ∨ Config.coreBase + 0x8000 ≤ addr) :
    windowOffset addr = none := by
  unfold windowOffset
  split
  · omega
  · rfl

/-- Every address with an offset is CORE_BASE plus that offset (R61). -/
theorem windowOffset_eq_some {addr off : Nat} (h : windowOffset addr = some off) :
    addr = Config.coreBase + off ∧ off < 0x8000 := by
  unfold windowOffset at h
  split at h
  · simp only [Option.some.injEq] at h
    omega
  · cases h

/-- What a host access does, case by case: unseen, refused, not accepted, or carried out at its location. -/
theorem hostAccess_cases {addr bytes : Nat} {access : Location → State → State} {missed : State → State} {s t : State}
    (h : hostAccess addr bytes access missed s = .next t) :
    t = missed s ∨ ∃ off, addr = Config.coreBase + off ∧ off < 0x8000 ∧ off % 4 = 0 ∧ bytes = 4 ∧
      s.resetLine = false ∧ t = access (locate off) s := by
  unfold hostAccess at h
  cases hw : windowOffset addr with
  | none => simp only [hw] at h; cases h; exact .inl rfl
  | some off =>
    simp only [hw] at h
    obtain ⟨ha, ho⟩ := windowOffset_eq_some hw
    split at h
    · cases h
    · rename_i hb
      split at h
      · cases h; exact .inl rfl
      · rename_i hr
        cases h
        exact .inr ⟨off, ha, ho, by omega, by omega, by simpa using hr, rfl⟩

/-- A supported access inside the window, with reset released, is carried out. -/
theorem hostAccess_inside {off : Nat} (access : Location → State → State) (missed : State → State) {s : State}
    (ho : off < 0x8000) (h4 : off % 4 = 0) (hr : s.resetLine = false) :
    hostAccess (Config.coreBase + off) 4 access missed s = .next (access (locate off) s) := by
  unfold hostAccess
  rw [windowOffset_inside ho]
  dsimp only
  rw [if_neg (by simp [h4]), if_neg (by simp [hr])]

/-- An access of another width or alignment is refused (R64). -/
theorem hostAccess_unsupported {off bytes : Nat} (access : Location → State → State) (missed : State → State) (s : State)
    (ho : off < 0x8000) (h : bytes ≠ 4 ∨ off % 4 ≠ 0) :
    hostAccess (Config.coreBase + off) bytes access missed s = .refused (.unsupportedAccess off bytes) := by
  unfold hostAccess
  rw [windowOffset_inside ho]
  exact if_pos h

/-- An access at an address outside the window is not seen (R61). -/
theorem hostAccess_outside {addr : Nat} (bytes : Nat) (access : Location → State → State) (missed : State → State)
    (s : State) (h : addr < Config.coreBase ∨ Config.coreBase + 0x8000 ≤ addr) :
    hostAccess addr bytes access missed s = .next (missed s) := by
  unfold hostAccess
  rw [windowOffset_outside h]

/-- While reset is asserted it is not (R230). -/
theorem hostAccess_inReset {off : Nat} (access : Location → State → State) (missed : State → State) {s : State}
    (ho : off < 0x8000) (h4 : off % 4 = 0) (hr : s.resetLine = true) :
    hostAccess (Config.coreBase + off) 4 access missed s = .next (missed s) := by
  unfold hostAccess
  rw [windowOffset_inside ho]
  dsimp only
  rw [if_neg (by simp [h4]), if_pos hr]

/-- The step with a supported read at the head of the moves, reset released. -/
theorem step_read_inside {s : State} {off : Nat} (rest : List HostMove) (ho : off < 0x8000) (h4 : off % 4 = 0)
    (hr : s.resetLine = false) : step { s with inputs := .read (Config.coreBase + off) 4 :: rest } =
      .next (hostRead (locate off) { s with inputs := rest }) := by
  simp only [step, machineStep, takeMove]
  exact hostAccess_inside _ _ ho h4 hr

/-- The step with a supported write at the head of the moves, reset released. -/
theorem step_write_inside {s : State} {off : Nat} (w : Word) (rest : List HostMove) (ho : off < 0x8000) (h4 : off % 4 = 0)
    (hr : s.resetLine = false) : step { s with inputs := .write (Config.coreBase + off) 4 w :: rest } =
      .next (hostWrite (locate off) w { s with inputs := rest }) := by
  simp only [step, machineStep, takeMove]
  exact hostAccess_inside (fun l s => hostWrite l w s) (fun s => s) ho h4 hr

/-- A read does not depend on the moves still to come. -/
@[simp] theorem readLocation_inputs (s : State) (rest : List HostMove) (l : Location) :
    ({ s with inputs := rest } : State).readLocation l = s.readLocation l := by
  cases l <;> rfl

/-- A host read inside the window is answered with the word at its location. -/
theorem readsAs_iff {s : State} {off : Nat} {w : Word} (ho : off < 0x8000) (h4 : off % 4 = 0) (hr : s.resetLine = false) :
    ReadsAs s off w ↔ s.readLocation (locate off) = w := by
  have key : ∀ rest, step { s with inputs := .read (Config.coreBase + off) 4 :: rest } =
      .next { s with inputs := rest, readData := some (s.readLocation (locate off)), draws := s.draws + 1 } := fun rest => by
    simp only [step, machineStep, takeMove]
    rw [hostAccess_inside _ _ ho h4 (by exact hr)]
    simp [hostRead]
  constructor
  · intro h
    have := (key []).symm.trans (h [])
    simp only [Host.Outcome.next.injEq, State.mk.injEq, Option.some.injEq] at this
    tauto
  · rintro rfl rest
    exact key rest

/-- A host write inside the window does what `hostWrite` does at its location. -/
theorem writeGives_of {s t : State} {off : Nat} {w : Word} (ho : off < 0x8000) (h4 : off % 4 = 0)
    (hr : s.resetLine = false)
    (h : ∀ rest, hostWrite (locate off) w { s with inputs := rest } = { t with inputs := rest }) : WriteGives s off w t := by
  intro rest
  simp only [step, machineStep, takeMove]
  rw [hostAccess_inside _ _ ho h4 (by exact hr), h rest]

/-- The locations of the tile buffers (R62). -/
@[simp] theorem locate_tile (b : BufIx) (i : Fin 64) : locate (0x1000 + 0x100 * b.val + 4 * i.val) = .tileWord b i := by
  have hb := b.isLt
  have hi := i.isLt
  have h1 : (0x1000 + 0x100 * b.val + 4 * i.val - 0x1000) / 0x100 = b.val := by omega
  have h2 : (0x1000 + 0x100 * b.val + 4 * i.val - 0x1000) / 4 % 64 = i.val := by omega
  unfold locate
  rw [if_neg (by omega), if_pos (by omega), h1]
  simp [Fin.ofNat, h2, Nat.mod_eq_of_lt hb]

/-- The locations of the symbol buffer (R62). -/
@[simp] theorem locate_symbol (j : Fin 64) : locate (0x2000 + 4 * j.val) = .symbolWord j := by
  have hj := j.isLt
  have h2 : (0x2000 + 4 * j.val - 0x2000) / 4 = j.val := by omega
  unfold locate
  rw [if_neg (by omega), if_neg (by omega), if_neg (by omega), if_pos (by omega), h2]
  simp [Fin.ofNat, Nat.mod_eq_of_lt hj]

/-- The locations of the output buffer (R62). -/
@[simp] theorem locate_output (m : Fin 1024) : locate (0x3000 + 4 * m.val) = .outputWord m := by
  have hj := m.isLt
  have h2 : (0x3000 + 4 * m.val - 0x3000) / 4 = m.val := by omega
  unfold locate
  rw [if_neg (by omega), if_neg (by omega), if_neg (by omega), if_neg (by omega), if_neg (by omega), if_pos (by omega), h2]
  simp [Fin.ofNat, Nat.mod_eq_of_lt hj]

/-- The locations of the quantization tables (R62). -/
@[simp] theorem locate_quant (t : TableIx) (m : Fin 16) :
    locate (0x4000 + 0x40 * t.val + 4 * m.val) = .quantWord t m := by
  have hb := t.isLt
  have hi := m.isLt
  have h1 : (0x4000 + 0x40 * t.val + 4 * m.val - 0x4000) / 0x40 = t.val := by omega
  have h2 : (0x4000 + 0x40 * t.val + 4 * m.val - 0x4000) / 4 % 16 = m.val := by omega
  unfold locate
  rw [if_neg (by omega), if_neg (by omega), if_neg (by omega), if_neg (by omega), if_neg (by omega), if_neg (by omega),
    if_pos (by omega), h1]
  simp [Fin.ofNat, h2, Nat.mod_eq_of_lt hb]

end Sys2Proof.Machine
end

