-- ==== Sys2Proof/Laws/Operands.lean ====
section
/-! SUPPORT. Words, symbol words and bits: what the reading operations give back of what the making ones built. -/

namespace Sys2Proof.Machine

/-- `word(z)` reads back as `z` in the range of R8. -/
theorem toInt_wordOf {z : Int} (h1 : -2147483648 ≤ z) (h2 : z ≤ 2147483647) : (wordOf z).toInt = z := by
  unfold wordOf
  rw [BitVec.toInt_ofInt, Int.bmod_eq_of_le (by norm_num; omega) (by norm_num; omega)]

/-- A word is `word` of its own value. -/
@[simp] theorem wordOf_toInt (w : Word) : wordOf w.toInt = w := by simp [wordOf]

/-- A saturated word's value is the clamped integer (R8). -/
theorem toInt_wordOf_sat32 (y : Int) : (wordOf (sat32 y)).toInt = max (-2147483648) (min y 2147483647) := by
  rw [toInt_wordOf] <;> unfold sat32 <;> omega

/-- Saturation changes exactly the integers outside 32 bits. -/
theorem sat32_ne_iff (y : Int) : (sat32 y != y) = true ↔ y < -2147483648 ∨ 2147483647 < y := by
  simp [sat32]; omega

/-- Clamping changes exactly the integers outside the quantized range. -/
theorem satq_ne_iff (y : Int) : (satq y != y) = true ↔ y < -32767 ∨ 32767 < y := by
  simp [satq]; omega

/-- RUN of a symbol built with it (R24, R141). -/
theorem symRun_sym {run : Nat} (size : Nat) (amp : Int) (h : run < 16) : symRun (sym run size amp) = run := by
  have : (sym run size amp).extractLsb' 20 4 = BitVec.ofNat 4 run := by
    apply BitVec.eq_of_getLsbD_eq
    intro i hi
    simp only [sym, BitVec.getLsbD_append, BitVec.getLsbD_extractLsb']
    interval_cases i <;> simp
  unfold symRun
  rw [this]
  simpa using h

/-- SIZE of a symbol built with it (R24, R141). -/
theorem symSize_sym (run : Nat) {size : Nat} (amp : Int) (h : size < 16) : symSize (sym run size amp) = size := by
  have : (sym run size amp).extractLsb' 16 4 = BitVec.ofNat 4 size := by
    apply BitVec.eq_of_getLsbD_eq
    intro i hi
    simp only [sym, BitVec.getLsbD_append, BitVec.getLsbD_extractLsb']
    interval_cases i <;> simp
  unfold symSize
  rw [this]
  simpa using h

/-- AMP of a symbol built with it (R24, R141, R147). -/
theorem symAmp_sym (run size : Nat) {amp : Int} (h1 : -32768 ≤ amp) (h2 : amp ≤ 32767) :
    symAmp (sym run size amp) = amp := by
  have : (sym run size amp).extractLsb' 0 16 = BitVec.ofInt 16 amp := by
    apply BitVec.eq_of_getLsbD_eq
    intro i hi
    simp only [sym, BitVec.getLsbD_append, BitVec.getLsbD_extractLsb']
    interval_cases i <;> simp
  unfold symAmp
  rw [this, BitVec.toInt_ofInt, Int.bmod_eq_of_le (by norm_num; omega) (by norm_num; omega)]

/-- The composite key is RUN over SIZE (R24). -/
theorem symKey_eq (w : Word) : symKey w = 16 * symRun w + symSize w := by
  unfold symKey symRun symSize
  have : w.extractLsb' 16 8 = w.extractLsb' 20 4 ++ w.extractLsb' 16 4 := by
    apply BitVec.eq_of_getLsbD_eq
    intro i hi
    simp only [BitVec.getLsbD_append, BitVec.getLsbD_extractLsb']
    interval_cases i <;> simp
  rw [this, BitVec.toNat_append, Nat.shiftLeft_eq, mul_comm, ← Nat.two_pow_add_eq_or_of_lt (BitVec.isLt _)]

@[simp] theorem length_bitsMsb (v n : Nat) : (bitsMsb v n).length = n := by
  induction n with
  | zero => rfl
  | succ n ih => simp [bitsMsb, ih]

/-- Shifting a bit in at the right appends it to the bits (R167). -/
theorem bitsMsb_snoc (acc cnt : Nat) (b : Bool) :
    bitsMsb (2 * acc + b.toNat) (cnt + 1) = bitsMsb acc cnt ++ [b] := by
  induction cnt with
  | zero => cases b <;> simp [bitsMsb]
  | succ n ih =>
    rw [bitsMsb, ih, bitsMsb]
    simp only [List.cons_append, List.cons.injEq, and_true]
    rw [Nat.testBit_succ]
    cases b <;> simp
    congr 1; omega

/-- A coded value's bits are its code's and its amplitude's, also for size 0 (R166). -/
theorem codedBits_eq (c : HuffCode) (a : Int) (n : Nat) :
    codedBits c a n = bitsMsb c.code c.len ++ bitsMsb (ampBits a n) n := by
  unfold codedBits
  cases n <;> simp [bitsMsb]

end Sys2Proof.Machine
end

