-- ==== Sys2Proof/Laws/PerInstr.lean ====
section
/-! SUPPORT. What holds of every command as syntax, one lemma per constructor. -/

namespace Sys2Proof.Laws.RowOf

open Sys2Proof

/-- The command's word fits the rows of the opcode table that bear its mnemonic and no others (R85). -/
def Statement (i : Instr) : Prop := ∀ r ∈ opcodeTable, r.fits (encode i) = true ↔ r.mnemonic = i.mnemonic

theorem nop : Statement .nop := by unfold Statement; decide
theorem fdct : ∀ src dst, Statement (.fdct src dst) := by unfold Statement; decide
theorem idct : ∀ src dst, Statement (.idct src dst) := by unfold Statement; decide
theorem quant : ∀ src dst qsel, Statement (.quant src dst qsel) := by unfold Statement; decide
theorem dequant : ∀ src dst qsel, Statement (.dequant src dst qsel) := by unfold Statement; decide
theorem zigzag : ∀ src dst, Statement (.zigzag src dst) := by unfold Statement; decide
theorem unzigzag : ∀ src dst, Statement (.unzigzag src dst) := by unfold Statement; decide
theorem rleEnc : ∀ src, Statement (.rleEnc src) := by unfold Statement; decide
theorem rleDec : ∀ dst, Statement (.rleDec dst) := by unfold Statement; decide
theorem huffDc : ∀ src diff, Statement (.huffDc src diff) := by unfold Statement; decide
theorem huffAc : Statement .huffAc := by unfold Statement; decide
theorem bitsFlush : Statement .bitsFlush := by unfold Statement; decide
theorem outClear : Statement .outClear := by unfold Statement; decide
theorem streamReset : Statement .streamReset := by unfold Statement; decide

end Sys2Proof.Laws.RowOf
end

