-- ==== Sys2Proof/Laws/RunLength.lean ====
section
/-! SUPPORT. The run-length coder: what `last` of R142 is, and the part of a sequence that is coded. -/

namespace Sys2Proof.Machine

/-- What the fold of `lastNonzero` finds in a rising list of indices at or above its start. -/
theorem foldl_last_spec (seq : Fin 64 → Int) (l : List (Fin 64)) (x : Nat) (hx : x ≤ 63) (hl : l.Pairwise (· < ·))
    (hge : ∀ k ∈ l, x ≤ k.val) :
    let y := l.foldl (fun last k => if seq k = 0 then last else k.val) x
    y ≤ 63 ∧ x ≤ y ∧ (∀ k ∈ l, y < k.val → seq k = 0) ∧ (y ≠ x → ∃ k ∈ l, k.val = y ∧ seq k ≠ 0) := by
  induction l generalizing x with
  | nil => simp [hx]
  | cons k ks ih =>
    obtain ⟨h1, h2⟩ := List.pairwise_cons.1 hl
    simp only [List.foldl_cons]
    by_cases h : seq k = 0
    · simp only [h, if_true]
      obtain ⟨a, b, c, d⟩ := ih x hx h2 fun k' hk' => hge k' (List.mem_cons_of_mem _ hk')
      refine ⟨a, b, fun k' hk' hlt => ?_, fun hne => ?_⟩
      · rcases List.mem_cons.1 hk' with rfl | hk'
        · exact h
        · exact c k' hk' hlt
      · obtain ⟨k', hk', e⟩ := d hne
        exact ⟨k', List.mem_cons_of_mem _ hk', e⟩
    · simp only [h, if_false]
      obtain ⟨a, b, c, d⟩ := ih k.val (by omega) h2 fun k' hk' => (h1 k' hk').le
      refine ⟨a, (hge k (by simp)).trans b, fun k' hk' hlt => ?_, fun _ => ?_⟩
      · rcases List.mem_cons.1 hk' with rfl | hk'
        · omega
        · exact c k' hk' hlt
      · by_cases hy : ks.foldl (fun last k => if seq k = 0 then last else k.val) k.val = k.val
        · exact ⟨k, by simp, hy.symm, h⟩
        · obtain ⟨k', hk', e⟩ := d hy
          exact ⟨k', List.mem_cons_of_mem _ hk', e⟩

/-- `last` is the highest index with a nonzero value, or 0 (R142). -/
theorem lastNonzero_spec (seq : Fin 64 → Int) :
    lastNonzero seq ≤ 63 ∧ (∀ k : Fin 64, lastNonzero seq < k.val → seq k = 0) ∧
      (lastNonzero seq ≠ 0 → ∃ k : Fin 64, k.val = lastNonzero seq ∧ seq k ≠ 0) := by
  obtain ⟨a, -, c, d⟩ := foldl_last_spec seq (List.finRange 64) 0 (by omega) (by decide) (by simp)
  refine ⟨a, fun k => c k (by simp), fun h => ?_⟩
  obtain ⟨k, -, e⟩ := d h
  exact ⟨k, e⟩

/-- EOB is appended exactly when coefficient 63 is zero (R142, R143). -/
theorem lastNonzero_lt_iff (seq : Fin 64 → Int) : lastNonzero seq < 63 ↔ seq 63 = 0 := by
  obtain ⟨_, above, at_last⟩ := lastNonzero_spec seq
  refine ⟨fun h => above 63 h, fun h => ?_⟩
  by_contra hn
  obtain ⟨k, hk, e⟩ := at_last (by omega)
  have : k = 63 := Fin.ext (by simp; omega)
  exact e (this ▸ h)

end Sys2Proof.Machine
end

