-- ==== Sys2Proof/Laws/Step.lean ====
section
/-! SUPPORT. Everything a step can do, once; what a host write leaves alone; and what a command can do to the stream. -/

namespace Sys2Proof.Machine

/-- Inversion of the step: the engine's, or one move's, with the host's accesses either missed or carried out (R200, R230). -/
theorem step_cases {s t : State} (h : step s = .next t) :
    (s.inputs = [] ∧ engineStep s = .next t) ∨ ∃ m rest, s.inputs = m :: rest ∧
      ((m = .engineTurn ∧ engineStep { s with inputs := rest } = .next t) ∨
        (m = .assertReset ∧ t = { ({ s with inputs := rest } : State).toReset with resetLine := true }) ∨
        (m = .releaseReset ∧ t = { s with inputs := rest, resetLine := false }) ∨
        (∃ addr bytes, m = .read addr bytes ∧ (t = unanswered { s with inputs := rest } ∨
          ∃ off, addr = Config.coreBase + off ∧ off < 0x8000 ∧ off % 4 = 0 ∧ bytes = 4 ∧ s.resetLine = false ∧
            t = hostRead (locate off) { s with inputs := rest })) ∨
        (∃ addr bytes w, m = .write addr bytes w ∧ (t = { s with inputs := rest } ∨
          ∃ off, addr = Config.coreBase + off ∧ off < 0x8000 ∧ off % 4 = 0 ∧ bytes = 4 ∧ s.resetLine = false ∧
            t = hostWrite (locate off) w { s with inputs := rest }))) := by
  unfold step machineStep at h
  cases hi : s.inputs with
  | nil => simp only [hi] at h; exact .inl ⟨rfl, h⟩
  | cons m rest =>
    simp only [hi] at h
    refine .inr ⟨m, rest, rfl, ?_⟩
    cases m with
    | engineTurn => exact .inl ⟨rfl, h⟩
    | assertReset => exact .inr (.inl ⟨rfl, (Host.Outcome.next.inj h).symm⟩)
    | releaseReset => exact .inr (.inr (.inl ⟨rfl, (Host.Outcome.next.inj h).symm⟩))
    | read addr bytes => exact .inr (.inr (.inr (.inl ⟨addr, bytes, rfl, hostAccess_cases h⟩)))
    | write addr bytes w =>
      rw [takeMove] at h
      have hc := hostAccess_cases (access := fun l s => hostWrite l w s) (missed := fun s => s) h
      exact .inr (.inr (.inr (.inr ⟨addr, bytes, w, rfl, hc⟩)))

/-- A host write changes nothing of the stream state (R26 to R28). -/
theorem hostWrite_stream (l : Location) (w : Word) (s : State) :
    (hostWrite l w s).ob = s.ob ∧ (hostWrite l w s).obLen = s.obLen ∧ (hostWrite l w s).bitAcc = s.bitAcc ∧
      (hostWrite l w s).bitCnt = s.bitCnt := by
  unfold hostWrite
  split
  · simp
  · cases l <;> simp [storeLocation]
    unfold hostWriteCmd
    split <;> simp

/-- A host write leaves the moves, the answer, the reset input and the count of free values. -/
theorem hostWrite_outside (l : Location) (w : Word) (s : State) :
    (hostWrite l w s).inputs = s.inputs ∧ (hostWrite l w s).readData = s.readData ∧
      (hostWrite l w s).resetLine = s.resetLine ∧ (hostWrite l w s).draws = s.draws := by
  unfold hostWrite
  split
  · simp
  · cases l <;> simp [storeLocation]
    unfold hostWriteCmd
    split <;> simp

/-- A host write leaves the error registers, and PENDING and LASTCMD unless it is an accepted CMD write (R201). -/
theorem hostWrite_command (l : Location) (w : Word) (s : State) :
    (hostWrite l w s).errCode = s.errCode ∧
      (((hostWrite l w s).pending = s.pending ∧ (hostWrite l w s).lastcmd = s.lastcmd) ∨
        (s.pending = none ∧ s.err = false ∧ (hostWrite l w s).pending = some w ∧ (hostWrite l w s).lastcmd = w)) := by
  unfold hostWrite
  split
  · simp
  · cases l <;> simp [storeLocation]
    unfold hostWriteCmd
    split
    · rename_i h
      simp_all [State.busy]
    · simp

/-- One bit pushed: fewer than 8 bits stay pending, none above them, and a byte that fills up is output with its stuffing
(R167, R168). -/
theorem pushBit_spec (p : Packer) (b : Bool) (h1 : p.cnt < 8) (h2 : p.acc < 2 ^ p.cnt) :
    (p.pushBit b).cnt < 8 ∧ (p.pushBit b).acc < 2 ^ (p.pushBit b).cnt ∧
      (((p.pushBit b).out = p.out ∧ bitsMsb (p.pushBit b).acc (p.pushBit b).cnt = bitsMsb p.acc p.cnt ++ [b]) ∨
        ∃ byte : Byte, (p.pushBit b).out = p.out ++ stuffed byte ∧ (p.pushBit b).cnt = 0 ∧
          bitsMsb byte.toNat 8 = bitsMsb p.acc p.cnt ++ [b]) := by
  have hb : b.toNat ≤ 1 := by cases b <;> simp
  have h3 : 2 * p.acc + b.toNat < 2 ^ (p.cnt + 1) := by rw [pow_succ]; omega
  unfold Packer.pushBit
  dsimp only
  split
  · rename_i h
    refine ⟨by norm_num, by norm_num, .inr ⟨_, rfl, rfl, ?_⟩⟩
    rw [← bitsMsb_snoc, h, BitVec.toNat_ofNat, Nat.mod_eq_of_lt (by rw [h] at h3; exact h3)]
  · exact ⟨by dsimp only; omega, h3, .inl ⟨rfl, bitsMsb_snoc _ _ _⟩⟩

/-- A packing command whose bytes fit commits them (R169). -/
theorem finishPacking_fits {s : State} {p : Packer} (t : State) (h : s.obLen.toNat + p.out.length ≤ 4096) :
    finishPacking s p t = .commit { t with
      ob := Memory.writeBytes s.ob s.obLen.toNat p.out
      obLen := BitVec.ofNat 13 (s.obLen.toNat + p.out.length)
      bitAcc := BitVec.ofNat 7 p.acc
      bitCnt := BitVec.ofNat 3 p.cnt } := by
  unfold finishPacking
  dsimp only
  rw [if_neg (by omega)]

/-- A packing command whose bytes do not fit ends with CAPACITY and the length needed (R169). -/
theorem finishPacking_full {s : State} {p : Packer} (t : State) (h : 4096 < s.obLen.toNat + p.out.length) :
    finishPacking s p t = .raise .capacity (s.obLen.toNat + p.out.length) := by
  unfold finishPacking
  dsimp only
  rw [if_pos h]

/-- What a next state of a command shows of the stream: it is as it was; or bits have been packed or flushed and their bytes fit;
or OB_LEN is 0 again, with the pending bits kept or discarded (R26 to R28, R169, R172, R186, R187). -/
inductive StreamChange (s t : State) : Prop where
  | kept (ob : t.ob = s.ob) (len : t.obLen = s.obLen) (acc : t.bitAcc = s.bitAcc) (cnt : t.bitCnt = s.bitCnt)
  | packed (p : Packer) (how : (∃ bits, p = (Packer.start s).pushBits bits) ∨ p = (Packer.start s).flush)
      (fits : s.obLen.toNat + p.out.length ≤ 4096) (ob : t.ob = Memory.writeBytes s.ob s.obLen.toNat p.out)
      (len : t.obLen = BitVec.ofNat 13 (s.obLen.toNat + p.out.length)) (acc : t.bitAcc = BitVec.ofNat 7 p.acc)
      (cnt : t.bitCnt = BitVec.ofNat 3 p.cnt)
  | cleared (ob : t.ob = s.ob) (len : t.obLen = 0)
      (pending : (t.bitAcc = s.bitAcc ∧ t.bitCnt = s.bitCnt) ∨ (t.bitAcc = 0 ∧ t.bitCnt = 0))

/-- The ending of a command's pseudocode, as a change of the stream. -/
theorem streamChange_of_ending {i : Instr} {s t : State} {e : Ending} (h : endCommand i s e = .next t)
    (he : ∀ u, e = .commit u → StreamChange s u) : StreamChange s t := by
  have ht := (Host.Outcome.next.inj h).symm
  subst ht
  cases e with
  | raise c aux => exact .kept rfl rfl rfl rfl
  | commit u =>
    cases he u rfl with
    | kept a b c d => exact .kept a b c d
    | packed p how fits a b c d => exact .packed p how fits a b c d
    | cleared a b c => exact .cleared a b c

theorem finishPacking_change {s t u : State} {p : Packer}
    (how : (∃ bits, p = (Packer.start s).pushBits bits) ∨ p = (Packer.start s).flush) (h : finishPacking s p t = .commit u) :
    StreamChange s u := by
  by_cases hf : s.obLen.toNat + p.out.length ≤ 4096
  · rw [finishPacking_fits t hf] at h
    cases h
    exact .packed p how hf rfl rfl rfl rfl
  · rw [finishPacking_full t (by omega)] at h
    cases h

theorem withTileN_commit {s u : State} {e : Ending} (h : withTileN s e = .commit u) : e = .commit u := by
  unfold withTileN at h
  split at h
  · exact h
  · cases h

/-- What a command can do to the stream. -/
theorem exec_stream {i : Instr} {s t : State} (h : exec i s = .next t) : StreamChange s t := by
  cases i with
  | nop => exact streamChange_of_ending h fun u hu => by cases hu; exact .kept rfl rfl rfl rfl
  | fdct src dst => exact streamChange_of_ending h fun u hu => by cases withTileN_commit hu; exact .kept rfl rfl rfl rfl
  | idct src dst => exact streamChange_of_ending h fun u hu => by cases withTileN_commit hu; exact .kept rfl rfl rfl rfl
  | quant src dst q => exact streamChange_of_ending h fun u hu => by cases withTileN_commit hu; exact .kept rfl rfl rfl rfl
  | dequant src dst q => exact streamChange_of_ending h fun u hu => by cases withTileN_commit hu; exact .kept rfl rfl rfl rfl
  | zigzag src dst => exact streamChange_of_ending h fun u hu => by cases withTileN_commit hu; exact .kept rfl rfl rfl rfl
  | unzigzag src dst => exact streamChange_of_ending h fun u hu => by cases withTileN_commit hu; exact .kept rfl rfl rfl rfl
  | rleEnc src =>
    refine streamChange_of_ending h fun u hu => ?_
    have := withTileN_commit hu
    split at this
    · cases this
    · cases this; exact .kept rfl rfl rfl rfl
  | rleDec dst =>
    refine streamChange_of_ending h fun u hu => ?_
    have := withTileN_commit hu
    split at this
    · cases this
    · cases this; exact .kept rfl rfl rfl rfl
  | huffDc src diff =>
    refine streamChange_of_ending h fun u hu => ?_
    have := withTileN_commit hu
    split at this
    · cases this
    · exact finishPacking_change (.inl ⟨_, rfl⟩) this
  | huffAc =>
    refine streamChange_of_ending h fun u hu => ?_
    have := withTileN_commit hu
    split at this
    · cases this
    · split at this
      · cases this
      · exact finishPacking_change (.inl ⟨_, rfl⟩) this
  | bitsFlush => exact streamChange_of_ending h fun u hu => finishPacking_change (.inr rfl) hu
  | outClear => exact streamChange_of_ending h fun u hu => by cases hu; exact .cleared rfl rfl (.inl ⟨rfl, rfl⟩)
  | streamReset => exact streamChange_of_ending h fun u hu => by cases hu; exact .cleared rfl rfl (.inr ⟨rfl, rfl⟩)

end Sys2Proof.Machine
end

