-- ==== Sys2Proof/Laws/Surd.lean ====
section
/-! SUPPORT. The exact numbers of the transform engine stand for real numbers: addition, multiplication and the test for
`0 ≤` agree with those of the reals, and `twoCos m` is `2·cos(mπ/16)`. -/

namespace Sys2Proof.Machine

/-- Exact arithmetic that stands for real arithmetic under the reading `ev`. -/
structure ExactOk {α : Type} (o : ExactOps α) (ev : α → ℝ) : Prop where
  ofInt : ∀ z : Int, ev (o.ofInt z) = z
  add : ∀ p q, ev (o.add p q) = ev p + ev q
  neg : ∀ p, ev (o.neg p) = -ev p
  mul : ∀ p q, ev (o.mul p q) = ev p * ev q
  nonneg : ∀ p, o.nonneg p = true ↔ 0 ≤ ev p

/-- The whole numbers stand for themselves. -/
theorem intOps_ok : ExactOk intOps (fun z => (z : ℝ)) where
  ofInt _ := rfl
  add p q := by simp [intOps]
  neg p := by simp [intOps]
  mul p q := by simp [intOps]
  nonneg p := by simp [intOps]

/-- A pair over exact numbers, read with a root of `d`, is exact. -/
theorem ExactOk.adjoinRoot {α : Type} {o : ExactOps α} {ev : α → ℝ} (h : ExactOk o ev) {d : α} {r : ℝ} (hr : 0 ≤ r)
    (hd : ev d = r * r) : ExactOk (o.adjoinRoot d) (fun p => ev p.1 + ev p.2 * r) where
  ofInt z := by simp [ExactOps.adjoinRoot, h.ofInt]
  add p q := by simp only [ExactOps.adjoinRoot, h.add]; ring
  neg p := by simp only [ExactOps.adjoinRoot, h.neg]; ring
  mul p q := by simp only [ExactOps.adjoinRoot, h.add, h.mul, hd]; ring
  nonneg p := by
    have hsq : ev (o.add (o.mul p.1 p.1) (o.neg (o.mul d (o.mul p.2 p.2)))) =
        ev p.1 * ev p.1 - (ev p.2 * r) * (ev p.2 * r) := by
      simp only [h.add, h.neg, h.mul, hd]; ring
    have h1 := h.nonneg p.1
    have h2 := h.nonneg p.2
    simp only [ExactOps.adjoinRoot]
    cases e1 : o.nonneg p.1 <;> cases e2 : o.nonneg p.2 <;>
      simp only [e1, e2, Bool.false_eq_true, false_iff, true_iff, not_le] at h1 h2 <;>
      simp only [h.nonneg, h.neg, hsq, Bool.false_eq_true, false_iff, true_iff, not_le]
    · nlinarith [mul_nonneg (neg_nonneg.2 h2.le) hr]
    · have := mul_nonneg h2 hr
      constructor
      · intro hh
        nlinarith
      · intro hh
        nlinarith
    · have := mul_nonneg (neg_nonneg.2 h2.le) hr
      constructor
      · intro hh
        nlinarith
      · intro hh
        nlinarith
    · have := mul_nonneg h2 hr
      linarith

/-- `√(2+√2)`. -/
noncomputable def root2 : ℝ := Real.sqrt (2 + Real.sqrt 2)

/-- `√(2+√(2+√2))`. -/
noncomputable def root3 : ℝ := Real.sqrt (2 + root2)

/-- The real number a `Surd1` stands for. -/
noncomputable def Surd1.value (p : Surd1) : ℝ := p.1 + p.2 * Real.sqrt 2

/-- The real number a `Surd2` stands for. -/
noncomputable def Surd2.value (p : Surd2) : ℝ := Surd1.value p.1 + Surd1.value p.2 * root2

/-- The real number a `Surd` stands for. -/
noncomputable def Surd.value (p : Surd) : ℝ := Surd2.value p.1 + Surd2.value p.2 * root3

theorem sqrt_two_sq : Real.sqrt 2 * Real.sqrt 2 = 2 := Real.mul_self_sqrt (by norm_num)

theorem root2_sq : root2 * root2 = 2 + Real.sqrt 2 := Real.mul_self_sqrt (by positivity)

theorem root3_sq : root3 * root3 = 2 + root2 := Real.mul_self_sqrt (by unfold root2; positivity)

theorem surd1_ok : ExactOk surd1 Surd1.value :=
  intOps_ok.adjoinRoot (Real.sqrt_nonneg 2) (by rw [sqrt_two_sq]; norm_num)

theorem surd2_ok : ExactOk surd2 Surd2.value :=
  surd1_ok.adjoinRoot (Real.sqrt_nonneg _) (by
    show Surd1.value (2, 1) = root2 * root2
    rw [root2_sq]; simp [Surd1.value])

/-- The exact arithmetic of the transform engine is real arithmetic. -/
theorem surd_ok : ExactOk surd Surd.value :=
  surd2_ok.adjoinRoot (Real.sqrt_nonneg _) (by
    show Surd2.value ((2, 0), (1, 0)) = root3 * root3
    rw [root3_sq]; simp [Surd2.value, Surd1.value])

@[simp] theorem Surd.value_subInt (z : Surd) (n : Int) : (z.subInt n).value = z.value - n := by
  simp [Surd.subInt, surd_ok.add, surd_ok.ofInt, sub_eq_add_neg]

@[simp] theorem Surd.value_scale (n : Int) (z : Surd) : (Surd.scale n z).value = n * z.value := by
  simp only [Surd.scale, Surd.value, Surd2.value, Surd1.value]
  push_cast
  ring

@[simp] theorem Surd.value_sum8 (f : Fin 8 → Surd) : (Surd.sum8 f).value = ∑ k, (f k).value := by
  have h8 : List.finRange 8 = [0, 1, 2, 3, 4, 5, 6, 7] := by decide
  simp only [Surd.sum8, h8, List.foldr_cons, List.foldr_nil, surd_ok.add, surd_ok.ofInt, Fin.sum_univ_eight]
  push_cast
  ring

/-- `2·cos(jπ/16)` in the first quarter turn. -/
theorem value_twoCosQuarter {j : Nat} (hj : j ≤ 8) : (twoCosQuarter j).value = 2 * Real.cos (j * (Real.pi / 16)) := by
  set t := Real.pi / 16 with ht
  have c1 : 2 * Real.cos t = root3 := by rw [ht, Real.cos_pi_div_sixteen]; unfold root3 root2; ring
  have c2 : 2 * Real.cos (2 * t) = root2 := by
    rw [ht, show 2 * (Real.pi / 16) = Real.pi / 8 by ring, Real.cos_pi_div_eight]; unfold root2; ring
  have c4 : 2 * Real.cos (4 * t) = Real.sqrt 2 := by
    rw [ht, show 4 * (Real.pi / 16) = Real.pi / 4 by ring, Real.cos_pi_div_four]; ring
  have prod (a b : ℝ) : 2 * Real.cos (a + b) = 2 * Real.cos a * (2 * Real.cos b) - 2 * Real.cos (a - b) := by
    rw [Real.cos_add, Real.cos_sub]; ring
  have c3 : 2 * Real.cos (3 * t) = root2 * root3 - root3 := by
    rw [show 3 * t = 2 * t + t by ring, prod, c1, c2, show 2 * t - t = t by ring, c1]
  have c5 : 2 * Real.cos (5 * t) = Real.sqrt 2 * root3 - (root2 * root3 - root3) := by
    rw [show 5 * t = 4 * t + t by ring, prod, c1, c4, show 4 * t - t = 3 * t by ring, c3]
  have c6 : 2 * Real.cos (6 * t) = Real.sqrt 2 * root2 - root2 := by
    rw [show 6 * t = 4 * t + 2 * t by ring, prod, c2, c4, show 4 * t - 2 * t = 2 * t by ring, c2]
  have c7 : 2 * Real.cos (7 * t) = Real.sqrt 2 * (root2 * root3 - root3) - root3 := by
    rw [show 7 * t = 4 * t + 3 * t by ring, prod, c3, c4, show 4 * t - 3 * t = t by ring, c1]
  have c8 : 2 * Real.cos (8 * t) = 0 := by
    rw [ht, show 8 * (Real.pi / 16) = Real.pi / 2 by ring, Real.cos_pi_div_two, mul_zero]
  interval_cases j <;> simp only [Nat.cast_zero, Nat.cast_one, Nat.cast_ofNat, zero_mul, one_mul, Real.cos_zero, mul_one,
    c1, c2, c3, c4, c5, c6, c7, c8, twoCosQuarter, Surd.value, Surd2.value, Surd1.value] <;> push_cast <;> ring

/-- `twoCos m` is `2·cos(mπ/16)`. -/
theorem value_twoCos (m : Nat) : (twoCos m).value = 2 * Real.cos (m * (Real.pi / 16)) := by
  have hm : (m : ℝ) * (Real.pi / 16) = (m % 32 : Nat) * (Real.pi / 16) + (m / 32 : Nat) * (2 * Real.pi) := by
    have : (m : ℝ) = (m % 32 : Nat) + 32 * (m / 32 : Nat) := by exact_mod_cast (Nat.mod_add_div m 32).symm
    rw [this]
    ring
  rw [hm, Real.cos_add_nat_mul_two_pi]
  unfold twoCos
  set j := m % 32 with hj
  have hlt : j < 32 := Nat.mod_lt _ (by norm_num)
  dsimp only
  split
  · rename_i h
    exact value_twoCosQuarter h
  · split
    · rename_i _ h
      rw [surd_ok.neg, value_twoCosQuarter (by omega), Nat.cast_sub h,
        show (((16 : Nat) : ℝ) - j) * (Real.pi / 16) = Real.pi - j * (Real.pi / 16) by push_cast; ring, Real.cos_pi_sub]
      ring
    · split
      · rename_i _ h h'
        rw [surd_ok.neg, value_twoCosQuarter (by omega), Nat.cast_sub (by omega),
          show ((j : ℝ) - (16 : Nat)) * (Real.pi / 16) = j * (Real.pi / 16) - Real.pi by push_cast; ring, Real.cos_sub_pi]
        ring
      · rw [value_twoCosQuarter (by omega), Nat.cast_sub (by omega),
          show (((32 : Nat) : ℝ) - j) * (Real.pi / 16) = 2 * Real.pi - j * (Real.pi / 16) by push_cast; ring,
          Real.cos_two_pi_sub]

/-- `cosFactor k n` is `2·C(k)·cos(π(2n+1)k/16)` (R101 to R103). -/
theorem value_cosFactor (k n : Fin 8) : (cosFactor k n).value = 2 * (normFactor k * kernel k n) := by
  unfold cosFactor normFactor kernel
  split
  · rename_i h
    rw [value_twoCos, show ((4 : Nat) : ℝ) * (Real.pi / 16) = Real.pi / 4 by push_cast; ring, Real.cos_pi_div_four]
    have : Real.sqrt 2 ≠ 0 := by positivity
    subst h
    simp
    field_simp
    nlinarith [sqrt_two_sq]
  · rw [value_twoCos]
    push_cast
    rw [one_mul]
    congr 2
    ring

/-- `forward16` is 16 times the ideal forward value in units of 2^-8 (R102, R104). -/
theorem value_forward16 (src : Tile) (u v : Fin 8) :
    (forward16 src u v).value = 16 * (256 * idealForward (fxTile src) u v) := by
  simp only [forward16, Surd.value_sum8, surd_ok.mul, Surd.value_scale, value_cosFactor, idealForward, fxTile,
    Finset.mul_sum]
  refine Finset.sum_congr rfl fun x _ => Finset.sum_congr rfl fun y _ => ?_
  ring

/-- `inverse16` is 16 times the ideal inverse value in units of 2^-8 (R103, R104). -/
theorem value_inverse16 (src : Tile) (x y : Fin 8) :
    (inverse16 src x y).value = 16 * (256 * idealInverse (fxTile src) x y) := by
  simp only [inverse16, Surd.value_sum8, surd_ok.mul, Surd.value_scale, value_cosFactor, idealInverse, fxTile,
    Finset.mul_sum]
  refine Finset.sum_congr rfl fun u _ => Finset.sum_congr rfl fun v _ => ?_
  ring

/-- The test of R104's bound is exact. -/
theorem withinDctErr_iff (z : Surd) (y : Int) : withinDctErr z y = true ↔ |(y : ℝ) - z.value / 16| ≤ 1 := by
  simp only [withinDctErr, dctErr, Bool.and_eq_true, surd_ok.nonneg, Surd.value_subInt, surd_ok.neg, abs_le]
  push_cast
  constructor
  · rintro ⟨h1, h2⟩
    constructor <;> linarith
  · rintro ⟨h1, h2⟩
    constructor <;> linarith

/-- The search finds the floor (R9), for a quotient below `lo + 2^fuel`. -/
theorem floorFrom_spec (z : Surd) {den : Int} (fuel : Nat) (lo : Int) (h1 : (den * lo : ℝ) ≤ z.value)
    (h2 : z.value < den * (lo + 2 ^ fuel)) :
    (den * Surd.floorFrom z den fuel lo : ℝ) ≤ z.value ∧ z.value < den * (Surd.floorFrom z den fuel lo + 1) := by
  induction fuel generalizing lo with
  | zero => simpa [Surd.floorFrom] using And.intro h1 h2
  | succ fuel ih =>
    unfold Surd.floorFrom
    dsimp only
    split
    · rename_i h
      rw [surd_ok.nonneg, Surd.value_subInt] at h
      refine ih _ (by push_cast at h ⊢; linarith) ?_
      push_cast
      rw [pow_succ] at h2
      linarith
    · rename_i h
      rw [surd_ok.nonneg, Surd.value_subInt] at h
      push_cast at h
      exact ih _ h1 (by linarith)

/-- `nearestSixteenth z` is the integer nearest to `z/16`, and of two equally near ones the one of larger magnitude (R9). -/
theorem nearestSixteenth_spec {z : Surd} (hz : |z.value| < 2 ^ 40) :
    |(nearestSixteenth z : ℝ) - z.value / 16| ≤ 1 / 2 ∧
    (|(nearestSixteenth z : ℝ) - z.value / 16| = 1 / 2 → |z.value / 16| < |(nearestSixteenth z : ℝ)|) := by
  obtain ⟨hl, hu⟩ := abs_lt.1 hz
  unfold nearestSixteenth
  split
  · rename_i h
    rw [surd_ok.nonneg] at h
    obtain ⟨a, b⟩ := floorFrom_spec ((Surd.scale 2 z).subInt (-16)) (den := 32) 40 0
      (by simp; linarith) (by simp; linarith)
    simp only [Surd.value_subInt, Surd.value_scale] at a b
    push_cast at a b
    set q : ℝ := (Surd.floorFrom ((Surd.scale 2 z).subInt (-16)) 32 40 0 : ℝ)
    constructor
    · rw [abs_le]; constructor <;> linarith
    · intro he
      have : q - z.value / 16 = 1 / 2 := by
        rcases abs_eq (by norm_num : (0:ℝ) ≤ 1 / 2) |>.1 he with h' | h' <;> linarith
      rw [abs_of_nonneg (by linarith), abs_of_nonneg (by linarith)]
      linarith
  · rename_i h
    rw [surd_ok.nonneg] at h
    obtain ⟨a, b⟩ := floorFrom_spec ((Surd.scale (-2) z).subInt (-16)) (den := 32) 40 0
      (by simp; linarith) (by simp; linarith)
    simp only [Surd.value_subInt, Surd.value_scale] at a b
    push_cast at a b ⊢
    set q : ℝ := (Surd.floorFrom ((Surd.scale (-2) z).subInt (-16)) 32 40 0 : ℝ)
    constructor
    · rw [abs_le]; constructor <;> linarith
    · intro he
      have : -q - z.value / 16 = -1 / 2 := by
        rcases abs_eq (by norm_num : (0:ℝ) ≤ 1 / 2) |>.1 he with h' | h' <;> linarith
      rw [abs_of_nonpos (by linarith), abs_of_nonpos (by linarith)]
      linarith

end Sys2Proof.Machine
end

