-- ==== Sys2Proof/Laws/Transform.lean ====
section
/-! SUPPORT. The transform engine's answers: bounds, R104's accuracy, and the orthogonality of the kernel. -/

namespace Sys2Proof.Machine

@[simp] theorem rowOf_at8 (r c : Fin 8) : rowOf (at8 r c) = r := by
  apply Fin.ext; simp only [rowOf, at8]; omega

@[simp] theorem colOf_at8 (r c : Fin 8) : colOf (at8 r c) = c := by
  apply Fin.ext; simp only [colOf, at8]; omega

@[simp] theorem at8_rowOf_colOf (i : Fin 64) : at8 (rowOf i) (colOf i) = i := by
  apply Fin.ext; simp only [rowOf, colOf, at8]; omega

theorem abs_cosFactor_le (k n : Fin 8) : |(cosFactor k n).value| ≤ 2 := by
  unfold cosFactor
  split <;> rw [value_twoCos, abs_mul, abs_of_pos (by norm_num : (0:ℝ) < 2)] <;>
    nlinarith [Real.abs_cos_le_one ((4 : ℕ) * (Real.pi / 16)),
      Real.abs_cos_le_one (((2 * n.val + 1) * k.val : ℕ) * (Real.pi / 16))]

theorem abs_sum8_le {f : Fin 8 → ℝ} {B : ℝ} (h : ∀ k, |f k| ≤ B) : |∑ k, f k| ≤ 8 * B := by
  refine (Finset.abs_sum_le_sum_abs _ _).trans ?_
  refine (Finset.sum_le_sum fun k _ => h k).trans ?_
  simp

theorem abs_sum8sum8_le {a b : Fin 8 → Surd} {f : Fin 8 → Fin 8 → Int} {B : ℝ} (ha : ∀ k, |(a k).value| ≤ 2)
    (hb : ∀ k, |(b k).value| ≤ 2) (hB : 0 ≤ B) (hf : ∀ x y, |(f x y : ℝ)| ≤ B) :
    |(Surd.sum8 fun x => surd.mul (a x) (Surd.sum8 fun y => Surd.scale (f x y) (b y))).value| ≤ 256 * B := by
  simp only [Surd.value_sum8, surd_ok.mul, Surd.value_scale]
  refine (abs_sum8_le (B := 32 * B) fun x => ?_).trans (by linarith)
  rw [abs_mul]
  have : |∑ y, (f x y : ℝ) * (b y).value| ≤ 8 * (2 * B) := abs_sum8_le fun y => by
    rw [abs_mul]
    nlinarith [hf x y, hb y, abs_nonneg (f x y : ℝ), abs_nonneg (b y).value]
  nlinarith [ha x, abs_nonneg (a x).value, abs_nonneg (∑ y, (f x y : ℝ) * (b y).value)]

theorem abs_sint32_le (w : Word) : |(sint32 w : ℝ)| ≤ 2 ^ 31 := by
  have h1 := BitVec.toInt_lt (x := w)
  have h2 := BitVec.le_toInt (x := w)
  rw [abs_le]
  unfold sint32
  constructor
  · exact_mod_cast (by simpa using h2 : (-2 ^ 31 : Int) ≤ w.toInt)
  · exact_mod_cast (by simpa using h1.le : w.toInt ≤ (2 ^ 31 : Int))

/-- 16 times the ideal forward value is at most 256 times the largest word's magnitude (R111). -/
theorem abs_forward16_le (src : Tile) (u v : Fin 8) {B : ℝ} (hB : 0 ≤ B) (h : ∀ i, |(sint32 (src i) : ℝ)| ≤ B) :
    |(forward16 src u v).value| ≤ 256 * B :=
  abs_sum8sum8_le (fun _ => abs_cosFactor_le _ _) (fun _ => abs_cosFactor_le _ _) hB fun _ _ => h _

/-- 16 times the ideal inverse value is at most 256 times the largest word's magnitude (R111). -/
theorem abs_inverse16_le (src : Tile) (x y : Fin 8) {B : ℝ} (hB : 0 ≤ B) (h : ∀ i, |(sint32 (src i) : ℝ)| ≤ B) :
    |(inverse16 src x y).value| ≤ 256 * B :=
  abs_sum8sum8_le (fun _ => abs_cosFactor_le _ _) (fun _ => abs_cosFactor_le _ _) hB fun _ _ => h _

/-- Whatever a realization answers, the model's answer is within DCT_ERR (R104). -/
theorem holdToBound_within {z : Surd} (hz : |z.value| < 2 ^ 40) (y : Int) : |(holdToBound z y : ℝ) - z.value / 16| ≤ 1 := by
  unfold holdToBound
  split
  · rename_i h
    exact (withinDctErr_iff z y).1 h
  · exact (nearestSixteenth_spec hz).1.trans (by norm_num)

theorem fdctImpl_within (src : Tile) (i : Fin 64) :
    |(fdctImpl src i : ℝ) - (forward16 src (rowOf i) (colOf i)).value / 16| ≤ 1 :=
  holdToBound_within ((abs_forward16_le src _ _ (by positivity) fun i => abs_sint32_le (src i)).trans_lt (by norm_num)) _

theorem idctImpl_within (src : Tile) (i : Fin 64) :
    |(idctImpl src i : ℝ) - (inverse16 src (rowOf i) (colOf i)).value / 16| ≤ 1 :=
  holdToBound_within ((abs_inverse16_le src _ _ (by positivity) fun i => abs_sint32_le (src i)).trans_lt (by norm_num)) _

/-- The kernel is orthogonal over the frequencies, exactly: `Σ_u (2·C(u)·cos)(2·C(u)·cos) = 16` on the diagonal, 0 off it. -/
theorem cosFactor_orthogonal : ∀ n m : Fin 8,
    (Surd.sum8 fun k => surd.mul (cosFactor k n) (cosFactor k m)) = surd.ofInt (if n = m then 16 else 0) := by
  decide +kernel

/-- The kernel is orthogonal over the samples, exactly. -/
theorem cosFactor_orthogonal' : ∀ k l : Fin 8,
    (Surd.sum8 fun n => surd.mul (cosFactor k n) (cosFactor l n)) = surd.ofInt (if k = l then 16 else 0) := by
  decide +kernel

end Sys2Proof.Machine
end

