-- ==== Sys2Proof/Tests/Slice0.lean ====
section
/-! SUPPORT. Tests: expected results come from spec/95_test_vectors.md (the vector's name stands in the docstring) or by hand
from the rule cited; and, in the second half, one witness per set of hypotheses of the statements. -/

namespace Sys2Proof.Tests

set_option Elab.async false

open Sys2Proof Sys2Proof.Machine

/-! ## Small states -/

/-- The INT or FX words of these raw values, then zeros. -/
def wordsOf (xs : List Int) : Vector (Option Word) 64 := Vector.ofFn fun i => some (wordOf (xs.getD i.val 0))

/-- Every buffer word and symbol written with 0, the rest as after reset. -/
def written : State := { State.reset with tb := Vector.replicate 4 (wordsOf []), sb := wordsOf [] }

/-- `written`, with these raw values in buffer 0. -/
def withTile (xs : List Int) : State := { written with tb := written.tb.set 0 (wordsOf xs) }

/-- `written`, with these symbols and their number. -/
def withSymbols (syms : List Int) (count : BitVec 7) : State := { written with sb := wordsOf syms, symcnt := count }

/-- What a next state shows. -/
def seen {α : Type} (o : Host.Outcome State Fault Refusal) (f : State → α) : Option α :=
  match o with
  | .next t => some (f t)
  | .fault _ => none
  | .refused _ => none

/-- The state a step answered, if it answered one. -/
def got (o : Host.Outcome State Fault Refusal) : State := (seen o id).getD written

/-- The first words of a buffer, as raw values. -/
def head (b : BufIx) (n : Nat) (t : State) : List Int :=
  ((List.finRange 64).take n).map fun i => (t.tb[b][i].getD 0).toInt

/-- The stream: OB_LEN, the bytes below it, BIT_CNT, BIT_ACC. -/
def stream (t : State) : Nat × List Nat × Nat × Nat :=
  (t.obLen.toNat, (List.range t.obLen.toNat).map fun k => ((Memory.read t.ob k).getD 0).toNat,
    t.bitCnt.toNat, t.bitAcc.toNat)

/-- The error: ERR, DONE, ERR_CODE, ERR_AUX. -/
def errorOf (t : State) : Bool × Bool × ErrCode × Word := (t.err, t.done, t.errCode, t.errAux)

/-! ## Decoding (words of 30_encoding.md and 95_test_vectors.md) -/

/-- T-ER-1 and T-ER-2: a reserved opcode. -/
theorem test_reserved_opcode_refused : wordWellFormed 0x0000000E#32 = false ∧
    decode 0x0000000E#32 = .error .reservedOpcode ∧ decode 0x000000FF#32 = .error .reservedOpcode := by decide

/-- T-ER-3: a reserved bit. -/
theorem test_reserved_bit_refused : wordWellFormed 0x00010401#32 = false ∧
    decode 0x00010401#32 = .error .reservedBits := by decide

/-- T-ER-7: SRC in a command that does not use it. -/
theorem test_unused_src_refused : wordWellFormed 0x00000100#32 = false ∧ decode 0x00000100#32 = .error .unusedSrc := by
  decide

/-- T-ER-5: DST in a command that does not use it. -/
theorem test_unused_dst_refused : wordWellFormed 0x00000407#32 = false ∧ decode 0x00000407#32 = .error .unusedDst := by
  decide

/-- T-ER-4: QSEL in a command that does not use it. -/
theorem test_unused_qsel_refused : wordWellFormed 0x00001401#32 = false ∧ decode 0x00001401#32 = .error .unusedQsel := by
  decide

/-- T-ER-6: DIFF in a command that does not use it. -/
theorem test_unused_diff_refused : wordWellFormed 0x00004401#32 = false ∧ decode 0x00004401#32 = .error .unusedDiff := by
  decide

/-- Each row of the opcode table, with its operand bits 0 (R81). -/
theorem test_decode_bare_rows :
    [0x0#32, 0x1#32, 0x2#32, 0x3#32, 0x4#32, 0x5#32, 0x6#32, 0x7#32, 0x8#32, 0x9#32, 0xA#32, 0xB#32, 0xC#32, 0xD#32].map
      (fun w => (decode w).toOption) =
    [some .nop, some (.fdct 0 0), some (.idct 0 0), some (.quant 0 0 0), some (.dequant 0 0 0), some (.zigzag 0 0),
      some (.unzigzag 0 0), some (.rleEnc 0), some (.rleDec 0), some (.huffDc 0 false), some .huffAc, some .bitsFlush,
      some .outClear, some .streamReset] := by decide

/-- Words with operands, of the programs P1, P2, P4 and P5. -/
theorem test_decode_program_words :
    [0x00000401#32, 0x00000B02#32, 0x00003503#32, 0x00003F04#32, 0x00000105#32, 0x00000406#32, 0x00000207#32, 0x00000808#32,
      0x00004209#32].map (fun w => (decode w).toOption) =
    [some (.fdct 0 1), some (.idct 3 2), some (.quant 1 1 3), some (.dequant 3 3 3), some (.zigzag 1 0), some (.unzigzag 0 1),
      some (.rleEnc 2), some (.rleDec 2), some (.huffDc 2 true)] := by decide

/-- DIFF is bit 14 and nothing but it (R80): P3's word without it. -/
theorem test_decode_diff_bit : decode 0x00004009#32 = .ok (.huffDc 0 true) ∧ decode 0x00000009#32 = .ok (.huffDc 0 false) := by
  decide

/-- A word of QUANT with a different value in each field, written out bit by bit from R80: QSEL 10, DST 01, SRC 11. -/
theorem test_encode_fields_apart : encode (.quant 3 1 2) = 0b00000000000000000_0_10_01_11_00000011#32 ∧
    decode 0b00000000000000000_0_10_01_11_00000011#32 = .ok (.quant 3 1 2) := by decide

/-- The host's probe: a bare row of fewer bits than a word. -/
theorem test_decodeTableWord : decodeTableWord 32 0x00000401 = some (.fdct 0 1) ∧ decodeTableWord 8 0x0D = some .streamReset ∧
    decodeTableWord 32 0x0000000E = none := by decide

/-! ## The transform -/

/-- T-FDCT-1: 64 samples of 255.0. -/
theorem test_fdct_flat : fdctReference (fun _ => 0x0000FF00#32) 0 = 522240 := by decide +kernel

/-- T-FDCT-4: the impulse, at (0,1) and (3,5). -/
theorem test_fdct_impulse : [1, 29].map (fdctReference fun i => if i = 0 then 0x00010000#32 else 0) = [11363, 7568] := by decide +kernel

/-- T-IDCT-2: word 1 holds 100.0; columns 1 and 7 of row 5 of the answer. -/
theorem test_idct_row : [41, 47].map (idctReference fun i => if i = 1 then 0x00006400#32 else 0) = [3763, -4439] := by decide +kernel

/-- T-IDCT-1: word 0 holds 16.0. -/
theorem test_idct_dc : idctReference (fun i => if i = 0 then 0x00001000#32 else 0) 37 = 512 := by decide +kernel

/-- R104: an answer 1 off the ideal value is allowed, one 2 off is not (T-IDCT-1: every realization answers 511 to 513). -/
theorem test_bound_of_realizations :
    [510, 511, 512, 513, 514].map (withinDctErr (inverse16 (fun i => if i = 0 then 0x00001000#32 else 0) 4 5)) =
    [false, true, true, true, false] := by decide +kernel

/-! ## The quantizer -/

/-- T-Q-1, T-Q-4, T-Q-9, T-Q-12, T-Q-15, T-Q-16. -/
theorem test_quant_lanes :
    quantLane 0x0007F800#32 16 = (0x80#32, false) ∧ quantLane 0xFFFFFE80#32 1 = (0xFFFFFFFE#32, false) ∧
    quantLane 0xFFFFFF81#32 1 = (0#32, false) ∧ quantLane 0xFFFFF800#32 16 = (0xFFFFFFFF#32, false) ∧
    quantLane 0x80000000#32 1 = (0xFFFF8001#32, true) ∧ quantLane 0x7FFFFFFF#32 255 = (0x7FFF#32, true) := by decide

/-- T-Q-2 and T-Q-4 as a command with q3, into another buffer; OVF stays 0. -/
theorem test_quant_command :
    seen (exec (.quant 0 1 3) (withTile [522240, -384])) (fun t => (head 1 3 t, t.ovf, t.done)) =
      some ([2040, -2, 0], false, true) := by decide +kernel

/-- T-DQ-1, T-DQ-3, T-DQ-4, T-DQ-6, T-DQ-7. -/
theorem test_dequant_lanes :
    dequantLane 0xFFFFFFFD#32 16 = (0xFFFFD000#32, false) ∧ dequantLane 32767#32 255 = (0x7F7F0100#32, false) ∧
    dequantLane 0xFFFF8001#32 255 = (0x8080FF00#32, false) ∧ dequantLane 0x00800000#32 1 = (0x7FFFFFFF#32, true) ∧
    dequantLane 0x80000000#32 1 = (0x80000000#32, true) := by decide

/-- T-DQ-5 and T-DQ-6 as a command in place with q3: one lane saturates, so OVF is set. -/
theorem test_dequant_command :
    seen (exec (.dequant 0 0 3) (withTile [1, 8388608])) (fun t => (head 0 3 t, t.ovf, t.err)) =
      some ([256, 2147483647, 0], true, false) := by decide +kernel

/-! ## The zigzag permutation -/

/-- T-ZZ-1 and T-ZZ-4: the first eight words, into another buffer and in place. -/
theorem test_zigzag :
    [0, 1].map (fun d => seen (exec (.zigzag 0 d) (withTile ((List.range 64).map Int.ofNat))) (head d 8)) =
      [some [0, 1, 8, 16, 9, 2, 3, 10], some [0, 1, 8, 16, 9, 2, 3, 10]] := by decide +kernel

/-- T-ZZ-5: natural index 56 goes to zigzag index 35. -/
theorem test_zigzag_corner :
    seen (exec (.zigzag 0 1) (withTile (List.replicate 56 0 ++ [7]))) (fun t => t.tb[(1 : BufIx)][(35 : Fin 64)]) =
      some (some 7#32) := by decide +kernel

/-- T-ZZ-2. -/
theorem test_unzigzag :
    seen (exec (.unzigzag 0 3) (withTile ((List.range 64).map Int.ofNat))) (head 3 8) =
      some [0, 1, 5, 6, 14, 15, 27, 28] := by decide +kernel

/-! ## The run-length coder -/

/-- The symbols and SYMCNT after RLE_ENC. -/
def symbolsOf (o : Host.Outcome State Fault Refusal) : Option (List Word) :=
  seen o fun t => ((List.finRange 64).take t.symcnt.toNat).map fun j => t.sb[j].getD 0

/-- T-RLE-7: a run of 33 zeros. -/
theorem test_rle_enc_runs :
    symbolsOf (exec (.rleEnc 0) (withTile ([0, 5] ++ List.replicate 33 0 ++ [-3]))) =
      some [0x00030005#32, 0x00F00000#32, 0x00F00000#32, 0x0012FFFD#32, 0#32] := by decide +kernel

/-- T-RLE-3: a single nonzero value at the last place, no EOB; and T-RLE-2: the DC is not coded. -/
theorem test_rle_enc_last :
    symbolsOf (exec (.rleEnc 0) (withTile (List.replicate 63 0 ++ [1]))) =
      some [0x00F00000#32, 0x00F00000#32, 0x00F00000#32, 0x00E10001#32] ∧
    symbolsOf (exec (.rleEnc 0) (withTile [99])) = some [0#32] := by decide +kernel

/-- The sequence with these values, then zeros. -/
def seqOf (xs : List Int) (i : Fin 64) : Int := xs.getD i.val 0

/-- T-RLE-7, T-RLE-8, T-RLE-12 and T-RLE-1: the statement's own symbols, with and without EOB. -/
theorem test_symbols_of_sequence :
    sequenceSymbols (seqOf ([0, 5] ++ List.replicate 33 0 ++ [-3])) =
      [0x00030005#32, 0x00F00000#32, 0x00F00000#32, 0x0012FFFD#32, 0#32] ∧
    sequenceSymbols (seqOf (List.replicate 62 0 ++ [-2, 3])) =
      [0x00F00000#32, 0x00F00000#32, 0x00F00000#32, 0x00D2FFFE#32, 0x00020003#32] ∧
    sequenceSymbols (seqOf (List.replicate 33 0 ++ [2])) = [0x00F00000#32, 0x00F00000#32, 0x00020002#32, 0#32] ∧
    sequenceSymbols (seqOf []) = [0#32] := by decide +kernel

/-- T-RLE-14: RANGE with the lowest bad index. -/
theorem test_rle_enc_range :
    seen (exec (.rleEnc 0) (withTile [0, 0, 0, 0, 0, 32768, 0, 0, 0, -40000])) errorOf =
      some (true, false, .range, 5#32) := by decide +kernel

/-- T-RLE-22: RUN 3, the high bits and SIZE not checked; and word 0 kept (R149). -/
theorem test_rle_dec_place :
    seen (exec (.rleDec 0) { withSymbols [0xFF345678] 1 with tb := written.tb.set 0 (wordsOf [99, 1, 1, 1, 1, 1]) }) (head 0 6) =
      some [99, 0, 0, 0, 22136, 0] := by decide +kernel

/-- T-RLE-18 and T-RLE-19: the last place, and a symbol past it dropped. -/
theorem test_rle_dec_end :
    [[0xF00000, 0xF00000, 0xF00000, 0xE1FFFF], [0xF00000, 0xF00000, 0xF00000, 0xF00000, 0x10001]].map
      (fun l : List Int => seen (exec (.rleDec 1) (withSymbols l (BitVec.ofNat 7 l.length))) fun t => (head 1 64 t).drop 61) =
    [some [0, 0, -1], some [0, 0, 0]] := by decide +kernel

/-- T-RLE-18 to T-RLE-22: what the statement's own expansion gives at the coefficient the vector names. -/
theorem test_expansion_of_symbols :
    expandedCoefficient [0xF00000#32, 0xF00000#32, 0xF00000#32, 0xE1FFFF#32] 63 = -1 ∧
    (∀ i, expandedCoefficient [0xF00000#32, 0xF00000#32, 0xF00000#32, 0xF00000#32, 0x10001#32] i = 0) ∧
    (∀ i, expandedCoefficient [0xF00000#32, 0xF00000#32, 0xF00000#32, 0xF1FFFF#32, 0x10001#32] i = 0) ∧
    (∀ i : Fin 64, i ≠ 0 → expandedCoefficient [0x10001#32, 0x0#32, 0x10007#32] i = if i = 1 then 1 else 0) ∧
    (∀ i : Fin 64, i ≠ 0 → expandedCoefficient [0xFF345678#32] i = if i = 4 then 22136 else 0) := by decide +kernel

/-! ## The entropy coder -/

/-- T-HUF-8 and T-HUF-4: DC = 2040 and DC = -7. -/
theorem test_huff_dc :
    [[2040], [-7]].map (fun l => seen (exec (.huffDc 0 false) (withTile l)) fun t => (stream t, t.prevDc.toInt)) =
      [some ((3, [0xFF, 0x00, 0x7F], 4, 0b1000), 2040), some ((0, [], 6, 0b100000), -7)] := by decide +kernel

/-- T-HUF-19 and T-HUF-39: the difference does not wrap; CAPACITY with the length needed. -/
theorem test_huff_dc_errors :
    seen (exec (.huffDc 0 true) { withTile [-2147483648] with prevDc := 0x7FFFFFFF#32 }) errorOf =
      some (true, false, .table, 32#32) ∧
    seen (exec (.huffDc 0 false) { withTile [2040] with obLen := 4095 }) (fun t => (errorOf t, t.prevDc, t.obLen)) =
      some ((true, false, .capacity, 4098#32), 0#32, 4095) := by decide +kernel

/-- T-HUF-35: the symbols of T-RLE-7. -/
theorem test_huff_ac :
    seen (exec .huffAc (withSymbols [0x00030005, 0x00F00000, 0x00F00000, 0x0012FFFD, 0] 5)) stream =
      some (5, [0x97, 0xFC, 0xFF, 0x00, 0x9D], 7, 0b1001010) := by decide +kernel

/-- T-HUF-29 and T-ER-10: TABLE with the symbol's index, and CAPACITY before TABLE. -/
theorem test_huff_ac_errors :
    seen (exec .huffAc (withSymbols [0, 0x00100000] 2)) errorOf = some (true, false, .table, 1#32) ∧
    seen (exec .huffAc (withSymbols [0x00100000] 70)) errorOf = some (true, false, .capacity, 70#32) := by decide +kernel

/-- T-HUF-9, T-HUF-10 and T-HUF-12. -/
theorem test_bits_flush :
    [(4, 0b0100), (7, 0b1111111), (0, 0)].map (fun p : BitVec 3 × BitVec 7 =>
      seen (exec .bitsFlush { written with bitCnt := p.1, bitAcc := p.2 }) stream) =
    [some (1, [0x4F], 0, 0), some (2, [0xFF, 0x00], 0, 0), some (0, [], 0, 0)] := by decide +kernel

/-- T-HUF-36. -/
theorem test_bits_flush_full :
    seen (exec .bitsFlush { written with bitCnt := 7, bitAcc := 0b1111111, obLen := 4095 }) (fun t => (errorOf t, t.bitCnt)) =
      some ((true, false, .capacity, 4097#32), 7) := by decide +kernel

/-! ## Control commands -/

/-- T-CT-4: NOP with CFG.TILE_N = 4. -/
theorem test_nop : seen (exec .nop { written with tileN := 4 }) errorOf = some (false, true, .none, 0#32) := by decide

/-- T-CT-2. -/
theorem test_out_clear :
    seen (exec .outClear { written with obLen := 4, bitCnt := 5, bitAcc := 0b01010 }) (fun t => (t.obLen, t.bitCnt, t.bitAcc)) =
      some (0, 5, 0b01010) := by decide

/-- T-CT-3. -/
theorem test_stream_reset :
    seen (exec .streamReset { written with obLen := 5, bitCnt := 5, bitAcc := 0x0A, prevDc := 0xFFFFFFF9#32 })
      (fun t => (t.obLen, t.bitstateWord, t.prevDc)) = some (0, 0#32, 0#32) := by decide

/-! ## Acceptance, errors, interrupt, host port -/

/-- T-ER-1, T-ER-8 and T-ER-9: an illegal word; CONFIG; ILLEGAL before CONFIG. -/
theorem test_engine_errors :
    seen (engineStep { written with pending := some 0x0E#32 }) (fun t => (errorOf t, t.errInfo, t.busy)) =
      some ((true, false, .illegal, 0#32), 0x0E#32, false) ∧
    seen (engineStep { written with pending := some 0x401#32, tileN := 4 }) errorOf = some (true, false, .config, 0#32) ∧
    seen (engineStep { written with pending := some 0x10401#32, tileN := 4 }) errorOf =
      some (true, false, .illegal, 0#32) := by decide

/-- T-ER-11 and T-ER-12: a CMD write while busy, and while ERR is 1. -/
theorem test_cmd_dropped :
    let drop (s : State) := let t := hostWriteCmd 0 s; (t.haz, t.pending, t.lastcmd, t.errCode)
    drop { written with pending := some 1#32, lastcmd := 1#32 } = (true, some 1#32, 1#32, .none) ∧
    drop { written with err := true, errCode := .table } = (true, none, 0#32, .table) := by decide

/-- T-ER-13, T-ER-15 and T-ER-16: acknowledging, and IRQ. -/
theorem test_status_and_irq :
    let e : State := { written with err := true, errCode := .illegal }
    (e.writeStatus 0x4#32).err = false ∧ (e.writeStatus 0x4#32).errCode = .illegal ∧ (e.writeCtrl 2#32).irq = true ∧
    ((e.writeCtrl 2#32).writeStatus 0x4#32).irq = false ∧
    (({ written with done := true } : State).writeCtrl 1#32).irq = true := by decide

/-- P4's step 7: STATUS with ERR and HAZ is 0x14. -/
theorem test_status_word : ({ written with err := true, haz := true } : State).statusWord = 0x14#32 := by decide

/-- T-ER-17, T-ER-18, T-ER-14: the map at its edges (R62, R47), and a busy write. -/
theorem test_locate_and_busy :
    [0x000, 0x02C, 0x030, 0x1000, 0x13FC, 0x1400, 0x20FC, 0x3FFC, 0x40FC, 0x4100].map locate =
      [.id, .prevDc, .reserved, .tileWord 0 0, .tileWord 3 63, .reserved, .symbolWord 63, .outputWord 1023, .quantWord 3 15,
        .reserved] ∧
    (hostWrite (.tileWord 0 0) 5#32 { written with pending := some 0#32 }).haz = true := by decide

/-- T-ER-20 and P3's BITSTATE. -/
theorem test_reads :
    ({ written with ob := [(0, 0xFF#8), (1, 0x00#8), (2, 0x7F#8), (3, 0x8A#8)], obLen := 4 } : State).idleRead 0
      (.outputWord 0) = 0x8A7F00FF#32 ∧
    ({ written with bitCnt := 5, bitAcc := 0b01010 } : State).bitstateWord = 0x0000050A#32 := by decide

/-- A command placed at reset is run by the very next step (log 14). -/
theorem test_withFetchWord :
    seen (step (State.reset.withFetchWord 32 0x0000000C)) (fun t => (t.done, t.lastcmd, t.pending)) =
      some (true, 0x0C#32, none) := by decide

/-- The bound on `bitCnt` pending bits, T-HUF-10's: canonical memory after two appended bytes. -/
theorem test_memory_canonical :
    Memory.writeBytes [] 3 [0xFF#8, 0x00#8] = [(3, 0xFF#8), (4, 0x00#8)] ∧
    Memory.wf (Memory.writeBytes [(4, 1#8)] 3 [0xFF#8, 0x00#8]) := by decide

/-! ## Witnesses: the hypotheses of the statements hold together

Named after the statements. A statement without hypotheses has none. -/

/-- A command pending, nothing else. -/
def pendingWord (w : Word) : State := { written with pending := some w, lastcmd := w }

theorem witness_EncodeOfDecodeIsTheWord : decode 0x00003503#32 = .ok (.quant 1 1 3) := by decide

theorem witness_WordIsCommandExactlyWhenItFitsTheRow :
    (decode 0x0000000D#32 = .ok .streamReset ∧ (⟨"STREAM_RESET", 0xFFFFFFFF#32, 0x0000000D#32⟩ : OpcodeRow) ∈ opcodeTable) ∧
    (∀ r ∈ opcodeTable, r.fits 0x0000000E#32 = false) ∧ (pendingWord 0x0E#32).pending = some 0x0E#32 := by decide

/-- The last opcode that is a command's, the first that is none's, and the lowest bit a NOP does not use. -/
theorem witness_IllegalWordsByOpcodeAndUsedBits :
    ((0x0D#32).extractLsb' 0 8).toNat ≤ 0x0D ∧ 0x0D#32 &&& ~~~usedMask 0x0D = 0 ∧
    0x0D < ((0x0E#32).extractLsb' 0 8).toNat ∧ 0x100#32 &&& ~~~usedMask 0 ≠ 0 ∧
    (pendingWord 0x0E#32).pending = some 0x0E#32 ∧ (pendingWord 0x100#32).pending = some 0x100#32 := by decide

theorem witness_StepRunsTheDecodedCommand :
    ((pendingWord 0x401#32).pending = some 0x401#32 ∧ decode 0x401#32 = .ok (.fdct 0 1) ∧ (pendingWord 0x401#32).inputs = []) ∧
    ({ pendingWord 0x401#32 with inputs := [.engineTurn, .releaseReset] } : State).inputs = .engineTurn :: [.releaseReset] ∧
    decode (BitVec.ofNat 32 (0x401 % 2 ^ 32)) = .ok (.fdct 0 1) := by
  refine ⟨⟨rfl, by decide, rfl⟩, rfl, by decide⟩

theorem witness_EngineIdleWithoutCommand :
    written.pending = none ∧ written.inputs = [] ∧
    ({ written with inputs := [.engineTurn] } : State).inputs = .engineTurn :: [] := ⟨rfl, rfl, rfl⟩

theorem witness_CmdWriteAcceptedOrDropped :
    (written.resetLine = false ∧ written.busy = false ∧ written.err = false) ∧ (pendingWord 0#32).busy = true ∧
    ({ written with err := true, errCode := .table } : State).err = true := by decide

theorem witness_RunEndsWithNothingPending :
    (∃ t, Host.Core.run Sys2Proof.core ((pendingWord 0#32).inputs.length + 1) (pendingWord 0#32) = .next t) ∧
    ∀ m ∈ [HostMove.engineTurn, .assertReset, .releaseReset], ∃ t, runOver { written with inputs := [m] } ∧
      step { written with inputs := [m] } = .next t := by
  refine ⟨⟨_, rfl⟩, fun m hm => ?_⟩
  simp only [List.mem_cons, List.not_mem_nil, or_false] at hm
  rcases hm with rfl | rfl | rfl <;> exact ⟨_, ⟨by simp [hostDone, isAccess], rfl⟩, rfl⟩

/-- R245: a run ends with the command's commit, before a reset that comes after the host's last access. -/
theorem test_run_ends_before_later_reset :
    ∃ t, RunEnds { pendingWord 0#32 with inputs := [.engineTurn, .assertReset] } 1 t ∧ t.done = true := by
  refine ⟨_, ⟨rfl, ⟨show ∀ m ∈ [HostMove.assertReset], isAccess m = false by decide, rfl⟩, fun j hj u hu => ?_⟩, rfl⟩
  obtain rfl : j = 0 := by omega
  cases hu
  exact fun h => nomatch h.2

/-- A host write of CMD while a command is pending. -/
theorem witness_PendingCommandInputsCannotChange : ∃ s t : State, ∃ m : HostMove, s.pending = some 0x401#32 ∧
    s.inputs = m :: [] ∧ m ≠ .engineTurn ∧ m ≠ .assertReset ∧ step s = .next t :=
  ⟨{ pendingWord 0x401#32 with inputs := [.write (Config.coreBase + 0x00C) 4 0#32] }, _, _, rfl, rfl, nofun, nofun,
    step_write_inside (s := pendingWord 0x401#32) 0#32 [] (by norm_num) (by norm_num) rfl⟩

/-- Both ends of every range, and every single offset. -/
theorem witness_BusyDataAccesses :
    (pendingWord 0#32).busy = true ∧ (pendingWord 0#32).resetLine = false ∧
    (∀ off ∈ [0x1000, 0x13FC, 0x2000, 0x20FC, 0x01C, 0x020, 0x02C], off % 4 = 0 ∧
      ((0x1000 ≤ off ∧ off < 0x1400) ∨ (0x2000 ≤ off ∧ off < 0x2100) ∨ off = 0x01C ∨ off = 0x020 ∨ off = 0x02C)) ∧
    (∀ off ∈ [0x1000, 0x13FC, 0x2000, 0x20FC, 0x3000, 0x3FFC, 0x020, 0x024, 0x028, 0x02C], off % 4 = 0 ∧
      ((0x1000 ≤ off ∧ off < 0x1400) ∨ (0x2000 ≤ off ∧ off < 0x2100) ∨ (0x3000 ≤ off ∧ off < 0x4000) ∨ off = 0x020 ∨
        off = 0x024 ∨ off = 0x028 ∨ off = 0x02C)) := by decide

theorem witness_EveryCommandCommitsOrChangesNothing : (pendingWord 0x0A#32).pending = some 0x0A#32 := rfl

/-- The first and the last of the opcodes. -/
theorem witness_TileSizeMismatchIsConfigError :
    (0x01 ≤ (encode (.fdct 0 1) &&& 0xFF#32).toNat ∧ (encode (.fdct 0 1) &&& 0xFF#32).toNat ≤ 0x0A) ∧
    (0x01 ≤ (encode .huffAc &&& 0xFF#32).toNat ∧ (encode .huffAc &&& 0xFF#32).toNat ≤ 0x0A) ∧
    ({ written with tileN := 4 } : State).tileN ≠ 8 := by decide

theorem witness_RegisterReads :
    written.resetLine = false ∧ written.busy = false ∧
    ∀ p ∈ [(ErrCode.none, 0), (.illegal, 1), (.config, 2), (.capacity, 3), (.table, 4), (.range, 5)],
      ({ written with errCode := p.1 } : State).errCode = p.1 := by decide

theorem witness_HostReadChangesNothing : ∃ t, ∃ s : State, s.inputs = .read (Config.coreBase + 0x008) 4 :: [] ∧
    step s = .next t :=
  ⟨_, { written with inputs := [.read (Config.coreBase + 0x008) 4] }, rfl,
    step_read_inside (s := written) [] (by norm_num) (by norm_num) rfl⟩

theorem witness_TileWordAccess :
    written.busy = false ∧ written.resetLine = false ∧ (withTile [5]).tb[(0 : BufIx)][(0 : Fin 64)] = some 5#32 ∧
    written.tb[(3 : BufIx)][(63 : Fin 64)] = some 0#32 := by decide +kernel

theorem witness_SymbolWordAccess :
    written.busy = false ∧ written.resetLine = false ∧ written.sb[(63 : Fin 64)] = some 0#32 := by decide +kernel

theorem witness_HostWritesOfRegisters : written.resetLine = false ∧ written.busy = false := by decide

theorem witness_StatusWriteOneToClear : ({ pendingWord 0#32 with err := true } : State).resetLine = false := rfl

/-- Both ends of every range, and every single offset. -/
theorem witness_ReservedAndReadOnlyOffsets :
    written.resetLine = false ∧
    (∀ off ∈ [0x030, 0xFFC, 0x1400, 0x1FFC, 0x2100, 0x2FFC, 0x4100, 0x7FFC], off % 4 = 0 ∧ off < 0x8000 ∧
      ((0x030 ≤ off ∧ off < 0x1000) ∨ (0x1400 ≤ off ∧ off < 0x2000) ∨ (0x2100 ≤ off ∧ off < 0x3000) ∨ 0x4100 ≤ off)) ∧
    (∀ off ∈ [0x000, 0x010, 0x014, 0x018, 0x024, 0x028, 0x3000, 0x40FC], off % 4 = 0 ∧ off < 0x8000 ∧
      (off = 0x000 ∨ off = 0x010 ∨ off = 0x014 ∨ off = 0x018 ∨ off = 0x024 ∨ off = 0x028 ∨
        (0x3000 ≤ off ∧ off < 0x4100))) := by decide

/-- Four bytes of OB at these indices, the last below OB_LEN. -/
def fourBytes (k : Nat) : State :=
  { written with ob := [(k, 1#8), (k + 1, 2#8), (k + 2, 3#8), (k + 3, 4#8)], obLen := BitVec.ofNat 13 (k + 4) }

/-- The first and the last word of OB: all four bytes below OB_LEN, and OB_LEN inside the word; the last word of a table. -/
theorem witness_ByteWordsAreLittleEndian :
    (∀ m ∈ [0, 1023], m < 1024 ∧ (fourBytes (4 * m)).resetLine = false ∧ (fourBytes (4 * m)).busy = false ∧
      (∀ j < 4, 4 * m + j < (fourBytes (4 * m)).obLen.toNat ∧
        Memory.read (fourBytes (4 * m)).ob (4 * m + j) = some (BitVec.ofNat 8 (j + 1))) ∧
      (let s : State := { fourBytes (4 * m) with obLen := BitVec.ofNat 13 (4 * m + 1) }
       s.resetLine = false ∧ s.busy = false ∧ 4 * m + 0 < s.obLen.toNat ∧ s.obLen.toNat ≤ 4 * m + 1 ∧
        Memory.read s.ob (4 * m + 0) = some 1#8)) ∧
    ((60 : Fin 64).val = 4 * (15 : Fin 16).val ∧ (61 : Fin 64).val = 4 * (15 : Fin 16).val + 1 ∧
      (62 : Fin 64).val = 4 * (15 : Fin 16).val + 2 ∧ (63 : Fin 64).val = 4 * (15 : Fin 16).val + 3) := by decide +kernel

/-- A byte access at the last offset, and a word access at the last odd one. -/
theorem witness_UnsupportedAccessRefused :
    (0x7FFC < 0x8000 ∧ (1 ≠ 4 ∨ 0x7FFC % 4 ≠ 0)) ∧ (0x7FFF < 0x8000 ∧ (4 ≠ 4 ∨ 0x7FFF % 4 ≠ 0)) := by
  decide

/-- The first address past the window, and one below a window that does not start at 0. -/
theorem witness_OtherAddressesUnseen :
    (∃ addr, Config.coreBase + 0x8000 ≤ addr) ∧ (0 < Config.coreBase → ∃ addr, addr < Config.coreBase) :=
  ⟨⟨_, le_refl _⟩, fun h => ⟨0, h⟩⟩

/-- By reset, by acknowledging, and by masking. -/
theorem witness_IrqFallsOnlyByAcknowledgeOrMask : ∀ m ∈ [HostMove.assertReset,
    .write (Config.coreBase + 0x008) 4 2#32, .write (Config.coreBase + 0x004) 4 0#32],
    ∃ s t : State, s.inputs = [m] ∧ step s = .next t ∧ s.irq = true ∧ t.irq = false := by
  intro m hm
  simp only [List.mem_cons, List.not_mem_nil, or_false] at hm
  rcases hm with rfl | rfl | rfl
  · exact ⟨{ written with inputs := [.assertReset], done := true, ieDone := true }, _, rfl, rfl, rfl, rfl⟩
  · exact ⟨{ written with inputs := [_], done := true, ieDone := true }, _, rfl,
      step_write_inside (s := { written with done := true, ieDone := true }) 2#32 [] (by norm_num) (by norm_num) rfl, rfl, rfl⟩
  · exact ⟨{ written with inputs := [_], done := true, ieDone := true }, _, rfl,
      step_write_inside (s := { written with done := true, ieDone := true }) 0#32 [] (by norm_num) (by norm_num) rfl, rfl, rfl⟩

/-- While a command is pending; the first and the last offset. -/
theorem witness_ResetFromAnyState :
    ({ pendingWord 0x401#32 with inputs := [.assertReset] } : State).inputs = .assertReset :: [] ∧
    (0x0000 % 4 = 0 ∧ 0x0000 < 0x8000) ∧ 0x7FFC % 4 = 0 ∧ 0x7FFC < 0x8000 := ⟨rfl, by decide⟩

theorem witness_UnwrittenLocationsReadFree :
    State.reset.busy = false ∧ State.reset.resetLine = false ∧ State.reset.tb[(3 : BufIx)][(63 : Fin 64)] = none ∧
    State.reset.sb[(63 : Fin 64)] = none ∧ (State.reset.obLen.toNat ≤ 4 * 0 ∧ 0 < 1024) ∧
    (State.reset.obLen.toNat ≤ 4 * 1023 ∧ 1023 < 1024) ∧
    (({ written with obLen := 1 } : State).busy = false ∧ ({ written with obLen := 1 } : State).resetLine = false ∧
      ({ written with obLen := 1 } : State).obLen.toNat ≤ 4 * 0 + 1 ∧ 1 < 4) ∧ written.tb[(3 : BufIx)][(63 : Fin 64)] = some 0#32 ∧
    written.sb[(63 : Fin 64)] = some 0#32 := by decide +kernel

theorem witness_TransformCommandsComplete : State.reset.tileN = 8 := rfl

theorem witness_TransformAccuracy : fdctReference (fun _ => 0#32) (at8 7 7) = fdctReference (fun _ => 0#32) (at8 7 7) ∧
    256 * idealForward (fxTile fun _ => 0#32) 7 7 = 256 * idealForward (fxTile fun _ => 0#32) 7 7 ∧
    (∀ y ∈ [(-1 : Int), 0, 1], |(y : ℝ) - 256 * idealForward (fxTile fun _ => 0#32) 7 7| ≤ 1 ∧
      |(y : ℝ) - 256 * idealInverse (fxTile fun _ => 0#32) 7 7| ≤ 1) := by
  refine ⟨rfl, rfl, ?_⟩
  simp [idealForward, idealInverse, fxTile, sint32]

theorem witness_FlatTileHasNoAc :
    (∀ i : Fin 64, (fun _ => 0x0000FF00#32 : Tile) i = 0x0000FF00#32) ∧ (63 : Fin 64) ≠ 0 ∧ 1 ≤ 1 ∧ 1 ≤ 255 ∧
    255 ≤ 255 := by decide

theorem tile_written (b : BufIx) : written.tile b = fun _ => 0#32 := by
  apply tile_of_written
  intro i
  have : ∀ (b : BufIx) (i : Fin 64), written.tb[b][i] = some 0#32 := by decide +kernel
  exact this b i

theorem witness_ByteSamplesDoNotSaturate :
    written.tileN = 8 ∧ (∀ i, -128 * 256 ≤ (written.tile 0 i).toInt ∧ (written.tile 0 i).toInt ≤ 255 * 256) ∧
    (-128 * 256 ≤ (0xFFFF8000#32).toInt ∧ (0x0000FF00#32).toInt ≤ 255 * 256) := by
  refine ⟨rfl, fun i => ?_, by decide⟩
  rw [tile_written]
  show -128 * 256 ≤ (0#32).toInt ∧ (0#32).toInt ≤ 255 * 256
  decide

/-- Integers this small do not saturate. -/
theorem small_no_ovf {y : Fin 64 → Int} (h : ∀ i, |(y i : ℝ)| ≤ 257) : anyLane (fun i => sat32 (y i) != y i) = false := by
  rw [← Bool.not_eq_true, anyLane_iff]
  rintro ⟨i, hi⟩
  rw [sat32_ne_iff] at hi
  have h' : |y i| ≤ 257 := by exact_mod_cast h i
  rw [abs_le] at h'
  omega

/-- The answers of the forward transform for a tile of zeros. -/
theorem fdct_zero (i : Fin 64) : |(fdctImpl (fun _ => 0#32) i : ℝ)| ≤ 1 := by
  have h := fdctImpl_within (fun _ => 0#32) i
  have hz := abs_forward16_le (fun _ => 0#32) (rowOf i) (colOf i) (B := 0) le_rfl fun i => by simp [sint32]
  rw [abs_le] at *
  constructor <;> linarith

/-- The state FDCT of a tile of zeros leaves. -/
def afterFdct : State := (commitCommand (storeSaturated written 1 (fdctImpl fun _ => 0#32))).useDraws

theorem afterFdct_tile : afterFdct.tile 1 = fun i => wordOf (sat32 (fdctImpl (fun _ => 0#32) i)) :=
  tile_of_written (s := afterFdct) (fun i => writeTile_same written 1 _ i)

theorem afterFdct_small (i : Fin 64) : |(sint32 (afterFdct.tile 1 i) : ℝ)| ≤ 1 := by
  have h := fdct_zero i
  have h' : |fdctImpl (fun _ => 0#32) i| ≤ 1 := by exact_mod_cast h
  rw [abs_le] at h'
  rw [afterFdct_tile, show sint32 (wordOf (sat32 (fdctImpl (fun _ => 0#32) i))) = fdctImpl (fun _ => 0#32) i by
    unfold sint32; rw [toInt_wordOf_sat32]; omega]
  exact h

theorem idct_small (i : Fin 64) : |(idctImpl (afterFdct.tile 1) i : ℝ)| ≤ 257 := by
  have h := idctImpl_within (afterFdct.tile 1) i
  have hz := abs_inverse16_le (afterFdct.tile 1) (rowOf i) (colOf i) (B := 1) (by norm_num) afterFdct_small
  rw [abs_le] at *
  constructor <;> linarith

theorem afterFdct_ovf : afterFdct.ovf = false := by
  unfold afterFdct
  rw [State.useDraws_ovf, commitCommand_ovf, storeSaturated_ovf,
    small_no_ovf fun i => (fdct_zero i).trans (by norm_num)]
  rfl

/-- Neither transform of a tile of zeros saturates, whatever the realizations are. -/
theorem witness_TransformRoundTrip : ∃ s2 : State, written.tileN = 8 ∧ written.ovf = false ∧
    exec (.fdct 0 1) written = .next afterFdct ∧ exec (.idct 1 2) afterFdct = .next s2 ∧ s2.ovf = false := by
  refine ⟨(commitCommand (storeSaturated afterFdct 2 (idctImpl (afterFdct.tile 1)))).useDraws, rfl, rfl, ?_, ?_, ?_⟩
  · simp only [exec, execFdct]
    rw [withTileN_eight rfl, tile_written]
    rfl
  · simp only [exec, execIdct]
    rw [withTileN_eight rfl]
    rfl
  · rw [State.useDraws_ovf, commitCommand_ovf, storeSaturated_ovf, afterFdct_ovf, small_no_ovf idct_small]
    rfl

/-- The least and the largest divisor, on the least word; the tie of T-Q-10. -/
theorem witness_QuantLaneRoundsHalfAway :
    (1 ≤ 1 ∧ 1 ≤ 255) ∧ (1 ≤ 255 ∧ 255 ≤ 255) ∧
    2 * |(2048#32).toInt - 256 * (16 : Nat) * quantExact 2048#32 16| = 256 * (16 : Nat) := by decide

theorem witness_QuantCommandsComplete : written.tileN = 8 := rfl

theorem witness_QuantizationBound :
    (1 ≤ 255 ∧ 255 ≤ 255) ∧ (quantLane 0x7FFFFFFF#32 1).2 = true ∧ (quantLane 0x7FFFFF#32 255).2 = false ∧
    2 * |(8388479#32).toInt| < 65535 * (256 * ((1 : Nat) : Int)) := by decide

theorem witness_IdentityTablePassesIntegers :
    ((8388352#32).toInt = 256 * 32767 ∧ |(32767 : Int)| ≤ 32767) ∧
    ((4286578944#32).toInt = 256 * (-32767) ∧ |(-32767 : Int)| ≤ 32767) := by decide

theorem witness_ZigzagCommandsComplete : written.tileN = 8 := rfl

theorem witness_ZigzagRoundTrip :
    ∃ s1 s2 : State, written.tileN = 8 ∧ exec (.zigzag 0 0) written = .next s1 ∧ exec (.unzigzag 0 1) s1 = .next s2 :=
  ⟨_, _, rfl, rfl, rfl⟩

theorem witness_ZigzagRoundTrip_other :
    ∃ s1 s2 : State, written.tileN = 8 ∧ exec (.unzigzag 0 0) written = .next s1 ∧ exec (.zigzag 0 1) s1 = .next s2 :=
  ⟨_, _, rfl, rfl, rfl⟩

theorem witness_MagnitudeCategory : (-1 : Int) ≠ 0 ∧ (32767 : Int) ≠ 0 := by decide

/-- The ends of the range. -/
def edgeTile : State := withTile [0, 32767, -32767]

theorem witness_RleEncCompletes :
    edgeTile.tileN = 8 ∧ (∀ i : Fin 64, i ≠ 0 → -32767 ≤ (edgeTile.tile 0 i).toInt ∧ (edgeTile.tile 0 i).toInt ≤ 32767) ∧
    (0 : Fin 64).val < (sequenceSymbols fun k => (edgeTile.tile 0 k).toInt).length ∧
    (sequenceSymbols fun k => (edgeTile.tile 0 k).toInt).length ≤ (3 : Fin 64).val := by decide +kernel

/-- Just outside the range at the first index: below it. -/
theorem witness_RleEncRangeError :
    (withTile [0, -32768]).tileN = 8 ∧ (1 : Fin 64) ≠ 0 ∧ ((withTile [0, -32768]).tile 0 1).toInt < -32767 ∧
    (∀ k : Fin 64, k ≠ 0 → ¬ k < 1) := by decide +kernel

/-- Just outside the range at the last index: above it. -/
theorem witness_RleEncRangeError_last :
    (63 : Fin 64) ≠ 0 ∧ 32767 < ((withTile (List.replicate 63 0 ++ [32768])).tile 0 63).toInt ∧
    (∀ k : Fin 64, k ≠ 0 → k < 63 → -32767 ≤ ((withTile (List.replicate 63 0 ++ [32768])).tile 0 k).toInt ∧
      ((withTile (List.replicate 63 0 ++ [32768])).tile 0 k).toInt ≤ 32767) := by decide +kernel

theorem witness_RleSymbolCount :
    (∀ i : Fin 64, i ≠ 0 → -32767 ≤ (fun _ => 0 : Fin 64 → Int) i ∧ (fun _ => 0 : Fin 64 → Int) i ≤ 32767) ∧
    eob ∈ rleEncode (fun _ => 0) ∧ symSize eob = 0 ∧ (rleEncode fun _ => 0)[0]? = some eob := by decide +kernel

theorem witness_ZeroRunsSubtractSixteen : (1 : Int) ≠ 0 ∧ (-32767 : Int) ≠ 0 := by decide

/-- The most symbols RLE_DEC takes, and one more. -/
theorem witness_RleDecCompletes :
    (written.tileN = 8 ∧ ({ written with symcnt := 64 } : State).symcnt.toNat ≤ 64) ∧
    64 < ({ written with symcnt := 65 } : State).symcnt.toNat ∧ (63 : Fin 64) ≠ 0 ∧ (1 : BufIx) ≠ 0 := by decide

theorem witness_RleRoundTrip : ∃ s1 s2 : State, edgeTile.tileN = 8 ∧
    (∀ i : Fin 64, i ≠ 0 → -32767 ≤ (edgeTile.tile 0 i).toInt ∧ (edgeTile.tile 0 i).toInt ≤ 32767) ∧
    exec (.rleEnc 0) edgeTile = .next s1 ∧ exec (.rleDec 1) s1 = .next s2 :=
  ⟨_, _, rfl, witness_RleEncCompletes.2.1, rfl, rfl⟩

theorem witness_HuffmanTablesAsPrinted :
    (11, 9, 0x1FE) ∈ dcTablePrinted ∧ (0xFA, 16, 0xFFFE) ∈ acTablePrinted ∧ 12 ≤ 12 := by decide

theorem witness_CodesAreSelfDelimiting :
    (10 : Fin 12) ≠ 11 ∧ (acEhuf 0x00).len ≠ 0 ∧ (acEhuf 0xFA).len ≠ 0 ∧ 0x00 ≠ 0xFA := by decide +kernel

/-- Also the first and the last bit of a size that does not fit the amplitude. -/
theorem witness_AmplitudeBitsFit : ((-1 : Int) ≠ 0 ∧ (2047 : Int) ≠ 0) ∧ cat 2047 ≠ 10 ∧ 0 < 10 ∧ 9 < 10 := by decide

/-- Nothing pending, and the most that can be. -/
theorem witness_PackerAppendsTheBits :
    ∀ p ∈ [(⟨0, 0, []⟩ : Packer), ⟨127, 7, []⟩], p.cnt < 8 ∧ p.acc < 2 ^ p.cnt := by decide

/-- The bytes HUFF_DC would append for the DC value in word 0 of buffer 0. -/
def dcBytes (s : State) : Nat :=
  let d := (s.tile 0 0).toInt
  ((Packer.start s).pushBits
    (bitsMsb (dcEhuf (cat d)).code (dcEhuf (cat d)).len ++ bitsMsb (ampBits d (cat d)) (cat d))).out.length

/-- T-HUF-8's tile, with OB this full. -/
def dcAt (len : BitVec 13) : State := { withTile [2040] with obLen := len }

/-- T-HUF-17; T-HUF-8 where it just fits; T-HUF-39. -/
theorem witness_HuffDcOutcome :
    written.tileN = 8 ∧ 11 < cat ((withTile [2048]).tile 0 0).toInt ∧
    (cat ((dcAt 4093).tile 0 0).toInt ≤ 11 ∧ (dcAt 4093).obLen.toNat + dcBytes (dcAt 4093) ≤ 4096) ∧
    (cat ((dcAt 4095).tile 0 0).toInt ≤ 11 ∧ 4096 < (dcAt 4095).obLen.toNat + dcBytes (dcAt 4095)) := by decide +kernel

/-- The key of a symbol word, as the statement computes it. -/
def acLen (w : Word) : Nat := (acEhuf (16 * symRun w + symSize w)).len

/-- The symbols HUFF_AC reads. -/
def acSyms (s : State) : List Word := ((List.finRange 64).map s.symbol).take s.symcnt.toNat

/-- T-HUF-21's symbol, with OB this full. -/
def zrlAt (len : BitVec 13) : State := { withSymbols [0x00F00000] 1 with obLen := len }

/-- The bytes HUFF_AC would append. -/
def acBytes (s : State) : Nat := ((Packer.start s).pushBits ((acSyms s).flatMap symbolBits)).out.length

/-- T-HUF-32 and T-HUF-29. -/
theorem witness_HuffAcOutcome :
    written.tileN = 8 ∧ 64 < (withSymbols [] 65).symcnt.toNat ∧
    ((withSymbols [0, 0x00100000] 2).symcnt.toNat ≤ 64 ∧ 1 < (acSyms (withSymbols [0, 0x00100000] 2)).length ∧
      ((acSyms (withSymbols [0, 0x00100000] 2)).map acLen) = [4, 0]) := by decide +kernel

/-- T-HUF-21 where it just fits, and where it does not. -/
theorem witness_HuffAcOutcome_fits :
    ((zrlAt 4094).symcnt.toNat = 1 ∧ (acSyms (zrlAt 4094)).map acLen = [11] ∧ acBytes (zrlAt 4094) = 2) ∧
    ((zrlAt 4095).symcnt.toNat = 1 ∧ (acSyms (zrlAt 4095)).map acLen = [11] ∧ acBytes (zrlAt 4095) = 2) := by decide +kernel

/-- Seven bits pending and OB full. -/
def sevenPending : State := { written with bitAcc := 127, bitCnt := 7, obLen := 4096 }

/-- Nothing pending; and seven bits pending when OB is full. -/
theorem witness_BitsFlushOutcome :
    (written.bitAcc.toNat < 2 ^ written.bitCnt.toNat ∧ written.bitCnt = 0) ∧
    (sevenPending.bitAcc.toNat < 2 ^ sevenPending.bitCnt.toNat ∧ sevenPending.bitCnt ≠ 0 ∧
      4096 < sevenPending.obLen.toNat + 1) := by decide

theorem streamInv_empty (s : State) (h1 : s.ob = []) (h2 : s.obLen = 0) (h3 : s.bitAcc = 0) : StreamInv s where
  wf := by rw [h1]; exact List.Pairwise.nil
  inRange k h := by rw [h1] at h; cases h
  written k h := by rw [h2] at h; exact absurd h (by simp)
  lenLe := by rw [h2]; decide
  accLt := by rw [h3]; exact Nat.two_pow_pos _

/-- A tile of zeros, then EOB. -/
theorem witness_TileAppendsAtMost416Bytes : ∃ s s1 s2 : State,
    StreamInv s ∧ s.err = false ∧ s.symcnt.toNat ≤ 63 ∧ exec (.huffDc 0 false) s = .next s1 ∧ s1.err = false ∧
    exec .huffAc s1 = .next s2 ∧ s2.err = false := by
  refine ⟨withSymbols [0] 1, got (exec (.huffDc 0 false) (withSymbols [0] 1)), got (exec .huffAc (got (exec (.huffDc 0 false) (withSymbols [0] 1)))),
    streamInv_empty _ rfl rfl rfl, rfl, by decide, rfl, ?_, rfl, ?_⟩ <;> decide +kernel

theorem witness_EveryStepKeepsTheStreamState : ∃ t, StreamInv State.reset ∧ step State.reset = .next t :=
  ⟨_, streamInv_empty _ rfl rfl rfl, rfl⟩

theorem witness_EveryStepKeepsTheStuffing : ∃ t, StreamInv State.reset ∧ StuffedInv State.reset ∧
    step State.reset = .next t :=
  ⟨_, streamInv_empty _ rfl rfl rfl, fun k hk => absurd hk (by simp [State.reset]), rfl⟩

theorem witness_EveryStepKeepsTheCommandRegisters : ∃ t, CommandInv (pendingWord 0#32) ∧
    step (pendingWord 0#32) = .next t :=
  ⟨_, ⟨fun _ h => Option.some.inj h, nofun, nofun, nofun⟩, rfl⟩

end Sys2Proof.Tests
end

/-! SUPPORT. Proofs of the statements on the architectural state (spec/10_state.md): the output buffer and the stream
invariant, the command registers, the host's register accesses, and the divisors. -/

namespace Sys2Proof.Machine

/-! ## Bytes appended to the output buffer -/

/-- Bytes written one after another read back in order, and every other index reads as before (R26, R168). -/
theorem Memory.read_writeBytes (m : List Host.Cell) (first : Nat) (bytes : List Byte) (k : Nat) :
    Memory.read (Memory.writeBytes m first bytes) k =
      if first ≤ k ∧ k < first + bytes.length then bytes[k - first]? else Memory.read m k := by
  induction bytes generalizing m first with
  | nil => simp [Memory.writeBytes]
  | cons b bs ih =>
    rw [Memory.writeBytes, ih, Memory.read_write, List.length_cons]
    rcases lt_trichotomy k first with hlt | rfl | hgt
    · rw [if_neg (by omega), if_neg (by omega), if_neg (by omega)]
    · simp
    · have hsub : k - first = (k - (first + 1)) + 1 := by omega
      rw [if_neg (show ¬ k = first by omega), hsub, List.getElem?_cons_succ]
      exact if_congr (by omega) rfl rfl

/-- After appending, an index holds a byte exactly when it is one of those appended or held one before. -/
theorem Memory.isSome_read_writeBytes (m : List Host.Cell) (first : Nat) (bytes : List Byte) (k : Nat) :
    (Memory.read (Memory.writeBytes m first bytes) k).isSome ↔
      (first ≤ k ∧ k < first + bytes.length) ∨ (Memory.read m k).isSome := by
  rw [Memory.read_writeBytes]
  split
  · rename_i h
    simp only [h, and_self, true_or, iff_true]
    rw [List.getElem?_eq_getElem (by omega)]
    rfl
  · rename_i h
    simp [h]

/-! ## The packer keeps its working copies in range -/

/-- The working copies hold fewer than 8 pending bits, and none above them (R28, R167). -/
def Packer.Within (p : Packer) : Prop := p.cnt < 8 ∧ p.acc < 2 ^ p.cnt

theorem Packer.within_start {s : State} (h : s.bitAcc.toNat < 2 ^ s.bitCnt.toNat) : (Packer.start s).Within :=
  ⟨s.bitCnt.isLt, h⟩

theorem Packer.within_pushBits {p : Packer} (bits : List Bool) (h : p.Within) : (p.pushBits bits).Within := by
  induction bits generalizing p with
  | nil => exact h
  | cons b bs ih =>
    obtain ⟨hcnt, hacc, -⟩ := pushBit_spec p b h.1 h.2
    exact ih ⟨hcnt, hacc⟩

theorem Packer.within_flush (p : Packer) : p.flush.Within := by
  unfold Packer.flush
  split <;> simp [Packer.Within]

/-- Copies in range go into BIT_ACC and BIT_CNT with no bit lost, so the registers are in range too (R28). -/
theorem Packer.Within.registers {p : Packer} (h : p.Within) :
    (BitVec.ofNat 7 p.acc).toNat < 2 ^ (BitVec.ofNat 3 p.cnt).toNat := by
  obtain ⟨hcnt, hacc⟩ := h
  have hacc' : p.acc < 2 ^ 7 := hacc.trans_le (Nat.pow_le_pow_right (by decide) (by omega))
  rwa [BitVec.toNat_ofNat, BitVec.toNat_ofNat, Nat.mod_eq_of_lt hacc', Nat.mod_eq_of_lt hcnt]

/-! ## The stream invariant -/

/-- The stream invariant speaks of OB, OB_LEN, BIT_ACC and BIT_CNT only. -/
theorem streamInv_of_kept {s t : State} (h : StreamInv s) (ob : t.ob = s.ob) (len : t.obLen = s.obLen)
    (acc : t.bitAcc = s.bitAcc) (cnt : t.bitCnt = s.bitCnt) : StreamInv t where
  wf := ob ▸ h.wf
  inRange := ob ▸ h.inRange
  written := by rw [ob, len]; exact h.written
  lenLe := len ▸ h.lenLe
  accLt := by rw [acc, cnt]; exact h.accLt

/-- Reset empties the stream (R230). -/
theorem streamInv_toReset (s : State) : StreamInv s.toReset where
  wf := .nil
  inRange _ h := by cases h
  written _ h := absurd h (Nat.not_lt_zero _)
  lenLe := Nat.zero_le _
  accLt := Nat.two_pow_pos _

/-- Appending bytes that fit keeps the stream invariant (R168, R169). -/
theorem streamInv_of_packed {s t : State} {p : Packer} (h : StreamInv s) (hp : p.Within)
    (fits : s.obLen.toNat + p.out.length ≤ 4096) (ob : t.ob = Memory.writeBytes s.ob s.obLen.toNat p.out)
    (len : t.obLen = BitVec.ofNat 13 (s.obLen.toNat + p.out.length)) (acc : t.bitAcc = BitVec.ofNat 7 p.acc)
    (cnt : t.bitCnt = BitVec.ofNat 3 p.cnt) : StreamInv t := by
  have hlen : t.obLen.toNat = s.obLen.toNat + p.out.length := by
    rw [len, BitVec.toNat_ofNat, Nat.mod_eq_of_lt (by omega)]
  refine ⟨ob ▸ Memory.wf_writeBytes _ _ h.wf, fun k hk => ?_, fun k hk => ?_, hlen ▸ fits, ?_⟩
  · rw [ob, Memory.isSome_read_writeBytes] at hk
    rcases hk with happended | hbefore
    · omega
    · exact h.inRange k hbefore
  · rw [ob, Memory.isSome_read_writeBytes]
    rcases Nat.lt_or_ge k s.obLen.toNat with hbefore | happended
    · exact .inr (h.written k hbefore)
    · exact .inl ⟨happended, by omega⟩
  · rw [acc, cnt]
    exact hp.registers

/-- Whatever a command does to the stream keeps the invariant (R26 to R28, R169, R186, R187). -/
theorem StreamChange.streamInv {s t : State} (c : StreamChange s t) (h : StreamInv s) : StreamInv t := by
  cases c with
  | kept ob len acc cnt => exact streamInv_of_kept h ob len acc cnt
  | packed p how fits ob len acc cnt =>
    have hp : p.Within := by
      rcases how with ⟨bits, rfl⟩ | rfl
      · exact Packer.within_pushBits bits (Packer.within_start h.accLt)
      · exact Packer.within_flush _
    exact streamInv_of_packed h hp fits ob len acc cnt
  | cleared ob len pending =>
    refine ⟨ob ▸ h.wf, ob ▸ h.inRange, fun k hk => ?_, by simp [len], ?_⟩
    · simp [len] at hk
    · rcases pending with ⟨acc, cnt⟩ | ⟨acc, cnt⟩
      · rw [acc, cnt]; exact h.accLt
      · rw [acc]; exact Nat.two_pow_pos _

theorem engineStep_streamInv {s t : State} (h : StreamInv s) (ht : engineStep s = .next t) : StreamInv t := by
  rcases engineStep_cases ht with ⟨-, rfl⟩ | ⟨w, -, ⟨v, c, aux, d, -, rfl⟩ | ⟨i, u, -, hexec, -, -⟩⟩
  · exact h
  · exact streamInv_of_kept h rfl rfl rfl rfl
  · exact (exec_stream hexec).streamInv h

/-- Settles O57: each step packs through `StreamChange`, empties the stream by reset, or leaves it alone. -/
theorem everyStepKeepsTheStreamState : Obligations.EveryStepKeepsTheStreamState := by
  intro s t h ht
  have hmoved (rest : List HostMove) : StreamInv { s with inputs := rest } := streamInv_of_kept h rfl rfl rfl rfl
  rcases step_cases ht with ⟨-, he⟩ | ⟨m, rest, -, ⟨-, he⟩ | ⟨-, rfl⟩ | ⟨-, rfl⟩ | ⟨_, _, -, hread⟩ |
    ⟨_, _, w, -, hwrite⟩⟩
  · exact engineStep_streamInv h he
  · exact engineStep_streamInv (hmoved rest) he
  · exact streamInv_of_kept (streamInv_toReset s) rfl rfl rfl rfl
  · exact streamInv_of_kept h rfl rfl rfl rfl
  · rcases hread with rfl | ⟨off, -, -, -, -, -, rfl⟩
    · exact streamInv_of_kept h rfl rfl rfl rfl
    · exact streamInv_of_kept h rfl rfl rfl rfl
  · rcases hwrite with rfl | ⟨off, -, -, -, -, -, rfl⟩
    · exact hmoved rest
    · obtain ⟨ob, len, acc, cnt⟩ := hostWrite_stream (locate off) w { s with inputs := rest }
      exact streamInv_of_kept h ob len acc cnt

/-! ## What a host write can do to STATUS and, while a command is pending, to anything -/

/-- A STATUS write, field by field (R39). -/
theorem State.writeStatus_eq (s : State) (w : Word) : s.writeStatus w =
    { s with done := s.done && !w.getLsbD 1, err := s.err && !w.getLsbD 2, ovf := s.ovf && !w.getLsbD 3,
             haz := s.haz && !w.getLsbD 4 } := by
  unfold State.writeStatus
  cases h : w.getLsbD 2 <;> simp [returnFromError]

/-- A CMD write while a command is pending is dropped with HAZ (R201). -/
theorem hostWriteCmd_of_busy {s : State} (w : Word) (h : s.busy = true) : hostWriteCmd w s = s.hazard := by
  simp [hostWriteCmd, h]

/-- The four effects a host write can have while a command is pending: dropped with HAZ, a CTRL write, a STATUS write, or
none (R71 (a), R201). -/
theorem hostWrite_busy_cases {s : State} (l : Location) (w : Word) (h : s.busy = true) :
    hostWrite l w s = s.hazard ∨ hostWrite l w s = s.writeCtrl w ∨ hostWrite l w s = s.writeStatus w ∨
      hostWrite l w s = s := by
  unfold hostWrite
  rw [h, Bool.true_and]
  cases l with
  | ctrl => exact .inr (.inl rfl)
  | status => exact .inr (.inr (.inl rfl))
  | cmd => exact .inl (hostWriteCmd_of_busy w h)
  | tileWord | symbolWord | cfg | symcnt | prevDc => exact .inl rfl
  | id | errCode | errInfo | errAux | obLen | bitstate | outputWord | quantWord | reserved => exact .inr (.inr (.inr rfl))

/-- A host write sets none of OVF, DONE and ERR (R35 to R39). -/
theorem hostWrite_flags_fall (l : Location) (w : Word) (s : State) :
    ((hostWrite l w s).ovf = true → s.ovf = true) ∧ ((hostWrite l w s).done = true → s.done = true) ∧
      ((hostWrite l w s).err = true → s.err = true) := by
  unfold hostWrite
  split
  · exact ⟨id, id, id⟩
  · cases l with
    | status => simp +contextual [storeLocation]
    | cmd =>
      simp only [storeLocation, hostWriteCmd]
      split <;> exact ⟨id, id, id⟩
    | _ => exact ⟨id, id, id⟩

/-- A host write while a command is pending leaves everything of the CORE but CTRL and the four flags of STATUS
(R71 (a), R75). -/
theorem hostWrite_busy_frame {s : State} (rest : List HostMove) (l : Location) (w : Word) (h : s.busy = true) :
    { hostWrite l w { s with inputs := rest } with
      inputs := s.inputs, ieDone := s.ieDone, ieErr := s.ieErr, done := s.done, err := s.err, ovf := s.ovf, haz := s.haz,
      resetLine := s.resetLine, readData := s.readData, draws := s.draws } = s := by
  rcases hostWrite_busy_cases (s := { s with inputs := rest }) l w h with e | e | e | e
  · rw [e]; rfl
  · rw [e]; rfl
  · rw [e, State.writeStatus_eq]
  · rw [e]

/-- Settles O10: of the moves left, a read and the release of reset touch the model's own fields only, and a write is
`hostWrite_busy_frame`. -/
theorem pendingCommandInputsCannotChange : Obligations.PendingCommandInputsCannotChange := by
  intro s t w m rest hpending hinputs hturn hreset ht
  have hbusy : s.busy = true := by simp [State.busy, hpending]
  rcases step_cases ht with ⟨hnil, -⟩ | ⟨m', rest', hm, hmove⟩
  · simp [hnil] at hinputs
  · obtain ⟨rfl, rfl⟩ := List.cons.inj (hinputs.symm.trans hm)
    rcases hmove with ⟨e, -⟩ | ⟨e, -⟩ | ⟨-, rfl⟩ | ⟨_, _, -, hread⟩ | ⟨_, _, v, -, hwrite⟩
    · exact absurd e hturn
    · exact absurd e hreset
    · exact ⟨rfl, id, id, id⟩
    · rcases hread with rfl | ⟨off, -, -, -, -, -, rfl⟩ <;> exact ⟨rfl, id, id, id⟩
    · rcases hwrite with rfl | ⟨off, -, -, -, -, -, rfl⟩
      · exact ⟨rfl, id, id, id⟩
      · exact ⟨hostWrite_busy_frame rest (locate off) v hbusy,
          hostWrite_flags_fall (locate off) v { s with inputs := rest }⟩

/-! ## The command registers -/

/-- The invariant of the command registers speaks of PENDING, LASTCMD, ERR, ERR_CODE and the reset input only, and an ERR
cleared keeps it. -/
theorem commandInv_of_kept {s t : State} (h : CommandInv s) (pending : t.pending = s.pending)
    (last : t.lastcmd = s.lastcmd) (err : t.err = true → s.err = true) (code : t.errCode = s.errCode)
    (line : t.resetLine = true → s.resetLine = true) : CommandInv t where
  pendingIsLast := by rw [pending, last]; exact h.pendingIsLast
  noneWhileErr he := pending.trans (h.noneWhileErr (err he))
  noneInReset hr := pending.trans (h.noneInReset (line hr))
  errRecorded he := code ▸ h.errRecorded (err he)

/-- With nothing pending, the invariant asks only that ERR = 1 has a code. -/
theorem commandInv_of_idle {t : State} (pending : t.pending = none) (code : t.err = true → t.errCode ≠ .none) :
    CommandInv t where
  pendingIsLast w hw := by simp [pending] at hw
  noneWhileErr _ := pending
  noneInReset _ := pending
  errRecorded := code

/-- A command's data writes leave ERR and ERR_CODE (R202). -/
theorem DataOnly.error_kept {s t : State} (h : DataOnly s t) : t.err = s.err ∧ t.errCode = s.errCode := by
  unfold DataOnly at h
  exact ⟨(congrArg State.err h :), (congrArg State.errCode h :)⟩

/-- The engine leaves nothing pending, and a failed command records its code (R202). -/
theorem engineStep_commandInv {s t : State} (h : CommandInv s) (ht : engineStep s = .next t) : CommandInv t := by
  rcases engineStep_cases ht with ⟨-, rfl⟩ | ⟨w, -, ⟨v, c, aux, d, hc, rfl⟩ | ⟨i, u, -, -, hdata, rfl⟩⟩
  · exact h
  · exact commandInv_of_idle rfl fun _ => hc
  · obtain ⟨herr, hcode⟩ := hdata.error_kept
    exact commandInv_of_idle rfl fun he => by
      rw [State.useDraws_errCode, commitCommand_errCode, hcode]
      exact h.errRecorded (herr ▸ he)

/-- A host write accepted with reset released keeps the invariant: a command is accepted only with ERR = 0 (R201). -/
theorem hostWrite_commandInv {s : State} (l : Location) (w : Word) (h : CommandInv s) (hr : s.resetLine = false) :
    CommandInv (hostWrite l w s) := by
  obtain ⟨-, -, hline, -⟩ := hostWrite_outside l w s
  obtain ⟨-, -, herr⟩ := hostWrite_flags_fall l w s
  obtain ⟨hcode, ⟨hpending, hlast⟩ | ⟨-, hok, hpending, hlast⟩⟩ := hostWrite_command l w s
  · exact commandInv_of_kept h hpending hlast herr hcode (hline ▸ id)
  · have hoff : (hostWrite l w s).err ≠ true := fun he => by simp [herr he] at hok
    exact ⟨fun v hv => hlast.trans (Option.some.inj (hpending.symm.trans hv)), fun he => absurd he hoff,
      fun hl => by simp [hline, hr] at hl, fun he => absurd he hoff⟩

/-- Settles O59: the engine ends the pending command, reset drops it, and a host write accepts one only when idle. -/
theorem everyStepKeepsTheCommandRegisters : Obligations.EveryStepKeepsTheCommandRegisters := by
  intro s t h ht
  have hmoved (rest : List HostMove) : CommandInv { s with inputs := rest } := commandInv_of_kept h rfl rfl id rfl id
  rcases step_cases ht with ⟨-, he⟩ | ⟨m, rest, -, ⟨-, he⟩ | ⟨-, rfl⟩ | ⟨-, rfl⟩ | ⟨_, _, -, hread⟩ |
    ⟨_, _, w, -, hwrite⟩⟩
  · exact engineStep_commandInv h he
  · exact engineStep_commandInv (hmoved rest) he
  · exact commandInv_of_idle rfl nofun
  · exact commandInv_of_kept h rfl rfl id rfl nofun
  · rcases hread with rfl | ⟨off, -, -, -, -, -, rfl⟩
    · exact commandInv_of_kept h rfl rfl id rfl id
    · exact commandInv_of_kept h rfl rfl id rfl id
  · rcases hwrite with rfl | ⟨off, -, -, -, -, hr, rfl⟩
    · exact hmoved rest
    · exact hostWrite_commandInv (locate off) w (hmoved rest) hr

/-! ## The divisors and the identity table -/

/-- Table 3 is the identity table (R30). -/
@[simp] theorem quantTable_three (i : Fin 64) : quantTable 3 i = 1 := rfl

/-- Every divisor is in 1..255 (R30). -/
theorem quantTable_range (t : TableIx) (i : Fin 64) : 1 ≤ quantTable t i ∧ quantTable t i ≤ 255 := by
  unfold quantTable
  split <;> omega

/-- Settles O22. -/
theorem quantTableEntries : Obligations.QuantTableEntries := ⟨quantTable_range, quantTable_three⟩

/-- Divided by 1, an FX word worth the integer `k` gives `k` exactly (R121, R126). -/
theorem quantExact_one {w : Word} {k : Int} (h : w.toInt = 256 * k) : quantExact w 1 = k := by
  have hquot : ((256 * k).natAbs + 128 * 1) / (256 * 1) = k.natAbs := by omega
  have hsign : (256 * k).sign = k.sign := by
    rw [Int.sign_mul, Int.sign_eq_one_of_pos (by decide), one_mul]
  rw [quantExact, sint32, h, hquot, hsign, Int.sign_mul_natAbs]

/-- Settles O36: the quotient is `k`, within the clamp, and its product is the word's own value. -/
theorem identityTablePassesIntegers : Obligations.IdentityTablePassesIntegers := by
  intro w k i hw hk
  obtain ⟨hlow, hhigh⟩ := abs_le.1 hk
  have hclamp : satq k = k := by unfold satq; omega
  have hsat : sat32 w.toInt = w.toInt := by unfold sat32; omega
  have hproduct : 256 * (sint32 (wordOf k) * ((1 : Nat) : Int)) = w.toInt := by
    rw [sint32, toInt_wordOf (by omega) (by omega), hw, Nat.cast_one, mul_one]
  rw [quantTable_three]
  constructor
  · simp [quantLane, quantExact_one hw, hclamp]
  · simp only [dequantLane, hproduct, hsat]
    simp

/-- Settles O54. -/
theorem appendedBytesAndNoOthers : Obligations.AppendedBytesAndNoOthers := Memory.read_writeBytes

/-! ## The host's register accesses -/

/-- The value of five flags, the last in bit 0 (R33 to R38). -/
theorem flagWord_eq_ofNat (b4 b3 b2 b1 b0 : Bool) : flagWord b4 b3 b2 b1 b0 =
    BitVec.ofNat 32 (b0.toNat + 2 * b1.toNat + 4 * b2.toNat + 8 * b3.toNat + 16 * b4.toNat) := by
  revert b4 b3 b2 b1 b0; decide

/-- STATUS has no bit above bit 4 (R39). -/
theorem statusWord_lt (s : State) : s.statusWord.toNat < 32 := by
  unfold State.statusWord
  generalize s.haz = haz, s.ovf = ovf, s.err = err, s.done = done, s.busy = busy
  revert haz ovf err done busy; decide

/-- BITSTATE as a number (R28). -/
theorem bitstateWord_eq_ofNat (s : State) :
    s.bitstateWord = BitVec.ofNat 32 (256 * s.bitCnt.toNat + s.bitAcc.toNat) := by
  have hcnt := s.bitCnt.isLt
  have hacc := s.bitAcc.isLt
  have hplaces : s.bitstateWord.toNat = ((0#21 ++ s.bitCnt) ++ 0#1).toNat <<< 7 ||| s.bitAcc.toNat :=
    BitVec.toNat_append (0#21 ++ s.bitCnt ++ 0#1) s.bitAcc
  have hupper : (0#21 ++ s.bitCnt ++ 0#1).toNat = s.bitCnt.toNat <<< 1 := by
    rw [BitVec.toNat_append, BitVec.toNat_append]; simp
  apply BitVec.eq_of_toNat_eq
  rw [hplaces, hupper, ← Nat.shiftLeft_add, Nat.shiftLeft_eq, mul_comm, ← Nat.two_pow_add_eq_or_of_lt (by omega),
    BitVec.toNat_ofNat]
  omega

/-- A host read of the word where `l` stands is answered with what it holds, when the engine never owns `l` or no command
is pending (R71 (b), (c), R72). -/
theorem readsAs_idleRead {s : State} {off : Nat} {l : Location} {w : Word} (hr : s.resetLine = false)
    (hl : locate off = l) (hfree : l.engineOwnsRead = false ∨ s.busy = false)
    (hw : s.idleRead (Config.draw s.draws) l = w) (ho : off < 0x8000 := by decide) (h4 : off % 4 = 0 := by decide) :
    ReadsAs s off w := by
  rw [readsAs_iff ho h4 hr, hl, State.readLocation, if_neg (by rcases hfree with h | h <;> simp [h]), hw]

/-- ERR_CODE reads as the code of R203. -/
theorem zeroExtend_errCode_toBits {code : ErrCode} {n : Nat}
    (h : (code, n) ∈ [(ErrCode.none, 0), (.illegal, 1), (.config, 2), (.capacity, 3), (.table, 4), (.range, 5)]) :
    code.toBits.zeroExtend 32 = BitVec.ofNat 32 n := by
  cases code <;> simp_all [ErrCode.toBits]

/-- Settles O14: each register stands at its offset (R47), and its word is its fields in their places. -/
theorem registerReads : Obligations.RegisterReads := by
  intro s hr
  refine ⟨?id, ?ctrl, ?status, ?cmd, fun code n hmem hcode => ?errCode, ?errInfo, ?errAux, ?cfg,
    fun hidle => ⟨?symcnt, ?obLen, ?bitstate, ?prevDc⟩⟩
  case id => exact readsAs_idleRead (l := .id) hr rfl (.inl rfl) rfl
  case ctrl =>
    refine readsAs_idleRead (l := .ctrl) hr rfl (.inl rfl) ?_
    simp [State.idleRead, State.ctrlWord, flagWord_eq_ofNat]
  case status => exact readsAs_idleRead (l := .status) hr rfl (.inl rfl) (flagWord_eq_ofNat ..)
  case cmd => exact readsAs_idleRead (l := .cmd) hr rfl (.inl rfl) rfl
  case errCode =>
    refine readsAs_idleRead (l := .errCode) hr rfl (.inl rfl) ?_
    rw [State.idleRead, hcode, zeroExtend_errCode_toBits hmem]
  case errInfo => exact readsAs_idleRead (l := .errInfo) hr rfl (.inl rfl) rfl
  case errAux => exact readsAs_idleRead (l := .errAux) hr rfl (.inl rfl) rfl
  case cfg => exact readsAs_idleRead (l := .cfg) hr rfl (.inl rfl) (BitVec.ofNat_toNat ..).symm
  case symcnt => exact readsAs_idleRead (l := .symcnt) hr rfl (.inr hidle) (BitVec.ofNat_toNat ..).symm
  case obLen => exact readsAs_idleRead (l := .obLen) hr rfl (.inr hidle) (BitVec.ofNat_toNat ..).symm
  case bitstate => exact readsAs_idleRead (l := .bitstate) hr rfl (.inr hidle) (bitstateWord_eq_ofNat s)
  case prevDc => exact readsAs_idleRead (l := .prevDc) hr rfl (.inr hidle) rfl

/-- The low bits of a word are its value reduced. -/
theorem extractLsb'_zero_eq_ofNat (n : Nat) (w : Word) : w.extractLsb' 0 n = BitVec.ofNat n (w.toNat % 2 ^ n) := by
  apply BitVec.eq_of_toNat_eq
  simp

/-- A host write at the word where `l` stands does what `storeLocation` does, when the engine never owns `l` or no command
is pending (R71 (a), (c)). -/
theorem writeGives_storeLocation {s t : State} {off : Nat} {l : Location} {w : Word} (hr : s.resetLine = false)
    (hl : locate off = l) (hfree : l.engineOwnsWrite = false ∨ s.busy = false)
    (ht : ∀ rest, storeLocation l w { s with inputs := rest } = { t with inputs := rest })
    (ho : off < 0x8000 := by decide) (h4 : off % 4 = 0 := by decide) : WriteGives s off w t := by
  refine writeGives_of ho h4 hr fun rest => ?_
  have hkept : ¬ (({ s with inputs := rest } : State).busy && l.engineOwnsWrite) = true := by
    rcases hfree with h | h
    · simp [h]
    · rw [show ({ s with inputs := rest } : State).busy = false from h]; simp
  rw [hl, hostWrite, if_neg hkept, ht]

/-- Settles O18. -/
theorem hostWritesOfRegisters : Obligations.HostWritesOfRegisters := by
  intro s w hr
  refine ⟨?ctrl, fun hidle => ⟨?cfg, ?symcnt, ?prevDc⟩⟩
  case ctrl => exact writeGives_storeLocation (l := .ctrl) hr rfl (.inl rfl) fun _ => rfl
  case cfg =>
    have hbits : w.extractLsb' 0 4 = BitVec.ofNat 4 (w.toNat % 16) := extractLsb'_zero_eq_ofNat 4 w
    exact hbits ▸ writeGives_storeLocation (l := .cfg) hr rfl (.inr hidle) fun _ => rfl
  case symcnt =>
    have hbits : w.extractLsb' 0 7 = BitVec.ofNat 7 (w.toNat % 128) := extractLsb'_zero_eq_ofNat 7 w
    exact hbits ▸ writeGives_storeLocation (l := .symcnt) hr rfl (.inr hidle) fun _ => rfl
  case prevDc => exact writeGives_storeLocation (l := .prevDc) hr rfl (.inr hidle) fun _ => rfl

/-- A STATUS write gives the state of `writeStatus`, at any time (R39). -/
theorem writeGives_writeStatus {s : State} (w : Word) (hr : s.resetLine = false) :
    WriteGives s 0x008 w (s.writeStatus w) := by
  refine writeGives_storeLocation (l := .status) hr rfl (.inl rfl) fun _ => ?_
  rw [storeLocation, State.writeStatus_eq, State.writeStatus_eq]

/-- Settles O19. -/
theorem statusWriteOneToClear : Obligations.StatusWriteOneToClear := by
  intro s w hr
  refine ⟨?clears, ?clearsErr, s.statusWord, readsAs_idleRead (l := .status) hr rfl (.inl rfl) rfl, statusWord_lt s⟩
  case clears => exact State.writeStatus_eq s w ▸ writeGives_writeStatus w hr
  case clearsErr => simpa [State.writeStatus_eq] using writeGives_writeStatus (s := s) 0x4#32 hr

end Sys2Proof.Machine

/-! SUPPORT. Proofs of the statements on the host window (spec/20_memory.md): the map's regions, accesses while a command is
pending, accesses without effect, the words of the buffers, and the little-endian words of OB and of the divisors. -/

namespace Sys2Proof.Machine

/-! ## Accesses with no effect on the CORE -/

/-- The step with a read at the head of the moves is the host port's read. -/
theorem step_read (s : State) (addr bytes : Nat) (rest : List HostMove) :
    step { s with inputs := .read addr bytes :: rest } =
      hostAccess addr bytes hostRead unanswered { s with inputs := rest } := rfl

/-- The step with a write at the head of the moves is the host port's write. -/
theorem step_write (s : State) (addr bytes : Nat) (w : Word) (rest : List HostMove) :
    step { s with inputs := .write addr bytes w :: rest } =
      hostAccess addr bytes (fun l s => hostWrite l w s) (fun s => s) { s with inputs := rest } := rfl

/-- Settles O23. -/
theorem unsupportedAccessRefused : Obligations.UnsupportedAccessRefused := by
  intro s off bytes w rest ho hbad
  rw [step_read, step_write]
  exact ⟨hostAccess_unsupported _ _ _ ho hbad, hostAccess_unsupported _ _ _ ho hbad⟩

/-- CORE_BASE is a multiple of the window's size (R61). -/
theorem coreBase_mod_window : Config.coreBase % 0x8000 = 0 := by
  unfold Config.coreBase
  omega

/-- Settles O24. -/
theorem otherAddressesUnseen : Obligations.OtherAddressesUnseen := by
  refine ⟨coreBase_mod_window, fun s addr bytes w rest hout => ?_⟩
  rw [step_read, step_write]
  exact ⟨hostAccess_outside _ _ _ _ hout, hostAccess_outside _ _ _ _ hout⟩

/-- Settles O15: a read is missed or is `hostRead`, and both touch the model's own fields only. -/
theorem hostReadChangesNothing : Obligations.HostReadChangesNothing := by
  intro s t addr bytes rest hinputs ht
  rcases step_cases ht with ⟨hnil, -⟩ | ⟨m, rest', hm, hmove⟩
  · simp [hnil] at hinputs
  · obtain ⟨rfl, rfl⟩ := List.cons.inj (hinputs.symm.trans hm)
    rcases hmove with ⟨e, -⟩ | ⟨e, -⟩ | ⟨e, -⟩ | ⟨_, _, -, hread⟩ | ⟨_, _, _, e, -⟩
    · cases e
    · cases e
    · cases e
    · rcases hread with rfl | ⟨off, -, -, -, -, -, rfl⟩ <;> exact ⟨rfl, rfl⟩
    · cases e

/-! ## The regions of the window map -/

theorem locate_tileRegion {off : Nat} (h : 0x1000 ≤ off ∧ off < 0x1400) : ∃ b i, locate off = .tileWord b i :=
  ⟨_, _, by rw [locate, if_neg (by omega), if_pos h.2]⟩

theorem locate_symbolRegion {off : Nat} (h : 0x2000 ≤ off ∧ off < 0x2100) : ∃ j, locate off = .symbolWord j :=
  ⟨_, by rw [locate, if_neg (by omega), if_neg (by omega), if_neg (by omega), if_pos h.2]⟩

theorem locate_outputRegion {off : Nat} (h : 0x3000 ≤ off ∧ off < 0x4000) : ∃ m, locate off = .outputWord m :=
  ⟨_, by rw [locate, if_neg (by omega), if_neg (by omega), if_neg (by omega), if_neg (by omega), if_neg (by omega),
    if_pos h.2]⟩

theorem locate_quantRegion {off : Nat} (h : 0x4000 ≤ off ∧ off < 0x4100) : ∃ t m, locate off = .quantWord t m :=
  ⟨_, _, by rw [locate, if_neg (by omega), if_neg (by omega), if_neg (by omega), if_neg (by omega), if_neg (by omega),
    if_neg (by omega), if_pos h.2]⟩

/-- No register stands past word 11 of the register page (R47). -/
theorem registerAt_reserved {n : Nat} (h : 12 ≤ n) : registerAt n = .reserved := by
  obtain ⟨m, rfl⟩ := Nat.exists_eq_add_of_le' h
  rfl

/-- The gaps of the map are reserved (R62, R47). -/
theorem locate_reserved {off : Nat} (h : (0x030 ≤ off ∧ off < 0x1000) ∨ (0x1400 ≤ off ∧ off < 0x2000) ∨
    (0x2100 ≤ off ∧ off < 0x3000) ∨ 0x4100 ≤ off) : locate off = .reserved := by
  rcases h with h | h | h | h
  · rw [locate, if_pos h.2, registerAt_reserved (by omega)]
  · rw [locate, if_neg (by omega), if_neg (by omega), if_pos h.2]
  · rw [locate, if_neg (by omega), if_neg (by omega), if_neg (by omega), if_neg (by omega), if_pos h.2]
  · rw [locate, if_neg (by omega), if_neg (by omega), if_neg (by omega), if_neg (by omega), if_neg (by omega),
      if_neg (by omega), if_neg (by omega)]

/-! ## Accesses while a command is pending -/

/-- The offsets R71 (a) names stand for locations the engine owns against writes. -/
theorem engineOwnsWrite_locate {off : Nat} (h : (0x1000 ≤ off ∧ off < 0x1400) ∨ (0x2000 ≤ off ∧ off < 0x2100) ∨
    off = 0x01C ∨ off = 0x020 ∨ off = 0x02C) : (locate off).engineOwnsWrite = true := by
  rcases h with h | h | rfl | rfl | rfl
  · obtain ⟨b, i, hl⟩ := locate_tileRegion h
    rw [hl]; rfl
  · obtain ⟨j, hl⟩ := locate_symbolRegion h
    rw [hl]; rfl
  all_goals rfl

/-- The offsets R71 (b) names stand for locations whose reads the engine leaves unconstrained. -/
theorem engineOwnsRead_locate {off : Nat} (h : (0x1000 ≤ off ∧ off < 0x1400) ∨ (0x2000 ≤ off ∧ off < 0x2100) ∨
    (0x3000 ≤ off ∧ off < 0x4000) ∨ off = 0x020 ∨ off = 0x024 ∨ off = 0x028 ∨ off = 0x02C) :
    (locate off).engineOwnsRead = true := by
  rcases h with h | h | h | rfl | rfl | rfl | rfl
  · obtain ⟨b, i, hl⟩ := locate_tileRegion h
    rw [hl]; rfl
  · obtain ⟨j, hl⟩ := locate_symbolRegion h
    rw [hl]; rfl
  · obtain ⟨m, hl⟩ := locate_outputRegion h
    rw [hl]; rfl
  all_goals rfl

/-- A write of a location the engine owns is dropped with HAZ while a command is pending (R71 (a)). -/
theorem hostWrite_owned {s : State} {l : Location} (w : Word) (hbusy : s.busy = true) (h : l.engineOwnsWrite = true) :
    hostWrite l w s = s.hazard := by
  rw [hostWrite, if_pos (by simp [hbusy, h])]

/-- A read of a location the engine owns is a free value while a command is pending (R71 (b)). -/
theorem readLocation_owned {s : State} {l : Location} (hbusy : s.busy = true) (h : l.engineOwnsRead = true) :
    s.readLocation l = Config.draw s.draws := by
  rw [State.readLocation, if_pos (by simp [hbusy, h])]

/-- Settles O11. -/
theorem busyDataAccesses : Obligations.BusyDataAccesses := by
  intro s off hbusy hr h4
  constructor
  · intro h w
    exact writeGives_of (by omega) h4 hr fun _ => hostWrite_owned w hbusy (engineOwnsWrite_locate h)
  · intro h
    exact (readsAs_iff (by omega) h4 hr).2 (readLocation_owned hbusy (engineOwnsRead_locate h))

/-! ## Reserved and read-only offsets -/

/-- A write whose location stores nothing leaves every field as it was (R65, R70). -/
theorem writeGives_self {s : State} {off : Nat} {l : Location} {w : Word} (hr : s.resetLine = false)
    (hl : locate off = l) (hfree : l.engineOwnsWrite = false) (hstore : ∀ u, storeLocation l w u = u)
    (ho : off < 0x8000) (h4 : off % 4 = 0) : WriteGives s off w s :=
  writeGives_storeLocation hr hl (.inl hfree) (fun _ => hstore _) ho h4

/-- Settles O20. -/
theorem reservedAndReadOnlyOffsets : Obligations.ReservedAndReadOnlyOffsets := by
  intro s off hr h4 ho
  refine ⟨fun h => ⟨?read, fun w => ?write⟩, fun h w => ?readOnly⟩
  case read => exact readsAs_idleRead hr (locate_reserved h) (.inl rfl) rfl ho h4
  case write => exact writeGives_self hr (locate_reserved h) rfl (fun _ => rfl) ho h4
  case readOnly =>
    rcases h with rfl | rfl | rfl | rfl | rfl | rfl | h
    · exact writeGives_self (l := .id) hr rfl rfl (fun _ => rfl) ho h4
    · exact writeGives_self (l := .errCode) hr rfl rfl (fun _ => rfl) ho h4
    · exact writeGives_self (l := .errInfo) hr rfl rfl (fun _ => rfl) ho h4
    · exact writeGives_self (l := .errAux) hr rfl rfl (fun _ => rfl) ho h4
    · exact writeGives_self (l := .obLen) hr rfl rfl (fun _ => rfl) ho h4
    · exact writeGives_self (l := .bitstate) hr rfl rfl (fun _ => rfl) ho h4
    · rcases Nat.lt_or_ge off 0x4000 with hOb | hQt
      · obtain ⟨m, hl⟩ := locate_outputRegion ⟨h.1, hOb⟩
        exact writeGives_self hr hl rfl (fun _ => rfl) ho h4
      · obtain ⟨t, m, hl⟩ := locate_quantRegion ⟨hQt, h.2⟩
        exact writeGives_self hr hl rfl (fun _ => rfl) ho h4

/-! ## The words of the tile and symbol buffers -/

/-- Writing one word of a tile buffer leaves every other word (R66). -/
theorem writeTileWord_other (s : State) {b b' : BufIx} {i i' : Fin 64} (w : Word) (h : ¬(b' = b ∧ i' = i)) :
    (s.writeTileWord b i w).tb[b'][i'] = s.tb[b'][i'] := by
  by_cases hb : b' = b
  · subst hb
    have hi : i.val ≠ i'.val := fun e => h ⟨rfl, (Fin.ext e).symm⟩
    simp [hi]
  · have hb' : b.val ≠ b'.val := fun e => hb (Fin.ext e).symm
    simp [hb']

/-- Settles O16. -/
theorem tileWordAccess : Obligations.TileWordAccess := by
  intro s b i w hidle hr
  have hb := b.isLt
  have hi := i.isLt
  refine ⟨⟨s.writeTileWord b i w, ?write, writeTileWord_same s b i w, fun _ _ => writeTileWord_other s w, rfl⟩,
    fun hheld => ?read⟩
  case write =>
    exact writeGives_storeLocation hr (locate_tile b i) (.inr hidle) (fun _ => rfl) (by omega) (by omega)
  case read =>
    exact readsAs_idleRead hr (locate_tile b i) (.inr hidle) (by rw [State.idleRead, hheld]; rfl) (by omega) (by omega)

theorem writeSymbol_same (s : State) (j : Fin 64) (w : Word) : (s.writeSymbol j w).sb[j] = some w := by
  simp

/-- Writing one entry of the symbol buffer leaves every other entry (R67). -/
theorem writeSymbol_other (s : State) {j j' : Fin 64} (w : Word) (h : j' ≠ j) :
    (s.writeSymbol j w).sb[j'] = s.sb[j'] := by
  have hj : j.val ≠ j'.val := fun e => h (Fin.ext e).symm
  simp [hj]

/-- Settles O17. -/
theorem symbolWordAccess : Obligations.SymbolWordAccess := by
  intro s j w hidle hr
  have hj := j.isLt
  refine ⟨⟨s.writeSymbol j w, ?write, writeSymbol_same s j w, fun _ => writeSymbol_other s w, rfl⟩, fun hheld => ?read⟩
  case write => exact writeGives_storeLocation hr (locate_symbol j) (.inr hidle) (fun _ => rfl) (by omega) (by omega)
  case read =>
    exact readsAs_idleRead hr (locate_symbol j) (.inr hidle) (by rw [State.idleRead, hheld]; rfl) (by omega) (by omega)

/-! ## Little-endian words -/

/-- A byte appended below a word stands in its low eight bits. -/
theorem toNat_append_byte {n : Nat} (x : BitVec n) (b : Byte) : (x ++ b).toNat = 2 ^ 8 * x.toNat + b.toNat := by
  rw [BitVec.toNat_append, Nat.shiftLeft_eq, mul_comm, Nat.two_pow_add_eq_or_of_lt b.isLt]

/-- The value of a word made of four bytes (R63). -/
theorem toNat_littleEndian (b0 b1 b2 b3 : Byte) : (littleEndian b0 b1 b2 b3).toNat =
    b0.toNat + 2 ^ 8 * b1.toNat + 2 ^ 16 * b2.toNat + 2 ^ 24 * b3.toNat := by
  rw [littleEndian, toNat_append_byte, toNat_append_byte, toNat_append_byte]
  omega

/-- Byte `j` of a word stands in bits `8j+7:8j` (R63). -/
theorem littleEndian_byte (byte : Nat → Byte) {j : Nat} (hj : j < 4) :
    (littleEndian (byte 0) (byte 1) (byte 2) (byte 3)).toNat / 2 ^ (8 * j) % 256 = (byte j).toNat := by
  have h0 := (byte 0).isLt
  have h1 := (byte 1).isLt
  have h2 := (byte 2).isLt
  have h3 := (byte 3).isLt
  rw [toNat_littleEndian]
  interval_cases j <;> omega

/-- A byte of the stream that has been written is read as it is (R68). -/
theorem outputByte_of_written {s : State} {k : Nat} {b : Byte} (free : Byte) (hk : k < s.obLen.toNat)
    (hb : Memory.read s.ob k = some b) : s.outputByte k free = b := by
  rw [State.outputByte, if_pos hk, hb, Option.getD_some]

/-- The byte at place `j` of what a host reads at an OB word is that byte of the output buffer (R63, R68). -/
theorem idleRead_outputWord_byte (s : State) (free : Word) (m : Fin 1024) {j : Nat} (hj : j < 4) :
    (s.idleRead free (.outputWord m)).toNat / 2 ^ (8 * j) % 256 =
      (s.outputByte (4 * m.val + j) (free.extractLsb' (8 * j) 8)).toNat :=
  littleEndian_byte (fun j => s.outputByte (4 * m.val + j) (free.extractLsb' (8 * j) 8)) hj

/-- A divisor is a byte. -/
theorem toNat_quantByte {t : TableIx} {m : Fin 16} {j : Fin 4} {i : Fin 64} (h : i.val = 4 * m.val + j.val) :
    (State.idleRead.quantByte t m j).toNat = quantTable t i := by
  obtain ⟨-, hle⟩ := quantTable_range t i
  have hi : (⟨4 * m.val + j.val, by omega⟩ : Fin 64) = i := Fin.ext h.symm
  rw [State.idleRead.quantByte, hi, BitVec.toNat_ofNat, Nat.mod_eq_of_lt (by omega)]

/-- The value of a word of a quantization table (R63, R69). -/
theorem idleRead_quantWord (s : State) (free : Word) {t : TableIx} {m : Fin 16} {i0 i1 i2 i3 : Fin 64}
    (h0 : i0.val = 4 * m.val) (h1 : i1.val = 4 * m.val + 1) (h2 : i2.val = 4 * m.val + 2) (h3 : i3.val = 4 * m.val + 3) :
    s.idleRead free (.quantWord t m) = BitVec.ofNat 32
      (quantTable t i0 + 2 ^ 8 * quantTable t i1 + 2 ^ 16 * quantTable t i2 + 2 ^ 24 * quantTable t i3) := by
  rw [← toNat_quantByte (j := 0) h0, ← toNat_quantByte (j := 1) h1, ← toNat_quantByte (j := 2) h2,
    ← toNat_quantByte (j := 3) h3, ← toNat_littleEndian, BitVec.ofNat_toNat, BitVec.setWidth_eq]
  rfl

/-- Settles O21. -/
theorem byteWordsAreLittleEndian : Obligations.ByteWordsAreLittleEndian := by
  intro s hr
  refine ⟨fun m hm hidle => ⟨s.idleRead (Config.draw s.draws) (.outputWord ⟨m, hm⟩), ?output,
    fun j hj hlen b hb => ?byte⟩, fun t m i0 i1 i2 i3 h0 h1 h2 h3 => ?quant⟩
  case output =>
    exact readsAs_idleRead hr (locate_output ⟨m, hm⟩) (.inr hidle) rfl (by omega) (by omega)
  case byte => rw [idleRead_outputWord_byte s _ ⟨m, hm⟩ hj, outputByte_of_written _ hlen hb]
  case quant =>
    have ht := t.isLt
    have hm := m.isLt
    exact readsAs_idleRead hr (locate_quant t m) (.inl rfl) (idleRead_quantWord s _ h0 h1 h2 h3) (by omega) (by omega)

end Sys2Proof.Machine

/-! SUPPORT. Proofs of the statements on the encoding (spec/30_encoding.md): the command word and its command determine each
other, and the opcode table's rows say which words are commands. -/

namespace Sys2Proof

/-! ## The fields of a command -/

/-- OPC and the operand fields a command uses, everything else 0 (R85). -/
def Fields.used (f : Fields) (u : Usage) : Fields where
  opc := f.opc
  src := if u.src then f.src else 0
  dst := if u.dst then f.dst else 0
  qsel := if u.qsel then f.qsel else 0
  diff := if u.diff then f.diff else 0
  reserved := 0

/-- Only an unused field is asked to be 0. -/
theorem ite_used_eq_self_iff {n : Nat} (used : Bool) (x : BitVec n) :
    (if used then x else 0) = x ↔ (used = false → x = 0) := by
  cases used
  · simpa using eq_comm
  · simp

/-- Fields are the used ones exactly when every unused one is 0 (R85). -/
theorem Fields.used_eq_self_iff {f : Fields} {u : Usage} : f.used u = f ↔
    f.reserved = 0 ∧ (u.src = false → f.src = 0) ∧ (u.dst = false → f.dst = 0) ∧ (u.qsel = false → f.qsel = 0) ∧
      (u.diff = false → f.diff = 0) := by
  obtain ⟨opc, src, dst, qsel, diff, reserved⟩ := f
  simp only [Fields.used, Fields.mk.injEq, ite_used_eq_self_iff, true_and, eq_comm (b := reserved)]
  tauto

/-- Fields decode to a command exactly when OPC selects it and what it does not use is 0 (R85, R87). -/
theorem Fields.decode_eq_ok_iff {f : Fields} {i : Instr} :
    f.decode = .ok i ↔ ∃ u, f.select = some (u, i) ∧ f.used u = f := by
  unfold Fields.decode
  cases f.select with
  | none => simp
  | some p =>
    obtain ⟨u, j⟩ := p
    simp only [Option.some.injEq, Prod.mk.injEq, Fields.used_eq_self_iff]
    constructor
    · intro h
      split_ifs at h with hres hsrc hdst hqsel hdiff
      cases h
      exact ⟨u, ⟨rfl, rfl⟩, by simpa using hres, by simpa using hsrc, by simpa using hdst, by simpa using hqsel,
        by simpa using hdiff⟩
    · rintro ⟨_, ⟨rfl, rfl⟩, hres, hsrc, hdst, hqsel, hdiff⟩
      rw [if_neg (by simpa using hres), if_neg (by simpa using hsrc), if_neg (by simpa using hdst),
        if_neg (by simpa using hqsel), if_neg (by simpa using hdiff)]

/-- A byte is the opcode that its value is. -/
theorem opc_eq_ofNat {opc : BitVec 8} {n : Nat} (h : opc.toNat = n) : opc = BitVec.ofNat 8 n := by
  rw [← h, BitVec.ofNat_toNat, BitVec.setWidth_eq]

/-- HUFF_DC's DIFF as a truth value is its bit (R84). -/
theorem ofBool_beq_one (b : BitVec 1) : BitVec.ofBool (b == 1#1) = b := by
  revert b; decide

/-- The fields of the command OPC selects are the fields it uses (R81). -/
theorem Fields.fields_of_select {f : Fields} {u : Usage} {i : Instr} (h : f.select = some (u, i)) :
    i.fields = f.used u := by
  obtain ⟨opc, src, dst, qsel, diff, reserved⟩ := f
  unfold Fields.select at h
  dsimp only at h
  split at h
  case h_10 hopc =>
    obtain rfl := opc_eq_ofNat hopc
    cases h
    simp [Instr.fields, Fields.used, ofBool_beq_one]
  case h_15 => cases h
  all_goals
    rename_i hopc
    obtain rfl := opc_eq_ofNat hopc
    cases h
    rfl

/-- A command's own fields decode to it (R81, R87). -/
theorem decode_fields (i : Instr) : i.fields.decode = .ok i := by
  cases i with
  | huffDc src diff => cases diff <;> rfl
  | _ => rfl

/-- Settles O1: the word keeps the fields of its command, and those decode to it. -/
theorem decodeOfEncodeIsTheCommand : Obligations.DecodeOfEncodeIsTheCommand := fun i =>
  (decode_encode_fields i).trans (decode_fields i)

/-- Settles O2: a word that decodes has no nonzero field but those its command uses. -/
theorem encodeOfDecodeIsTheWord : Obligations.EncodeOfDecodeIsTheWord := by
  intro w i h
  obtain ⟨u, hselect, hused⟩ := Fields.decode_eq_ok_iff.1 h
  calc encode i = (Fields.used (.ofWord w) u).toWord := congrArg Fields.toWord (Fields.fields_of_select hselect)
    _ = w := by rw [hused, Fields.toWord_ofWord]

/-! ## The rows of the opcode table -/

/-- The bitwise and, field by field. -/
def Fields.and (f g : Fields) : Fields where
  opc := f.opc &&& g.opc
  src := f.src &&& g.src
  dst := f.dst &&& g.dst
  qsel := f.qsel &&& g.qsel
  diff := f.diff &&& g.diff
  reserved := f.reserved &&& g.reserved

theorem Fields.ofWord_and (w m : Word) : Fields.ofWord (w &&& m) = (Fields.ofWord w).and (.ofWord m) := by
  simp [Fields.ofWord, Fields.and, BitVec.extractLsb'_and]

/-- The bits of a command's row that must match: OPC, the fields it does not use and the reserved bits (R85). -/
def Usage.mask (u : Usage) : Fields where
  opc := .allOnes 8
  src := if u.src then 0 else .allOnes 2
  dst := if u.dst then 0 else .allOnes 2
  qsel := if u.qsel then 0 else .allOnes 2
  diff := if u.diff then 0 else .allOnes 1
  reserved := .allOnes 17

/-- A field is 0 under the mask exactly when it is 0 or used. -/
theorem and_ite_used_eq_zero_iff {n : Nat} (used : Bool) (x : BitVec n) :
    x &&& (if used then 0 else .allOnes n) = 0 ↔ (used = false → x = 0) := by
  cases used <;> simp

/-- Which fields the command that OPC selects uses (R81). -/
def Fields.usage (f : Fields) : Option Usage := f.select.map Prod.fst

/-- OPC alone says which fields are used (R81). -/
theorem Fields.usage_congr {f g : Fields} (h : f.opc = g.opc) : f.usage = g.usage := by
  unfold Fields.usage Fields.select
  rw [h]
  dsimp only
  split <;> rfl

/-- Fields show only an opcode under a command's mask exactly when it is theirs and what is not used is 0 (R85). -/
theorem Fields.and_mask_iff {f : Fields} {u : Usage} {opc : BitVec 8} :
    f.and u.mask = ⟨opc, 0, 0, 0, 0, 0⟩ ↔ f.opc = opc ∧ f.used u = f := by
  simp only [Fields.and, Usage.mask, Fields.mk.injEq, and_ite_used_eq_zero_iff, BitVec.and_allOnes,
    Fields.used_eq_self_iff]
  tauto

/-- Each row's value is its OPC, and its mask is that of the command OPC selects (R81, R85). -/
theorem opcodeTable_masks : ∀ r ∈ opcodeTable,
    Fields.ofWord r.value = ⟨(Fields.ofWord r.value).opc, 0, 0, 0, 0, 0⟩ ∧
    (Fields.ofWord r.value).usage.map Usage.mask = some (Fields.ofWord r.mask) := by
  decide

/-- A word that fits a row of the table decodes to a command (R85). -/
theorem decode_of_fits {r : OpcodeRow} {w : Word} (hr : r ∈ opcodeTable) (h : r.fits w = true) :
    ∃ i, decode w = .ok i := by
  obtain ⟨hvalue, hmask⟩ := opcodeTable_masks r hr
  obtain ⟨u, husage, hu⟩ := Option.map_eq_some_iff.1 hmask
  have hand : (Fields.ofWord w).and u.mask = ⟨(Fields.ofWord r.value).opc, 0, 0, 0, 0, 0⟩ := by
    rw [hu, ← Fields.ofWord_and, beq_iff_eq.1 h, ← hvalue]
  obtain ⟨hopc, hused⟩ := Fields.and_mask_iff.1 hand
  rw [← Fields.usage_congr hopc] at husage
  obtain ⟨⟨_, i⟩, hselect, rfl⟩ := Option.map_eq_some_iff.1 husage
  exact ⟨i, Fields.decode_eq_ok_iff.2 ⟨_, hselect, hused⟩⟩

/-- Every command's word fits the rows of its mnemonic and no others (R85). -/
theorem fits_encode_iff (i : Instr) : ∀ r ∈ opcodeTable, r.fits (encode i) = true ↔ r.mnemonic = i.mnemonic := by
  cases i with
  | nop => exact Laws.RowOf.nop
  | fdct src dst => exact Laws.RowOf.fdct src dst
  | idct src dst => exact Laws.RowOf.idct src dst
  | quant src dst qsel => exact Laws.RowOf.quant src dst qsel
  | dequant src dst qsel => exact Laws.RowOf.dequant src dst qsel
  | zigzag src dst => exact Laws.RowOf.zigzag src dst
  | unzigzag src dst => exact Laws.RowOf.unzigzag src dst
  | rleEnc src => exact Laws.RowOf.rleEnc src
  | rleDec dst => exact Laws.RowOf.rleDec dst
  | huffDc src diff => exact Laws.RowOf.huffDc src diff
  | huffAc => exact Laws.RowOf.huffAc
  | bitsFlush => exact Laws.RowOf.bitsFlush
  | outClear => exact Laws.RowOf.outClear
  | streamReset => exact Laws.RowOf.streamReset

/-- The rows a word that decodes fits are those of its command's mnemonic (R85). -/
theorem fits_iff_of_decode {w : Word} {i : Instr} (h : decode w = .ok i) :
    ∀ r ∈ opcodeTable, r.fits w = true ↔ r.mnemonic = i.mnemonic :=
  encodeOfDecodeIsTheWord w i h ▸ fits_encode_iff i

/-- Every command has a row of the table (R81). -/
theorem exists_row (i : Instr) : ∃ r ∈ opcodeTable, r.mnemonic = i.mnemonic := by
  cases i <;> simp [opcodeTable, Instr.mnemonic]

/-- A word is a command exactly when it fits a row of the table (R85). -/
theorem exists_decode_iff_fits (w : Word) : (∃ i, decode w = .ok i) ↔ ∃ r ∈ opcodeTable, r.fits w = true := by
  refine ⟨fun ⟨i, h⟩ => ?_, fun ⟨r, hr, h⟩ => decode_of_fits hr h⟩
  obtain ⟨r, hr, hm⟩ := exists_row i
  exact ⟨r, hr, (fits_iff_of_decode h r hr).2 hm⟩

/-- The engine ends a word that is no command with ILLEGAL (R205). -/
theorem engineStep_illegal {s : Machine.State} {w : Word} (hp : s.pending = some w) (h : ¬ ∃ i, decode w = .ok i) :
    Machine.engineStep s = .next (Machine.raiseError w .illegal 0 s) := by
  rw [Machine.engineStep, hp]
  dsimp only
  rw [Machine.execute]
  cases hd : decode w with
  | ok i => exact absurd ⟨i, hd⟩ h
  | error e => rfl

/-- Settles O3: a word that fits no row does not decode, and the engine ends it. -/
theorem wordIsCommandExactlyWhenItFitsTheRow : Obligations.WordIsCommandExactlyWhenItFitsTheRow := by
  refine ⟨exists_decode_iff_fits, fun w i h => fits_iff_of_decode h, fun w s hno hp => engineStep_illegal hp ?_⟩
  rw [exists_decode_iff_fits]
  rintro ⟨r, hr, hfits⟩
  exact Bool.false_ne_true ((hno r hr).symm.trans hfits)

/-- Settles O5. -/
theorem specWordsDecode : Obligations.SpecWordsDecode := by
  unfold Obligations.SpecWordsDecode
  decide

end Sys2Proof

/-! SUPPORT. Proofs of the statements on the transform engine (spec/40_transform.md): how FDCT and IDCT end, the accuracy of
their answers, and the two transforms as products with one matrix, which gives flat tiles and the round trip. -/

namespace Sys2Proof.Machine

open scoped Matrix

/-! ## How a transform command ends -/

/-- The state a transform command leaves that stores the integers `y` in `dst` (R105, R202). -/
def transformed (s : State) (dst : BufIx) (y : Fin 64 → Int) : State :=
  (commitCommand (storeSaturated s dst y)).useDraws

theorem exec_fdct {s : State} (src dst : BufIx) (h : s.tileN = 8) :
    exec (.fdct src dst) s = .next (transformed s dst (fdctImpl (s.tile src))) := by
  rw [exec, execFdct, withTileN_eight h, endCommand_commit, transformed]

theorem exec_idct {s : State} (src dst : BufIx) (h : s.tileN = 8) :
    exec (.idct src dst) s = .next (transformed s dst (idctImpl (s.tile src))) := by
  rw [exec, execIdct, withTileN_eight h, endCommand_commit, transformed]

theorem transformed_word (s : State) (dst : BufIx) (y : Fin 64 → Int) (k : Fin 64) :
    (transformed s dst y).tb[dst][k] = some (wordOf (sat32 (y k))) :=
  writeTile_same s dst _ k

theorem transformed_other (s : State) {dst b : BufIx} (y : Fin 64 → Int) (h : b ≠ dst) :
    (transformed s dst y).tb[b] = s.tb[b] :=
  writeTile_other s _ h

theorem transformed_ovf_iff (s : State) (dst : BufIx) (y : Fin 64 → Int) :
    (transformed s dst y).ovf = true ↔ s.ovf = true ∨ ∃ k, y k < -2147483648 ∨ 2147483647 < y k := by
  simp only [transformed, State.useDraws_ovf, commitCommand_ovf, storeSaturated_ovf, Bool.or_eq_true, anyLane_iff,
    sat32_ne_iff]

/-- What a later command reads in `dst`, for integers that fit a word. -/
theorem sint32_transformed_tile {s : State} {dst : BufIx} {y : Fin 64 → Int} {k : Fin 64} (h1 : -2147483648 ≤ y k)
    (h2 : y k ≤ 2147483647) : sint32 ((transformed s dst y).tile dst k) = y k := by
  rw [tile_of_written (transformed_word s dst y), sint32, toInt_wordOf_sat32]
  omega

/-- Settles O28. -/
theorem transformCommandsComplete : Obligations.TransformCommandsComplete := by
  intro src dst s h
  have completes (y : Fin 64 → Int) (k : Fin 64) : ∃ v : Word, (transformed s dst y).tb[dst][k] = some v ∧
      v.toInt = max (-2147483648) (min (y k) 2147483647) :=
    ⟨_, transformed_word s dst y k, toInt_wordOf_sat32 (y k)⟩
  exact ⟨⟨_, exec_fdct src dst h, completes _, fun _ => transformed_other s _, transformed_ovf_iff s dst _, rfl, rfl, rfl⟩,
    ⟨_, exec_idct src dst h, completes _, fun _ => transformed_other s _, transformed_ovf_iff s dst _, rfl, rfl, rfl⟩⟩

/-- Settles O31: every answer is within 1 of a sixteenth of 256 times the largest sample's magnitude. -/
theorem byteSamplesDoNotSaturate : Obligations.ByteSamplesDoNotSaturate := by
  intro src dst s h hsample
  refine ⟨_, exec_fdct src dst h, ?_, rfl⟩
  have hbound (i : Fin 64) : |(sint32 (s.tile src i) : ℝ)| ≤ 65280 := by
    obtain ⟨hlo, hhi⟩ := hsample i
    have : |sint32 (s.tile src i)| ≤ 65280 := abs_le.2 ⟨by rw [sint32]; omega, by rw [sint32]; omega⟩
    exact_mod_cast this
  have hfits (k : Fin 64) : |fdctImpl (s.tile src) k| ≤ 2147483647 := by
    have hnear := abs_le.1 (fdctImpl_within (s.tile src) k)
    have hideal := abs_le.1 (abs_forward16_le (s.tile src) (rowOf k) (colOf k) (by norm_num) hbound)
    have : |(fdctImpl (s.tile src) k : ℝ)| ≤ 2147483647 := abs_le.2 ⟨by linarith, by linarith⟩
    exact_mod_cast this
  rw [Bool.eq_iff_iff, transformed_ovf_iff, or_iff_left]
  rintro ⟨k, hk⟩
  have := abs_le.1 (hfits k)
  omega

/-! ## Accuracy -/

theorem abs_forward16_lt (src : Tile) (u v : Fin 8) : |(forward16 src u v).value| < 2 ^ 40 :=
  (abs_forward16_le src u v (by positivity) fun i => abs_sint32_le (src i)).trans_lt (by norm_num)

theorem abs_inverse16_lt (src : Tile) (x y : Fin 8) : |(inverse16 src x y).value| < 2 ^ 40 :=
  (abs_inverse16_le src x y (by positivity) fun i => abs_sint32_le (src i)).trans_lt (by norm_num)

/-- Every integer within the bound is an answer R104 allows, and is kept. -/
theorem holdToBound_of_within {z : Surd} {y : Int} (h : |(y : ℝ) - z.value / 16| ≤ 1) : holdToBound z y = y := by
  rw [holdToBound, if_pos ((withinDctErr_iff z y).2 h)]

/-- A sixteenth of `forward16` is 256 times the ideal forward value (R104). -/
theorem forward16_div_sixteen (src : Tile) (u v : Fin 8) :
    (forward16 src u v).value / 16 = 256 * idealForward (fxTile src) u v := by
  rw [value_forward16, mul_div_cancel_left₀ _ (by norm_num)]

/-- A sixteenth of `inverse16` is 256 times the ideal inverse value (R104). -/
theorem inverse16_div_sixteen (src : Tile) (x y : Fin 8) :
    (inverse16 src x y).value / 16 = 256 * idealInverse (fxTile src) x y := by
  rw [value_inverse16, mul_div_cancel_left₀ _ (by norm_num)]

theorem fdctImpl_at8 (src : Tile) (r c : Fin 8) :
    fdctImpl src (at8 r c) = holdToBound (forward16 src r c) (Config.fdctRaw src (at8 r c)) := by
  rw [fdctImpl, rowOf_at8, colOf_at8]

theorem idctImpl_at8 (src : Tile) (r c : Fin 8) :
    idctImpl src (at8 r c) = holdToBound (inverse16 src r c) (Config.idctRaw src (at8 r c)) := by
  rw [idctImpl, rowOf_at8, colOf_at8]

theorem fdctReference_at8 (src : Tile) (r c : Fin 8) :
    fdctReference src (at8 r c) = nearestSixteenth (forward16 src r c) := by
  rw [fdctReference, rowOf_at8, colOf_at8]

theorem idctReference_at8 (src : Tile) (r c : Fin 8) :
    idctReference src (at8 r c) = nearestSixteenth (inverse16 src r c) := by
  rw [idctReference, rowOf_at8, colOf_at8]

/-- Settles O29. -/
theorem transformAccuracy : Obligations.TransformAccuracy := by
  intro src r c
  rw [← forward16_div_sixteen, ← inverse16_div_sixteen, fdctImpl_at8, idctImpl_at8, fdctReference_at8, idctReference_at8]
  refine ⟨holdToBound_within (abs_forward16_lt src r c) _, holdToBound_within (abs_inverse16_lt src r c) _, rfl, rfl,
    fun _ => holdToBound_of_within, fun _ => holdToBound_of_within, ?reference⟩
  case reference =>
    rintro y x (⟨rfl, rfl⟩ | ⟨rfl, rfl⟩)
    · exact nearestSixteenth_spec (abs_forward16_lt src r c)
    · exact nearestSixteenth_spec (abs_inverse16_lt src r c)

/-! ## The transforms as matrix products -/

/-- The kernel of R102 and R103, doubled, with the frequency as its row and the sample as its column. -/
noncomputable def kernelMatrix : Matrix (Fin 8) (Fin 8) ℝ := .of fun k n => (cosFactor k n).value

/-- A tile's words as integers, by row and column (R12). -/
def tileMatrix (src : Tile) : Matrix (Fin 8) (Fin 8) ℝ := .of fun r c => (sint32 (src (at8 r c)) : ℝ)

theorem tileMatrix_apply (src : Tile) (r c : Fin 8) : tileMatrix src r c = sint32 (src (at8 r c)) := rfl

theorem value_forward16_eq_mul (src : Tile) (u v : Fin 8) :
    (forward16 src u v).value = (kernelMatrix * (tileMatrix src * kernelMatrixᵀ)) u v := by
  simp only [forward16, Surd.value_sum8, surd_ok.mul, Surd.value_scale, Matrix.mul_apply, Matrix.transpose_apply,
    kernelMatrix, tileMatrix, Matrix.of_apply]

theorem value_inverse16_eq_mul (src : Tile) (x y : Fin 8) :
    (inverse16 src x y).value = (kernelMatrixᵀ * (tileMatrix src * kernelMatrix)) x y := by
  simp only [inverse16, Surd.value_sum8, surd_ok.mul, Surd.value_scale, Matrix.mul_apply, Matrix.transpose_apply,
    kernelMatrix, tileMatrix, Matrix.of_apply]

theorem kernelMatrix_transpose_mul : kernelMatrixᵀ * kernelMatrix = (16 : ℝ) • 1 := by
  ext n m
  have h := congrArg Surd.value (cosFactor_orthogonal n m)
  rw [Surd.value_sum8, surd_ok.ofInt] at h
  simpa [Matrix.mul_apply, kernelMatrix, surd_ok.mul, Matrix.one_apply] using h

theorem kernelMatrix_mul_transpose : kernelMatrix * kernelMatrixᵀ = (16 : ℝ) • 1 := by
  ext k l
  have h := congrArg Surd.value (cosFactor_orthogonal' k l)
  rw [Surd.value_sum8, surd_ok.ofInt] at h
  simpa [Matrix.mul_apply, kernelMatrix, surd_ok.mul, Matrix.one_apply] using h

/-! ## Flat tiles -/

theorem kernelMatrix_zero (n : Fin 8) : kernelMatrix 0 n = Real.sqrt 2 := by
  simp [kernelMatrix, cosFactor, twoCos, twoCosQuarter, Surd.value, Surd2.value, Surd1.value]

/-- A row of the kernel against its constant row 0: only the DC row sums to anything (R110). -/
theorem sum_kernelMatrix_row (k : Fin 8) : Real.sqrt 2 * ∑ n, kernelMatrix k n = if k = 0 then 16 else 0 := by
  have h := congrFun₂ kernelMatrix_mul_transpose k 0
  simpa [Matrix.mul_apply, kernelMatrix_zero, Finset.mul_sum, mul_comm, Matrix.one_apply] using h

/-- The ideal values of a tile of equal words: the DC is 8 times the word and every AC is 0 (R110). -/
theorem forward16_flat {src : Tile} {c : Word} (h : ∀ i, src i = c) (u v : Fin 8) :
    (forward16 src u v).value / 16 = if u = 0 ∧ v = 0 then 8 * (c.toInt : ℝ) else 0 := by
  have hsum : (forward16 src u v).value = (∑ x, kernelMatrix u x) * (∑ y, kernelMatrix v y) * c.toInt := by
    simp only [value_forward16_eq_mul, Matrix.mul_apply, Matrix.transpose_apply, tileMatrix, Matrix.of_apply, h, sint32,
      ← Finset.mul_sum, ← Finset.sum_mul]
    ring
  have hroot : (forward16 src u v).value / 16 =
      (Real.sqrt 2 * ∑ x, kernelMatrix u x) * (Real.sqrt 2 * ∑ y, kernelMatrix v y) * c.toInt / 32 := by
    rw [hsum]
    linear_combination -(∑ x, kernelMatrix u x) * (∑ y, kernelMatrix v y) * c.toInt / 32 * sqrt_two_sq
  rw [hroot, sum_kernelMatrix_row, sum_kernelMatrix_row]
  by_cases hu : u = 0
  · by_cases hv : v = 0
    · rw [if_pos hu, if_pos hv, if_pos ⟨hu, hv⟩]
      ring
    · simp [hv]
  · simp [hu]

/-- The DC answer of a tile of equal words (R104, R110). -/
theorem fdctImpl_flat_dc {src : Tile} {c : Word} (h : ∀ i, src i = c) : |fdctImpl src 0 - 8 * c.toInt| ≤ 1 := by
  have hnear := fdctImpl_within src 0
  rw [forward16_flat h, if_pos ⟨rfl, rfl⟩] at hnear
  exact_mod_cast hnear

/-- The AC answers of a tile of equal words (R104, R110). -/
theorem fdctImpl_flat_ac {src : Tile} {c : Word} (h : ∀ i, src i = c) {i : Fin 64} (hi : i ≠ 0) : |fdctImpl src i| ≤ 1 := by
  have hac : ¬(rowOf i = 0 ∧ colOf i = 0) := fun ⟨hrow, hcol⟩ => hi (by rw [← at8_rowOf_colOf i, hrow, hcol]; rfl)
  have hnear := fdctImpl_within src i
  rw [forward16_flat h, if_neg hac, sub_zero] at hnear
  exact_mod_cast hnear

/-- A word within DCT_ERR of 0 is below half of the smallest quantizer step, so it quantizes to 0 (R110, R121). -/
theorem quantLane_of_abs_le_one {w : Word} {T : Nat} (hw : |sint32 w| ≤ 1) (hT : 1 ≤ T) : quantLane w T = (0, false) := by
  have := abs_le.1 hw
  have hzero : quantExact w T = 0 := by
    rw [quantExact, Nat.div_eq_of_lt (by omega), Nat.cast_zero, mul_zero]
  rw [quantLane, hzero]
  rfl

/-- Settles O30. -/
theorem flatTileHasNoAc : Obligations.FlatTileHasNoAc := by
  intro src c h
  refine ⟨fdctImpl_flat_dc h, fun i hi => ⟨fdctImpl_flat_ac h hi, fun T hT _ => quantLane_of_abs_le_one ?_ hT⟩⟩
  have hac := abs_le.1 (fdctImpl_flat_ac h hi)
  rw [sint32, toInt_wordOf_sat32, abs_le]
  omega

/-! ## The round trip -/

/-- A column of the kernel has the square sum 16, so by Cauchy-Schwarz its absolute sum has a square of at most 8·16. -/
theorem sum_abs_kernelMatrix_sq_le (n : Fin 8) : (∑ k, |kernelMatrix k n|) ^ 2 ≤ 128 := by
  have hcolumn : ∑ k, kernelMatrix k n ^ 2 = 16 := by
    simpa [Matrix.mul_apply, pow_two] using congrFun₂ kernelMatrix_transpose_mul n n
  calc (∑ k, |kernelMatrix k n|) ^ 2 ≤ 8 * ∑ k, |kernelMatrix k n| ^ 2 := by
        simpa using sq_sum_le_card_mul_sum_sq (s := Finset.univ) (f := fun k => |kernelMatrix k n|)
    _ = 128 := by simp only [sq_abs, hcolumn]; norm_num

/-- The inverse transform carries an error of at most 1 in every coefficient to at most 8 in every sample (R112). -/
theorem abs_inverse_error_le {D : Matrix (Fin 8) (Fin 8) ℝ} (h : ∀ u v, |D u v| ≤ 1) (x y : Fin 8) :
    |(kernelMatrixᵀ * (D * kernelMatrix)) x y| ≤ 128 := by
  have hcolumn (u : Fin 8) : |(D * kernelMatrix) u y| ≤ ∑ v, |kernelMatrix v y| := by
    rw [Matrix.mul_apply]
    refine (Finset.abs_sum_le_sum_abs _ _).trans (Finset.sum_le_sum fun v _ => ?_)
    rw [abs_mul]
    exact mul_le_of_le_one_left (abs_nonneg _) (h u v)
  calc |(kernelMatrixᵀ * (D * kernelMatrix)) x y| ≤ ∑ u, |kernelMatrix u x| * ∑ v, |kernelMatrix v y| := by
        rw [Matrix.mul_apply]
        refine (Finset.abs_sum_le_sum_abs _ _).trans (Finset.sum_le_sum fun u _ => ?_)
        rw [abs_mul, Matrix.transpose_apply]
        exact mul_le_mul_of_nonneg_left (hcolumn u) (abs_nonneg _)
    _ = (∑ u, |kernelMatrix u x|) * ∑ v, |kernelMatrix v y| := by rw [Finset.sum_mul]
    _ ≤ 128 := by
        linarith [two_mul_le_add_sq (∑ u, |kernelMatrix u x|) (∑ v, |kernelMatrix v y|),
          sum_abs_kernelMatrix_sq_le x, sum_abs_kernelMatrix_sq_le y]

/-- The inverse transform undoes the forward one, up to the factor 16 of each (R112). -/
theorem inverse_forward_eq_smul (M : Matrix (Fin 8) (Fin 8) ℝ) :
    kernelMatrixᵀ * (kernelMatrix * (M * kernelMatrixᵀ) * kernelMatrix) = (256 : ℝ) • M := by
  calc _ = kernelMatrixᵀ * kernelMatrix * (M * (kernelMatrixᵀ * kernelMatrix)) := by simp only [Matrix.mul_assoc]
    _ = (256 : ℝ) • M := by
      rw [kernelMatrix_transpose_mul, Matrix.smul_mul, one_mul, Matrix.mul_smul, mul_one, smul_smul]
      norm_num

/-- The ideal inverse of coefficients within 1 of the ideal ones is within 8 of the samples, in units of 2^-8 (R112). -/
theorem inverse16_of_near_forward16 {t F : Tile}
    (h : ∀ u v, |(sint32 (F (at8 u v)) : ℝ) - (forward16 t u v).value / 16| ≤ 1) (x y : Fin 8) :
    |(inverse16 F x y).value / 16 - sint32 (t (at8 x y))| ≤ 8 := by
  have hnear (u v : Fin 8) :
      |(tileMatrix F - (1 / 16 : ℝ) • (kernelMatrix * (tileMatrix t * kernelMatrixᵀ))) u v| ≤ 1 := by
    rw [Matrix.sub_apply, Matrix.smul_apply, ← value_forward16_eq_mul, tileMatrix_apply, smul_eq_mul, one_div_mul_eq_div]
    exact h u v
  have hsamples := abs_inverse_error_le hnear x y
  rw [Matrix.sub_mul, Matrix.mul_sub, Matrix.smul_mul, Matrix.mul_smul, inverse_forward_eq_smul, smul_smul,
    Matrix.sub_apply, ← value_inverse16_eq_mul, Matrix.smul_apply, tileMatrix_apply, smul_eq_mul, abs_le] at hsamples
  exact abs_le.2 ⟨by linarith, by linarith⟩

/-- Two realizations within R104's bound bring every sample back within 9 units of 2^-8 (R112). -/
theorem idctImpl_of_fdctImpl_within {t F : Tile} (hF : ∀ i, sint32 (F i) = fdctImpl t i) (i : Fin 64) :
    |idctImpl F i - sint32 (t i)| ≤ 9 := by
  have hideal := inverse16_of_near_forward16 (t := t) (F := F)
    (fun u v => by simpa [hF] using fdctImpl_within t (at8 u v)) (rowOf i) (colOf i)
  rw [at8_rowOf_colOf] at hideal
  have h : |(idctImpl F i : ℝ) - sint32 (t i)| ≤ 9 := by
    linarith [abs_sub_le (idctImpl F i : ℝ) ((inverse16 F (rowOf i) (colOf i)).value / 16) (sint32 (t i)),
      idctImpl_within F i]
  exact_mod_cast h

/-- With OVF 0 after a transform it was 0 before, and every integer fitted a word (R105). -/
theorem transformed_fits {s : State} {dst : BufIx} {y : Fin 64 → Int} (h : (transformed s dst y).ovf = false) :
    s.ovf = false ∧ ∀ k, -2147483648 ≤ y k ∧ y k ≤ 2147483647 := by
  rw [Bool.eq_false_iff, ne_eq, transformed_ovf_iff, not_or] at h
  refine ⟨Bool.eq_false_iff.2 h.1, fun k => ?_⟩
  have := mt (Exists.intro k) h.2
  omega

/-- Settles O32. -/
theorem transformRoundTrip : Obligations.TransformRoundTrip := by
  intro a b c s s1 s2 hsize _ hfdct hidct hovf i
  rw [exec_fdct a b hsize] at hfdct
  obtain rfl := Host.Outcome.next.inj hfdct
  rw [exec_idct (s := transformed s b _) b c hsize] at hidct
  obtain rfl := Host.Outcome.next.inj hidct
  obtain ⟨hovf1, hsample⟩ := transformed_fits hovf
  obtain ⟨-, hcoefficient⟩ := transformed_fits hovf1
  have hF (k : Fin 64) := sint32_transformed_tile (s := s) (dst := b) (hcoefficient k).1 (hcoefficient k).2
  refine ⟨_, transformed_word _ c _ i, ?_⟩
  obtain ⟨hlo, hhi⟩ := hsample i
  rw [toInt_wordOf_sat32, min_eq_left hhi, max_eq_right hlo]
  exact idctImpl_of_fdctImpl_within hF i

end Sys2Proof.Machine

/-! SUPPORT. Proofs of the statements on the quantizer (spec/41_quantizer.md): the quotient between its two half steps, the
value and the flag of a lane, and how QUANT and DEQUANT end. -/

namespace Sys2Proof.Machine

/-! ## The quotient -/

/-- Half a step is added to the magnitude before it is divided (R121). -/
theorem quantExact_of_nonneg {w : Word} {T : Nat} (hT : 1 ≤ T) (h : 0 ≤ w.toInt) :
    quantExact w T = (w.toInt + 128 * T) / (256 * T) := by
  rw [quantExact, sint32]
  rcases h.eq_or_lt with hzero | hpos
  · rw [← hzero, zero_add, Int.ediv_eq_zero_of_lt (by omega) (by omega), Int.sign_zero, zero_mul]
  · rw [Int.sign_eq_one_of_pos hpos, one_mul]
    push_cast
    rw [abs_of_pos hpos]

/-- The quotient is odd in the word's value: a negative one is rounded as its magnitude is (R121). -/
theorem quantExact_of_neg {w : Word} (T : Nat) (h : w.toInt < 0) :
    quantExact w T = -((-w.toInt + 128 * T) / (256 * T)) := by
  rw [quantExact, sint32, Int.sign_eq_neg_one_of_neg h, neg_one_mul]
  push_cast
  rw [abs_of_neg h]

/-- A word is within half a step of its quotient's multiple; the half step on the side of 0 is included, the other is not
(R121). -/
theorem quantExact_step (w : Word) {T : Nat} (hT : 1 ≤ T) :
    (0 ≤ w.toInt ∧ 256 * T * quantExact w T ≤ w.toInt + 128 * T ∧ w.toInt < 256 * T * quantExact w T + 128 * T) ∨
    (w.toInt < 0 ∧ w.toInt ≤ 256 * T * quantExact w T + 128 * T ∧ 256 * T * quantExact w T < w.toInt + 128 * T) := by
  have hstep : (0 : Int) < 256 * T := by omega
  rcases le_or_gt 0 w.toInt with h | h
  · have hle := Int.mul_ediv_self_le (x := w.toInt + 128 * T) hstep.ne'
    have hlt := Int.lt_mul_ediv_self_add (x := w.toInt + 128 * T) hstep
    rw [quantExact_of_nonneg hT h]
    exact .inl ⟨h, by omega, by omega⟩
  · have hle := Int.mul_ediv_self_le (x := -w.toInt + 128 * T) hstep.ne'
    have hlt := Int.lt_mul_ediv_self_add (x := -w.toInt + 128 * T) hstep
    rw [quantExact_of_neg T h, mul_neg]
    exact .inr ⟨h, by omega, by omega⟩

/-- The quotient is the nearest integer (R121). -/
theorem quantExact_nearest (w : Word) {T : Nat} (hT : 1 ≤ T) : 2 * |w.toInt - 256 * T * quantExact w T| ≤ 256 * T := by
  have := quantExact_step w hT
  rw [Int.abs_eq_natAbs]
  omega

/-- At a tie the quotient is the one of larger magnitude (R121). -/
theorem quantExact_tie {w : Word} {T : Nat} (hT : 1 ≤ T) (h : 2 * |w.toInt - 256 * T * quantExact w T| = 256 * T) :
    |w.toInt| < |256 * T * quantExact w T| := by
  have := quantExact_step w hT
  simp only [Int.abs_eq_natAbs] at h ⊢
  omega

/-- A word of magnitude below 32767.5·T has a quotient in the quantized range (R125). -/
theorem abs_quantExact_le {w : Word} {T : Nat} (hT : 1 ≤ T) (h : 2 * |w.toInt| < 65535 * (256 * T)) :
    |quantExact w T| ≤ 32767 := by
  have hstep : (0 : Int) < 256 * T := by omega
  have hmultiple : |256 * T * quantExact w T| < 256 * T * 32768 := by
    have := quantExact_step w hT
    rw [Int.abs_eq_natAbs] at h ⊢
    omega
  rw [abs_mul, abs_of_pos hstep] at hmultiple
  exact Int.lt_add_one_iff.1 (lt_of_mul_lt_mul_left hmultiple hstep.le)

/-! ## The lanes -/

/-- A clamped word's value is the clamped integer (R8). -/
theorem toInt_wordOf_satq (y : Int) : (wordOf (satq y)).toInt = max (-32767) (min y 32767) := by
  rw [toInt_wordOf] <;> unfold satq <;> omega

theorem quantLane_value (w : Word) (T : Nat) :
    (quantLane w T).1.toInt = max (-32767) (min (quantExact w T) 32767) :=
  toInt_wordOf_satq _

theorem quantLane_clamped_iff (w : Word) (T : Nat) :
    (quantLane w T).2 = true ↔ quantExact w T < -32767 ∨ 32767 < quantExact w T :=
  satq_ne_iff _

theorem dequantLane_value (w : Word) (T : Nat) :
    (dequantLane w T).1.toInt = max (-2147483648) (min (256 * (w.toInt * T)) 2147483647) :=
  toInt_wordOf_sat32 _

theorem dequantLane_saturated_iff (w : Word) (T : Nat) :
    (dequantLane w T).2 = true ↔ 256 * (w.toInt * T) < -2147483648 ∨ 2147483647 < 256 * (w.toInt * T) :=
  sat32_ne_iff _

/-- A lane of QUANT in its range is not clamped, and no other is. -/
theorem quantLane_unclamped_iff (w : Word) (T : Nat) : (quantLane w T).2 = false ↔ |quantExact w T| ≤ 32767 := by
  rw [Bool.eq_false_iff, ne_eq, quantLane_clamped_iff, abs_le]
  omega

/-- A product of a word in the quantized range and a divisor fits a word, since 32767 · 255 · 256 < 2^31 (R125). -/
theorem abs_product_le {q : Int} {T : Nat} (hq : |q| ≤ 32767) (hT : T ≤ 255) : |256 * (q * T)| ≤ 256 * (32767 * 255) := by
  calc |256 * (q * T)| = 256 * (|q| * T) := by rw [abs_mul, abs_mul, Nat.abs_cast, Nat.abs_ofNat]
    _ ≤ 256 * (32767 * 255) := by gcongr; exact_mod_cast hT

/-- Settles O33. -/
theorem quantLaneRoundsHalfAway : Obligations.QuantLaneRoundsHalfAway := fun w T hT _ =>
  ⟨quantExact_nearest w hT, quantExact_tie hT, quantLane_value w T, quantLane_clamped_iff w T⟩

/-- Settles O35: what QUANT stores is in the quantized range, so its product with the divisor fits a word; unclamped, the
product is the multiple nearest to the coefficient. -/
theorem quantizationBound : Obligations.QuantizationBound := by
  intro w T hT hT'
  have hrange : |(quantLane w T).1.toInt| ≤ 32767 := by rw [quantLane_value, abs_le]; omega
  have hfits := abs_le.1 (abs_product_le hrange hT')
  refine ⟨?fits, fun hunclamped => ?near, fun h => (quantLane_unclamped_iff w T).2 (abs_quantExact_le hT h)⟩
  case fits =>
    rw [Bool.eq_false_iff, ne_eq, dequantLane_saturated_iff]
    omega
  case near =>
    have hq : (quantLane w T).1.toInt = quantExact w T := by
      have := abs_le.1 ((quantLane_unclamped_iff w T).1 hunclamped)
      rw [quantLane_value]
      omega
    have hproduct : (dequantLane (quantLane w T).1 T).1.toInt = 256 * T * quantExact w T := by
      rw [dequantLane_value, min_eq_left (by omega), max_eq_right (by omega), hq]
      ring
    rw [hproduct, abs_sub_comm]
    exact quantExact_nearest w hT

/-! ## How QUANT and DEQUANT end -/

/-- The state a command leaves that stores the answers of `lane` in `dst` (R120, R202). -/
def lanesStored (s : State) (dst : BufIx) (lane : Fin 64 → Word × Bool) : State :=
  (commitCommand (storeLanes s dst lane)).useDraws

theorem exec_quant {s : State} (src dst : BufIx) (q : TableIx) (h : s.tileN = 8) : exec (.quant src dst q) s =
    .next (lanesStored s dst fun i => quantLane (s.tile src i) (quantTable q i)) := by
  rw [exec, execQuant, withTileN_eight h, endCommand_commit, lanesStored]

theorem exec_dequant {s : State} (src dst : BufIx) (q : TableIx) (h : s.tileN = 8) : exec (.dequant src dst q) s =
    .next (lanesStored s dst fun i => dequantLane (s.tile src i) (quantTable q i)) := by
  rw [exec, execDequant, withTileN_eight h, endCommand_commit, lanesStored]

theorem lanesStored_word (s : State) (dst : BufIx) (lane : Fin 64 → Word × Bool) (k : Fin 64) :
    (lanesStored s dst lane).tb[dst][k] = some (lane k).1 :=
  writeTile_same s dst _ k

theorem lanesStored_other (s : State) {dst b : BufIx} (lane : Fin 64 → Word × Bool) (h : b ≠ dst) :
    (lanesStored s dst lane).tb[b] = s.tb[b] :=
  writeTile_other s _ h

theorem lanesStored_ovf_iff (s : State) (dst : BufIx) (lane : Fin 64 → Word × Bool) :
    (lanesStored s dst lane).ovf = true ↔ s.ovf = true ∨ ∃ k, (lane k).2 = true := by
  rw [lanesStored, State.useDraws_ovf, commitCommand_ovf, storeLanes_ovf, Bool.or_eq_true, anyLane_iff]

/-- Settles O34: both commands store their lanes' answers, so the value and the flag of one lane decide each statement. -/
theorem quantCommandsComplete : Obligations.QuantCommandsComplete := by
  intro src dst q s h done
  have completes {i : Instr} {lane : Fin 64 → Word × Bool} {y : Fin 64 → Int} {lo hi : Int}
      (ends : exec i s = .next (lanesStored s dst lane)) (value : ∀ k, (lane k).1.toInt = max lo (min (y k) hi))
      (flag : ∀ k, (lane k).2 = true ↔ y k < lo ∨ hi < y k) : done i y lo hi :=
    ⟨_, ends, fun k => ⟨_, lanesStored_word s dst lane k, value k⟩, fun _ => lanesStored_other s lane,
      (lanesStored_ovf_iff s dst lane).trans (or_congr_right (exists_congr flag)), rfl, rfl, rfl⟩
  exact ⟨completes (exec_quant src dst q h) (fun _ => quantLane_value _ _) fun _ => quantLane_clamped_iff _ _,
    completes (exec_dequant src dst q h) (fun _ => dequantLane_value _ _) fun _ => dequantLane_saturated_iff _ _⟩

end Sys2Proof.Machine

/-! SUPPORT. Proofs of the statements on the zigzag permutation (spec/42_zigzag.md): the table and its inverse, the two
permutations of a tile, and how ZIGZAG and UNZIGZAG end. -/

namespace Sys2Proof.Machine

/-! ## The table and its inverse -/

theorem izz_zz (k : Fin 64) : izz (zz k) = k := by
  revert k
  decide

/-- A left inverse of a map of a finite set to itself is a right inverse as well (R131). -/
theorem zz_izz (i : Fin 64) : zz (izz i) = i := Function.LeftInverse.rightInverse_of_card_le izz_zz le_rfl i

/-- The table is the anti-diagonal order (R130). -/
theorem map_zz_eq_zigzagOrder : (List.finRange 64).map (fun k => (zz k).val) = zigzagOrder := by decide

/-- Settles O37. -/
theorem zigzagTableIsGenerated : Obligations.ZigzagTableIsGenerated := ⟨map_zz_eq_zigzagOrder, izz_zz, zz_izz⟩

/-! ## The two permutations of a tile -/

/-- UNZIGZAG's word at `ZZ[k]`, as R133 writes it. -/
theorem ofZigzag_zz (t : Tile) (k : Fin 64) : ofZigzag t (zz k) = t k := congrArg t (izz_zz k)

theorem ofZigzag_toZigzag (t : Tile) : ofZigzag (toZigzag t) = t := funext fun i => congrArg t (zz_izz i)

theorem toZigzag_ofZigzag (t : Tile) : toZigzag (ofZigzag t) = t := funext (ofZigzag_zz t)

/-! ## How ZIGZAG and UNZIGZAG end -/

/-- The state a command leaves that stores the tile `t` in `dst` and writes nothing else (R132, R133, R202). -/
def tileStored (s : State) (dst : BufIx) (t : Tile) : State :=
  (commitCommand (s.writeTile dst t)).useDraws

/-- With CFG.TILE_N = 8 the command `i` stores in `dst` the tile `f` makes of the snapshot of `src`. -/
def StoresTile (i : Instr) (src dst : BufIx) (f : Tile → Tile) : Prop :=
  ∀ s : State, s.tileN = 8 → exec i s = .next (tileStored s dst (f (s.tile src)))

theorem zigzag_storesTile (src dst : BufIx) : StoresTile (.zigzag src dst) src dst toZigzag := by
  intro s h
  rw [exec, execZigzag, withTileN_eight h, endCommand_commit, tileStored]

theorem unzigzag_storesTile (src dst : BufIx) : StoresTile (.unzigzag src dst) src dst ofZigzag := by
  intro s h
  rw [exec, execUnzigzag, withTileN_eight h, endCommand_commit, tileStored]

theorem tileStored_word (s : State) (dst : BufIx) (t : Tile) (k : Fin 64) :
    (tileStored s dst t).tb[dst][k] = some (t k) :=
  writeTile_same s dst t k

theorem tileStored_other (s : State) {dst b : BufIx} (t : Tile) (h : b ≠ dst) : (tileStored s dst t).tb[b] = s.tb[b] :=
  writeTile_other s t h

/-- What a later command reads in `dst`. -/
theorem tileStored_tile (s : State) (dst : BufIx) (t : Tile) : (tileStored s dst t).tile dst = t :=
  tile_of_written (tileStored_word s dst t)

/-- Settles O38. -/
theorem zigzagCommandsComplete : Obligations.ZigzagCommandsComplete := by
  intro src dst s h moved
  have stored (t : Tile) : moved (tileStored s dst t) := ⟨fun _ => tileStored_other s t, rfl, rfl, rfl⟩
  refine ⟨⟨_, zigzag_storesTile src dst s h, tileStored_word s dst _, stored _⟩,
    ⟨_, unzigzag_storesTile src dst s h, fun k => ?unzigzagged, stored _⟩⟩
  case unzigzagged => rw [tileStored_word, ofZigzag_zz]

/-! ## The round trips -/

/-- A second command that undoes what the first makes of its source leaves the first source's snapshot: it reads the words
the first stored, and CFG.TILE_N is still 8 (R134). -/
theorem StoresTile.undone {i j : Instr} {a b c : BufIx} {f g : Tile → Tile} (hi : StoresTile i a b f)
    (hj : StoresTile j b c g) (undo : ∀ t, g (f t) = t) {s s1 s2 : State} (h : s.tileN = 8) (h1 : exec i s = .next s1)
    (h2 : exec j s1 = .next s2) (k : Fin 64) : s2.tb[c][k] = some (s.tile a k) := by
  rw [hi s h] at h1
  obtain rfl := Host.Outcome.next.inj h1
  rw [hj (tileStored s b _) h] at h2
  obtain rfl := Host.Outcome.next.inj h2
  rw [tileStored_word, tileStored_tile, undo]

/-- Settles O39. -/
theorem zigzagRoundTrip : Obligations.ZigzagRoundTrip := by
  refine ⟨rfl, fun a b c s s1 s2 h => ?_⟩
  rintro (⟨h1, h2⟩ | ⟨h1, h2⟩)
  · exact (zigzag_storesTile a b).undone (unzigzag_storesTile b c) ofZigzag_toZigzag h h1 h2
  · exact (unzigzag_storesTile a b).undone (zigzag_storesTile b c) toZigzag_ofZigzag h h1 h2

end Sys2Proof.Machine

/-! SUPPORT. Proofs of the statements on the run-length coder (spec/43_rle.md) and on the amplitude bits
(spec/44_huffman.md R166, R167): the category, the fields and the expansion of symbol words, the encoder's loop and the
decoder's loop against the statements' own symbols and expansion, and how RLE_ENC and RLE_DEC end. -/

namespace Sys2Proof.Machine

/-! ## The magnitude category -/

theorem cat_of_ne_zero {x : Int} (h : x ≠ 0) : cat x = Nat.log2 x.natAbs + 1 := if_neg h

theorem one_le_cat {x : Int} (h : x ≠ 0) : 1 ≤ cat x := cat_of_ne_zero h ▸ Nat.le_add_left 1 _

theorem two_pow_cat_sub_one_le {x : Int} (h : x ≠ 0) : 2 ^ (cat x - 1) ≤ x.natAbs := by
  rw [cat_of_ne_zero h, Nat.add_sub_cancel]
  exact Nat.log2_self_le (Int.natAbs_ne_zero.2 h)

theorem natAbs_lt_two_pow_cat {x : Int} (h : x ≠ 0) : x.natAbs < 2 ^ cat x := by
  rw [cat_of_ne_zero h]
  exact Nat.lt_log2_self

/-- Settles O40. -/
theorem magnitudeCategory : Obligations.MagnitudeCategory :=
  ⟨rfl, fun _ h => ⟨one_le_cat h, two_pow_cat_sub_one_le h, natAbs_lt_two_pow_cat h⟩⟩

/-! ## Amplitude bits -/

/-- What the amplitude bits are the low bits of: the amplitude, with 2^s − 1 added if it is negative (R166). -/
def ampOffset (a : Int) (s : Nat) : Int := if 0 ≤ a then a else a + 2 ^ s - 1

theorem ampBits_eq (a : Int) (s : Nat) : (ampBits a s : Int) = ampOffset a s % 2 ^ s := by
  have hpos : (0 : Int) < 2 ^ s := by positivity
  unfold ampBits ampOffset lowBits
  split <;> · push_cast; exact Int.toNat_of_nonneg (Int.emod_nonneg _ hpos.ne')

theorem ampBits_lt (a : Int) (s : Nat) : ampBits a s < 2 ^ s := by
  have h : (ampBits a s : Int) < 2 ^ s := ampBits_eq a s ▸ Int.emod_lt_of_pos _ (by positivity)
  exact_mod_cast h

theorem ampOffset_eq_ampBits_add (a : Int) (s : Nat) : ampOffset a s = ampBits a s + ampOffset a s / 2 ^ s * 2 ^ s := by
  rw [ampBits_eq, Int.emod_add_ediv_mul]

theorem getElem?_bitsMsb (v : Nat) {n i : Nat} (h : i < n) : (bitsMsb v n)[i]? = some (v.testBit (n - 1 - i)) := by
  induction n generalizing i with
  | zero => omega
  | succ n ih =>
    cases i with
    | zero => rfl
    | succ i => rw [bitsMsb, List.getElem?_cons_succ, ih (by omega), show n + 1 - 1 - (i + 1) = n - 1 - i by omega]

/-- A bit below bit `s` is the same in numbers that differ by a multiple of 2^s. -/
theorem testBit_eq_of_eq_add_mul {x k : Int} {n s j : Nat} (h : x = n + k * 2 ^ s) (hj : j < s) :
    n.testBit j = decide (x / 2 ^ j % 2 = 1) := by
  obtain ⟨d, rfl⟩ := Nat.exists_eq_add_of_lt hj
  have hquot : x / 2 ^ j = (n / 2 ^ j : Nat) + 2 * (k * 2 ^ d) := by
    rw [h, show k * 2 ^ (j + d + 1) = 2 * (k * 2 ^ d) * 2 ^ j by ring, Int.add_mul_ediv_right _ _ (by positivity)]
    push_cast
    rfl
  rw [Nat.testBit_eq_decide_div_mod_eq, decide_eq_decide, hquot]
  omega

/-- The amplitude bits as they are packed (R166, R167). -/
theorem getElem?_bitsMsb_ampBits (a : Int) {s i : Nat} (h : i < s) :
    (bitsMsb (ampBits a s) s)[i]? = some (decide (ampOffset a s / 2 ^ (s - 1 - i) % 2 = 1)) := by
  rw [getElem?_bitsMsb _ h, testBit_eq_of_eq_add_mul (ampOffset_eq_ampBits_add a s) (by omega)]

/-- The numbers of `cat a` bits are two halves (R140). -/
theorem two_pow_cat {a : Int} (h : a ≠ 0) : (2 : Int) ^ cat a = 2 * 2 ^ (cat a - 1) := by
  rw [cat_of_ne_zero h, Nat.add_sub_cancel, pow_succ, mul_comm]

/-- In its own category an amplitude's number is in the upper half of the `cat a` bits if it is positive, and in the lower half
if it is negative (R140, R166). -/
theorem ampOffset_cat_cases {a : Int} (h : a ≠ 0) :
    (0 ≤ a ∧ 2 ^ (cat a - 1) ≤ ampOffset a (cat a) ∧ ampOffset a (cat a) < 2 * 2 ^ (cat a - 1)) ∨
    (a < 0 ∧ 0 ≤ ampOffset a (cat a) ∧ ampOffset a (cat a) < 2 ^ (cat a - 1)) := by
  have hlow : (2 : Int) ^ (cat a - 1) ≤ a.natAbs := by exact_mod_cast two_pow_cat_sub_one_le h
  have hhigh : (a.natAbs : Int) < 2 * 2 ^ (cat a - 1) := two_pow_cat h ▸ by exact_mod_cast natAbs_lt_two_pow_cat h
  unfold ampOffset
  rw [two_pow_cat h]
  split <;> omega

theorem ampBits_cat {a : Int} (h : a ≠ 0) : (ampBits a (cat a) : Int) = ampOffset a (cat a) := by
  have hcases := ampOffset_cat_cases h
  have hpos : (0 : Int) < 2 ^ (cat a - 1) := by positivity
  rw [ampBits_eq, two_pow_cat h]
  exact Int.emod_eq_of_lt (by omega) (by omega)

/-- The first amplitude bit in an amplitude's own category is its sign (R166, R167). -/
theorem head?_bitsMsb_ampBits_cat {a : Int} (h : a ≠ 0) :
    (bitsMsb (ampBits a (cat a)) (cat a)).head? = some (decide (0 ≤ a)) := by
  have hpos : (0 : Int) < 2 ^ (cat a - 1) := by positivity
  rw [List.head?_eq_getElem?, getElem?_bitsMsb_ampBits a (one_le_cat h), Nat.sub_zero]
  rcases ampOffset_cat_cases h with ⟨hsign, hlow, hhigh⟩ | ⟨hsign, hlow, hhigh⟩
  · have hquot : ampOffset a (cat a) / 2 ^ (cat a - 1) = 1 :=
      le_antisymm (Int.lt_add_one_iff.1 (Int.ediv_lt_of_lt_mul hpos (by omega))) (Int.le_ediv_of_mul_le hpos (by omega))
    simp [hquot, hsign]
  · simp [Int.ediv_eq_zero_of_lt hlow hhigh, hsign]

/-- Settles O49. -/
theorem amplitudeBitsFit : Obligations.AmplitudeBitsFit := fun a =>
  ⟨fun s => ⟨ampBits_lt a s, ⟨_, ampOffset_eq_ampBits_add a s⟩, length_bitsMsb _ s,
      fun _ => getElem?_bitsMsb_ampBits a⟩,
    fun h => ⟨ampBits_cat h, ampBits_lt a _, head?_bitsMsb_ampBits_cat h⟩⟩

/-! ## Symbol words and what they stand for -/

theorem symRun_eq (w : Word) : symRun w = w.toNat / 2 ^ 20 % 16 := by
  rw [symRun, BitVec.extractLsb'_toNat, Nat.shiftRight_eq_div_pow]

theorem symSize_eq (w : Word) : symSize w = w.toNat / 2 ^ 16 % 16 := by
  rw [symSize, BitVec.extractLsb'_toNat, Nat.shiftRight_eq_div_pow]

theorem symAmp_eq (w : Word) :
    symAmp w = if (w.toNat : Int) % 2 ^ 16 < 2 ^ 15 then (w.toNat : Int) % 2 ^ 16 else (w.toNat : Int) % 2 ^ 16 - 2 ^ 16 := by
  rw [symAmp, BitVec.toInt_eq_toNat_cond, BitVec.extractLsb'_toNat, Nat.shiftRight_zero]
  split <;> split <;> omega

/-- The statements' EOB is the decoder's (R147). -/
theorem isEobWord_iff (w : Word) : isEobWord w = true ↔ symRun w = 0 ∧ symSize w = 0 := by
  rw [isEobWord, beq_iff_eq, symRun_eq, symSize_eq]
  omega

/-- The decoder's reading of ZRL (R147). -/
theorem symbolExpansion_zrl {w : Word} (h : symRun w = 15 ∧ symSize w = 0) :
    symbolExpansion w = List.replicate 16 0 := by
  rw [symRun_eq, symSize_eq] at h
  exact if_pos (by omega)

/-- The decoder's reading of any other symbol but EOB (R147). -/
theorem symbolExpansion_normal {w : Word} (h : ¬(symRun w = 15 ∧ symSize w = 0)) :
    symbolExpansion w = List.replicate (symRun w) 0 ++ [symAmp w] := by
  rw [symRun_eq, symSize_eq] at h
  rw [symbolExpansion, if_neg (by omega), symRun_eq, symAmp_eq]

/-- What symbol words stand for, without a limit: those before the first EOB, expanded (R147). -/
def expansion (syms : List Word) : List Int := (syms.takeWhile fun w => !isEobWord w).flatMap symbolExpansion

theorem expandedCoefficient_eq (syms : List Word) (i : Fin 64) :
    expandedCoefficient syms i = (expansion syms).getD (i.val - 1) 0 := rfl

theorem expansion_eob {w : Word} (ws : List Word) (h : symRun w = 0 ∧ symSize w = 0) : expansion (w :: ws) = [] := by
  rw [expansion, List.takeWhile_cons_of_neg (by rw [(isEobWord_iff w).2 h]; decide), List.flatMap_nil]

theorem expansion_cons {w : Word} (ws : List Word) (h : ¬(symRun w = 0 ∧ symSize w = 0)) :
    expansion (w :: ws) = symbolExpansion w ++ expansion ws := by
  rw [← isEobWord_iff, Bool.not_eq_true] at h
  rw [expansion, List.takeWhile_cons_of_pos (by rw [h]; rfl), List.flatMap_cons, expansion]

theorem toNat_append {m n : Nat} (x : BitVec m) (y : BitVec n) : (x ++ y).toNat = 2 ^ n * x.toNat + y.toNat := by
  rw [BitVec.toNat_append, Nat.shiftLeft_eq, mul_comm, Nat.two_pow_add_eq_or_of_lt y.isLt]

/-- A symbol word as a number (R24, R141). -/
theorem sym_eq_ofNat {run size : Nat} (amp : Int) (hrun : run < 16) (hsize : size < 16) :
    sym run size amp = BitVec.ofNat 32 (2 ^ 20 * run + 2 ^ 16 * size + (amp % 2 ^ 16).toNat) := by
  apply BitVec.eq_of_toNat_eq
  simp only [sym, toNat_append, BitVec.toNat_ofNat, BitVec.toNat_ofInt]
  push_cast
  omega

theorem cat_lt_sixteen {v : Int} (h : -32767 ≤ v ∧ v ≤ 32767) : cat v < 16 := by
  by_cases hv : v = 0
  · simp [cat, hv]
  · have hlow := two_pow_cat_sub_one_le hv
    have hlt : cat v - 1 < 15 := (Nat.pow_lt_pow_iff_right (by decide)).1 (hlow.trans_lt (by omega : v.natAbs < 2 ^ 15))
    omega

theorem symSize_sym_cat_ne_zero {v : Int} (run : Nat) (hv : v ≠ 0) (h : -32767 ≤ v ∧ v ≤ 32767) :
    symSize (sym run (cat v) v) ≠ 0 := by
  rw [symSize_sym run v (cat_lt_sixteen h)]
  exact Nat.one_le_iff_ne_zero.1 (one_le_cat hv)

/-- The symbol of a nonzero value in range stands for its zeros and then the value (R147). -/
theorem symbolExpansion_sym_cat {run : Nat} {v : Int} (hrun : run < 16) (hv : v ≠ 0) (h : -32767 ≤ v ∧ v ≤ 32767) :
    symbolExpansion (sym run (cat v) v) = List.replicate run 0 ++ [v] := by
  rw [symbolExpansion_normal fun hzrl => symSize_sym_cat_ne_zero run hv h hzrl.2, symRun_sym _ _ hrun,
    symAmp_sym _ _ (by omega) (by omega)]

/-! ## The encoder's loop -/

theorem encodeRuns_zero (vs : List Int) (run : Nat) : encodeRuns (0 :: vs) run =
    if run + 1 = 16 then zrl :: encodeRuns vs (run + 1 - 16) else encodeRuns vs (run + 1) := rfl

theorem encodeRuns_of_ne_zero {v : Int} (vs : List Int) (run : Nat) (h : v ≠ 0) :
    encodeRuns (v :: vs) run = sym run (cat v) v :: encodeRuns vs 0 := if_neg h

/-- Zeros advance the counter by their number, with one ZRL for each 16 (R143, R146). -/
theorem encodeRuns_replicate_zero (z : Nat) (vs : List Int) {run : Nat} (h : run < 16) :
    encodeRuns (List.replicate z 0 ++ vs) run =
      List.replicate ((run + z) / 16) zrl ++ encodeRuns vs ((run + z) % 16) := by
  induction z generalizing run with
  | zero => simp [Nat.div_eq_of_lt h, Nat.mod_eq_of_lt h]
  | succ z ih =>
    rw [List.replicate_succ, List.cons_append, encodeRuns_zero]
    split
    · rw [ih (by omega), show (run + (z + 1)) / 16 = (run + 1 - 16 + z) / 16 + 1 by omega,
        show (run + (z + 1)) % 16 = (run + 1 - 16 + z) % 16 by omega, List.replicate_succ, List.cons_append]
    · rw [ih (by omega), show run + 1 + z = run + (z + 1) by omega]

/-- Settles O44. -/
theorem zeroRunsSubtractSixteen : Obligations.ZeroRunsSubtractSixteen := by
  intro z v rest hv
  rw [encodeRuns_replicate_zero z _ (by decide), zero_add, encodeRuns_of_ne_zero _ _ hv]

/-- What the loop emits: ZRL, and symbols of nonzero values with less than 16 zeros. -/
theorem mem_encodeRuns {vs : List Int} {run : Nat} (hrun : run < 16) {w : Word} (hw : w ∈ encodeRuns vs run) :
    w = zrl ∨ ∃ r < 16, ∃ v ∈ vs, v ≠ 0 ∧ w = sym r (cat v) v := by
  induction vs generalizing run with
  | nil => cases hw
  | cons v vs ih =>
    have later {run' : Nat} (hrun' : run' < 16) (h : w ∈ encodeRuns vs run') :
        w = zrl ∨ ∃ r < 16, ∃ u ∈ v :: vs, u ≠ 0 ∧ w = sym r (cat u) u :=
      (ih hrun' h).imp_right fun ⟨r, hr, u, hu, hword⟩ => ⟨r, hr, u, List.mem_cons_of_mem v hu, hword⟩
    by_cases hv : v = 0
    · subst hv
      rw [encodeRuns_zero] at hw
      split at hw
      · exact (List.mem_cons.1 hw).elim .inl (later (by omega))
      · exact later (by omega) hw
    · rw [encodeRuns_of_ne_zero _ _ hv] at hw
      exact (List.mem_cons.1 hw).elim (fun h => .inr ⟨run, hrun, v, List.mem_cons_self, hv, h⟩) (later (by decide))

/-- Every symbol of the loop accounts for a value of its own (R145). -/
theorem length_encodeRuns_le (vs : List Int) (run : Nat) : (encodeRuns vs run).length ≤ vs.length := by
  induction vs generalizing run with
  | nil => exact le_rfl
  | cons v vs ih =>
    by_cases hv : v = 0
    · subst hv
      rw [encodeRuns_zero]
      split
      · exact Nat.succ_le_succ (ih _)
      · exact (ih _).trans (Nat.le_succ _)
    · rw [encodeRuns_of_ne_zero _ _ hv]
      exact Nat.succ_le_succ (ih 0)

theorem getLast?_ne_zero_of_append {l l' : List Int} (h : (l ++ l').getLast? ≠ some 0) : l'.getLast? ≠ some 0 :=
  fun h' => h (by rw [List.getLast?_append, h', Option.some_or])

theorem eq_zero_of_getLast?_replicate {z : Nat} (h : (List.replicate z (0 : Int)).getLast? ≠ some 0) : z = 0 := by
  by_contra hz
  exact h (by simp [List.getLast?_replicate, hz])

theorem zeros_append_zero_cons (n : Nat) (vs : List Int) :
    List.replicate n 0 ++ 0 :: vs = List.replicate (n + 1) 0 ++ vs := by
  rw [List.replicate_succ', List.append_assoc, List.singleton_append]

/-- The symbols of values that do not end in a zero expand to the zeros counted before and those values (R143, R147). -/
theorem flatMap_symbolExpansion_encodeRuns {vs : List Int} {run : Nat} (hrun : run < 16)
    (hrange : ∀ v ∈ vs, -32767 ≤ v ∧ v ≤ 32767) (hlast : (List.replicate run 0 ++ vs).getLast? ≠ some 0) :
    (encodeRuns vs run).flatMap symbolExpansion = List.replicate run 0 ++ vs := by
  induction vs generalizing run with
  | nil =>
    rw [List.append_nil] at hlast
    rw [eq_zero_of_getLast?_replicate hlast]
    rfl
  | cons v vs ih =>
    obtain ⟨hv_range, hvs_range⟩ := List.forall_mem_cons.1 hrange
    by_cases hv : v = 0
    · subst hv
      rw [zeros_append_zero_cons] at hlast ⊢
      rw [encodeRuns_zero]
      split
      next hfull =>
        have hrest := ih (run := 0) (by decide) hvs_range (getLast?_ne_zero_of_append hlast)
        rw [hfull, List.flatMap_cons, symbolExpansion_zrl (by decide), hrest]
        rfl
      next hfull => exact ih (by omega) hvs_range hlast
    · rw [List.append_cons] at hlast
      have hrest := ih (run := 0) (by decide) hvs_range (getLast?_ne_zero_of_append hlast)
      rw [encodeRuns_of_ne_zero _ _ hv, List.flatMap_cons, symbolExpansion_sym_cat hrun hv hv_range, hrest,
        List.append_assoc]
      rfl

/-! ## The values that are coded, and their symbols -/

theorem lastNonzero_le (seq : Fin 64 → Int) : lastNonzero seq ≤ 63 := (lastNonzero_spec seq).1

theorem eq_zero_of_lastNonzero_lt {seq : Fin 64 → Int} {k : Fin 64} (h : lastNonzero seq < k.val) : seq k = 0 := by
  obtain ⟨-, habove, -⟩ := lastNonzero_spec seq
  exact habove k h

theorem ne_zero_of_eq_lastNonzero {seq : Fin 64 → Int} {k : Fin 64} (h : k.val = lastNonzero seq) (hk : k.val ≠ 0) :
    seq k ≠ 0 := by
  obtain ⟨-, -, hlast⟩ := lastNonzero_spec seq
  obtain ⟨l, hl, hne⟩ := hlast (h ▸ hk)
  rwa [Fin.ext (h.trans hl.symm)]

/-- The indices that are coded: 1 to `last` (R143). -/
def codedIndices (seq : Fin 64 → Int) : List (Fin 64) := ((List.finRange 64).take (lastNonzero seq + 1)).drop 1

theorem codedIndices_map (seq : Fin 64 → Int) :
    (codedIndices seq).map seq = (((List.finRange 64).map seq).take (lastNonzero seq + 1)).drop 1 := by
  rw [codedIndices, List.map_drop, List.map_take]

theorem length_codedIndices (seq : Fin 64 → Int) : (codedIndices seq).length = lastNonzero seq := by
  have := lastNonzero_le seq
  rw [codedIndices, List.length_drop, List.length_take, List.length_finRange]
  omega

theorem getElem_codedIndices (seq : Fin 64 → Int) (j : Nat) (h : j < (codedIndices seq).length) :
    ((codedIndices seq)[j]).val = j + 1 := by
  simp [codedIndices, add_comm]

theorem codedIndices_val (seq : Fin 64 → Int) :
    (codedIndices seq).map Fin.val = List.range' 1 (codedIndices seq).length := by
  apply List.ext_getElem (by simp)
  intro j _ _
  simp [getElem_codedIndices, add_comm]

theorem ne_zero_of_mem_codedIndices {seq : Fin 64 → Int} {i : Fin 64} (h : i ∈ codedIndices seq) : i ≠ 0 := by
  obtain ⟨j, hj, rfl⟩ := List.getElem_of_mem h
  exact fun h0 => Nat.succ_ne_zero j ((getElem_codedIndices seq j hj).symm.trans (congrArg Fin.val h0))

/-- Index 0, the coded ones, and indices of zeros above them (R142). -/
theorem finRange_eq_codedIndices (seq : Fin 64 → Int) : ∃ above : List (Fin 64),
    List.finRange 64 = 0 :: codedIndices seq ++ above ∧ ∀ k ∈ above, seq k = 0 := by
  refine ⟨(List.finRange 64).drop (lastNonzero seq + 1), ?_, fun k hk => ?_⟩
  · conv_lhs => rw [← List.take_append_drop (lastNonzero seq + 1) (List.finRange 64)]
    rfl
  · obtain ⟨j, hj, rfl⟩ := List.getElem_of_mem hk
    exact eq_zero_of_lastNonzero_lt (by rw [List.getElem_drop, List.getElem_finRange]; dsimp; omega)

/-- The coded values do not end in a zero (R142). -/
theorem getLast?_coded_ne_zero (seq : Fin 64 → Int) : ((codedIndices seq).map seq).getLast? ≠ some 0 := by
  intro h
  rw [List.getLast?_map, Option.map_eq_some_iff] at h
  obtain ⟨i, hi, hzero⟩ := h
  rw [List.getLast?_eq_getElem?, List.getElem?_eq_some_iff] at hi
  obtain ⟨hj, rfl⟩ := hi
  have hval : ((codedIndices seq)[(codedIndices seq).length - 1]).val = lastNonzero seq := by
    rw [getElem_codedIndices, Nat.sub_add_cancel (by omega), length_codedIndices]
  exact ne_zero_of_eq_lastNonzero hval (by rw [getElem_codedIndices]; omega) hzero

/-- What RLE_ENC asks of the words it codes (R144): the DC word is not coded. -/
def AcInRange (seq : Fin 64 → Int) : Prop := ∀ i, i ≠ 0 → -32767 ≤ seq i ∧ seq i ≤ 32767

theorem AcInRange.coded {seq : Fin 64 → Int} (h : AcInRange seq) :
    ∀ v ∈ (codedIndices seq).map seq, -32767 ≤ v ∧ v ≤ 32767 :=
  List.forall_mem_map.2 fun i hi => h i (ne_zero_of_mem_codedIndices hi)

/-- The encoding is the symbols of the coded values, and then EOB exactly when coefficient 63 is zero (R143). -/
theorem rleEncode_eq (seq : Fin 64 → Int) :
    rleEncode seq = encodeRuns ((codedIndices seq).map seq) 0 ++ if seq 63 = 0 then [eob] else [] := by
  rw [codedIndices_map, rleEncode]
  simp only [lastNonzero_lt_iff]

/-- A symbol of the coded values is ZRL or has a size (R143). -/
theorem AcInRange.eq_zrl_or_symSize_ne_zero {seq : Fin 64 → Int} (h : AcInRange seq) {w : Word}
    (hw : w ∈ encodeRuns ((codedIndices seq).map seq) 0) : w = zrl ∨ symSize w ≠ 0 := by
  refine (mem_encodeRuns (by decide) hw).imp_right ?_
  rintro ⟨run, -, v, hv, hne, rfl⟩
  exact symSize_sym_cat_ne_zero run hne (h.coded v hv)

/-- No symbol of the coded values is EOB (R145). -/
theorem AcInRange.not_isEobWord {seq : Fin 64 → Int} (h : AcInRange seq) :
    ∀ w ∈ encodeRuns ((codedIndices seq).map seq) 0, isEobWord w = false := by
  intro w hw
  rw [Bool.eq_false_iff, ne_eq, isEobWord_iff]
  rintro ⟨hrun, hsize⟩
  rcases h.eq_zrl_or_symSize_ne_zero hw with rfl | hne
  · exact absurd hrun (by decide)
  · exact hne hsize

/-- EOB ends the symbols that count, and they are those of the coded values. -/
theorem AcInRange.takeWhile_rleEncode {seq : Fin 64 → Int} (h : AcInRange seq) :
    ((rleEncode seq).takeWhile fun w => !isEobWord w) = encodeRuns ((codedIndices seq).map seq) 0 := by
  rw [rleEncode_eq, List.takeWhile_append_of_pos fun w hw => by rw [h.not_isEobWord w hw, Bool.not_false]]
  split
  · rw [List.takeWhile_cons_of_neg (by decide), List.append_nil]
  · rw [List.takeWhile_nil, List.append_nil]

/-- The symbols before EOB expand to exactly the coded values (R143, R147). -/
theorem AcInRange.expansion_rleEncode {seq : Fin 64 → Int} (h : AcInRange seq) :
    expansion (rleEncode seq) = (codedIndices seq).map seq := by
  rw [expansion, h.takeWhile_rleEncode,
    flatMap_symbolExpansion_encodeRuns (run := 0) (by decide) h.coded (getLast?_coded_ne_zero seq)]
  rfl

/-- EOB stands only at the end, and only when coefficient 63 is zero (R145). -/
theorem AcInRange.eob_position {seq : Fin 64 → Int} (h : AcInRange seq) {j : Nat} (hj : (rleEncode seq)[j]? = some eob) :
    j + 1 = (rleEncode seq).length ∧ seq 63 = 0 := by
  rw [rleEncode_eq] at hj ⊢
  rw [List.getElem?_append] at hj
  split at hj
  · exact absurd (h.not_isEobWord eob (List.mem_of_getElem? hj)) (by decide)
  · split at hj
    next hlen h63 =>
      obtain ⟨hone, -⟩ := List.getElem?_eq_some_iff.1 hj
      rw [if_pos h63, List.length_append, List.length_singleton]
      rw [List.length_singleton] at hone
      exact ⟨by omega, h63⟩
    next => cases hj

theorem AcInRange.getLast?_rleEncode {seq : Fin 64 → Int} (h : AcInRange seq) :
    (rleEncode seq).getLast? = some eob ↔ seq 63 = 0 := by
  refine ⟨fun hlast => ?_, fun h63 => ?_⟩
  · rw [List.getLast?_eq_getElem?] at hlast
    exact (h.eob_position hlast).2
  · rw [rleEncode_eq, if_pos h63, List.getLast?_concat]

/-- Each symbol but EOB accounts for a coded index, and EOB for one that is not coded (R145). -/
theorem length_rleEncode_le (seq : Fin 64 → Int) : (rleEncode seq).length ≤ 63 := by
  have hcoded := length_encodeRuns_le ((codedIndices seq).map seq) 0
  rw [List.length_map, length_codedIndices] at hcoded
  rw [rleEncode_eq, List.length_append]
  split
  next h63 =>
    have := (lastNonzero_lt_iff seq).2 h63
    rw [List.length_singleton]
    omega
  next =>
    have := lastNonzero_le seq
    rw [List.length_nil]
    omega

/-- Without EOB coefficient 63 is coded (R145). -/
theorem AcInRange.rleEncode_ne_nil {seq : Fin 64 → Int} (h : AcInRange seq) : rleEncode seq ≠ [] := by
  intro hnil
  have hcoded : codedIndices seq = [] := by
    rw [← List.map_eq_nil_iff, ← h.expansion_rleEncode, hnil]
    rfl
  have hlast : lastNonzero seq = 0 := by rw [← length_codedIndices, hcoded, List.length_nil]
  have heob := h.getLast?_rleEncode.2 ((lastNonzero_lt_iff seq).1 (by omega))
  rw [hnil] at heob
  cases heob

/-- Settles O43. -/
theorem rleSymbolCount : Obligations.RleSymbolCount := by
  intro seq (h : AcInRange seq)
  refine ⟨List.length_pos_of_ne_nil h.rleEncode_ne_nil, length_rleEncode_le seq, fun w hw hsize => ?sentinel,
    fun _ => h.eob_position, h.getLast?_rleEncode, ⟨lastNonzero seq, Nat.lt_succ_of_le (lastNonzero_le seq)⟩,
    fun _ => eq_zero_of_lastNonzero_lt, fun hne => ne_zero_of_eq_lastNonzero rfl fun h0 => hne (Fin.ext h0),
    h.expansion_rleEncode.trans (codedIndices_map seq)⟩
  case sentinel =>
    rw [rleEncode_eq, List.mem_append] at hw
    rcases hw with hcoded | htail
    · exact .inr ((h.eq_zrl_or_symSize_ne_zero hcoded).resolve_right (not_not_intro hsize))
    · split at htail
      · exact .inl (List.mem_singleton.1 htail)
      · cases htail

/-! ## The encoder's loop against the statements' symbols -/

/-- The statements' symbols of a nonzero coefficient are the loop's (R143). -/
theorem coefficientSymbols_eq (z : Nat) {v : Int} (h : -32767 ≤ v ∧ v ≤ 32767) :
    coefficientSymbols z v = List.replicate (z / 16) zrl ++ [sym (z % 16) (cat v) v] := by
  rw [coefficientSymbols, sym_eq_ofNat v (Nat.mod_lt _ (by decide)) (cat_lt_sixteen h)]
  rfl

/-- The statements' symbols of the nonzero coefficients at rising indices, each coded with the zeros after the one before it;
`before` stands for one before the first. -/
def gapSymbols (seq : Fin 64 → Int) (before : Fin 64) (is : List (Fin 64)) : List Word :=
  (List.zipWith (fun b i => coefficientSymbols (i.val - b.val - 1) (seq i)) (before :: is) is).flatten

theorem gapSymbols_cons (seq : Fin 64 → Int) (before i : Fin 64) (is : List (Fin 64)) : gapSymbols seq before (i :: is) =
    coefficientSymbols (i.val - before.val - 1) (seq i) ++ gapSymbols seq i is := rfl

/-- The loop over the values at consecutive indices, with the zeros since the last nonzero one before them. -/
theorem encodeRuns_eq_gapSymbols {seq : Fin 64 → Int} {before : Fin 64} {z : Nat} {is : List (Fin 64)}
    (hval : is.map Fin.val = List.range' (before.val + z + 1) is.length)
    (hrange : ∀ v ∈ is.map seq, -32767 ≤ v ∧ v ≤ 32767)
    (hlast : (List.replicate z 0 ++ is.map seq).getLast? ≠ some 0) :
    encodeRuns (List.replicate z 0 ++ is.map seq) 0 = gapSymbols seq before (is.filter (seq · ≠ 0)) := by
  induction is generalizing before z with
  | nil =>
    rw [List.map_nil, List.append_nil] at hlast
    rw [eq_zero_of_getLast?_replicate hlast]
    rfl
  | cons i is ih =>
    rw [List.map_cons, List.length_cons, List.range'_succ, List.cons.injEq] at hval
    obtain ⟨hi, hval⟩ := hval
    rw [List.map_cons] at hlast hrange ⊢
    obtain ⟨hi_range, his_range⟩ := List.forall_mem_cons.1 hrange
    by_cases hzero : seq i = 0
    · rw [hzero, zeros_append_zero_cons] at hlast ⊢
      rw [ih hval his_range hlast, List.filter_cons_of_neg (by simpa using hzero)]
    · rw [List.append_cons] at hlast
      have hrest := ih (before := i) (z := 0) (hi ▸ hval) his_range (getLast?_ne_zero_of_append hlast)
      rw [List.replicate_zero, List.nil_append] at hrest
      rw [zeroRunsSubtractSixteen z _ _ hzero, hrest, List.filter_cons_of_pos (by simpa using hzero), gapSymbols_cons,
        show i.val - before.val - 1 = z by omega, coefficientSymbols_eq z hi_range, List.append_assoc, List.singleton_append]

/-- The nonzero indices of the statements' symbols are those that are coded. -/
theorem filter_nonzero_eq (seq : Fin 64 → Int) : ((List.finRange 64).filter fun i => i ≠ 0 ∧ seq i ≠ 0) =
    (codedIndices seq).filter (seq · ≠ 0) := by
  obtain ⟨above, heq, habove⟩ := finRange_eq_codedIndices seq
  have hnone : (above.filter fun i => i ≠ 0 ∧ seq i ≠ 0) = [] :=
    List.filter_eq_nil_iff.2 fun k hk => by simp [habove k hk]
  rw [heq, List.cons_append, List.filter_cons_of_neg (by simp), List.filter_append, hnone, List.append_nil]
  exact List.filter_congr fun i hi => by simp [ne_zero_of_mem_codedIndices hi]

/-- RLE_ENC's symbols are the statements' (R142, R143). -/
theorem AcInRange.rleEncode_eq_sequenceSymbols {seq : Fin 64 → Int} (h : AcInRange seq) :
    rleEncode seq = sequenceSymbols seq := by
  have hloop : encodeRuns ((codedIndices seq).map seq) 0 = gapSymbols seq 0 ((codedIndices seq).filter (seq · ≠ 0)) :=
    encodeRuns_eq_gapSymbols (z := 0) (by rw [codedIndices_val]; rfl) h.coded (getLast?_coded_ne_zero seq)
  rw [rleEncode_eq, hloop, ← filter_nonzero_eq]
  rfl

/-! ## How RLE_ENC ends -/

/-- The state RLE_ENC leaves with the symbols `syms` (R144, R202). -/
def symbolsStored (s : State) (syms : List Word) : State :=
  (commitCommand { s.writeSymbols syms with symcnt := BitVec.ofNat 7 syms.length }).useDraws

theorem AcInRange.firstOutOfRange_eq_none {seq : Fin 64 → Int} (h : AcInRange seq) : firstOutOfRange seq = none := by
  refine List.find?_eq_none.2 fun i _ => ?_
  by_cases hi : i = 0
  · simp [hi]
  · have := h i hi
    simp [acOutOfRange, this]

theorem exec_rleEnc {s : State} {src : BufIx} (h : s.tileN = 8) (hrange : AcInRange fun k => (s.tile src k).toInt) :
    exec (.rleEnc src) s = .next (symbolsStored s (rleEncode fun k => (s.tile src k).toInt)) := by
  have hnone : firstOutOfRange (fun k => sint32 (s.tile src k)) = none := hrange.firstOutOfRange_eq_none
  simp only [exec, execRleEnc, withTileN_eight h, hnone]
  rfl

theorem symbolsStored_symcnt (s : State) {syms : List Word} (h : syms.length < 128) :
    (symbolsStored s syms).symcnt.toNat = syms.length :=
  (BitVec.toNat_ofNat ..).trans (Nat.mod_eq_of_lt h)

theorem symbolsStored_sb (s : State) {syms : List Word} {j : Fin 64} (h : j.val < syms.length) :
    (symbolsStored s syms).sb[j] = some syms[j.val] :=
  (storeSymbols_getElem s.sb 0 syms j j.isLt).trans (dif_pos ⟨Nat.zero_le _, h⟩)

theorem symbolsStored_sb_above (s : State) {syms : List Word} {j : Fin 64} (h : syms.length ≤ j.val) :
    (symbolsStored s syms).sb[j] = s.sb[j] :=
  (storeSymbols_getElem s.sb 0 syms j j.isLt).trans (dif_neg fun hlt => Nat.not_lt.2 h hlt.2)

/-- Settles O41. -/
theorem rleEncCompletes : Obligations.RleEncCompletes := by
  intro src s h (hrange : AcInRange fun k => (s.tile src k).toInt) syms
  have hsyms : rleEncode (fun k => (s.tile src k).toInt) = syms := hrange.rleEncode_eq_sequenceSymbols
  have hlen : syms.length ≤ 63 := hsyms ▸ length_rleEncode_le _
  clear_value syms
  exact ⟨symbolsStored s syms, hsyms ▸ exec_rleEnc h hrange, fun _ => symbolsStored_sb s,
    fun _ => symbolsStored_sb_above s, symbolsStored_symcnt s (by omega), rfl, rfl, rfl⟩

/-! ## The decoder's loop -/

/-- The tile `out` with the values `vs`, and zeros after them, in place of its words from `pos` on. -/
def overlay (out : Tile) (pos : Nat) (vs : List Int) : Tile := fun i =>
  if i.val < pos then out i else wordOf (vs.getD (i.val - pos) 0)

theorem overlay_past {pos : Nat} (out : Tile) (vs : List Int) (h : 63 < pos) : overlay out pos vs = out :=
  funext fun i => if_pos (by omega)

theorem overlay_nil {out : Tile} {pos : Nat} (hzero : ∀ i : Fin 64, pos ≤ i.val → out i = 0) :
    overlay out pos [] = out := by
  funext i
  unfold overlay
  split
  next => rfl
  next h => exact (hzero i (Nat.le_of_not_lt h)).symm

theorem overlay_zeros_append {out : Tile} {pos : Nat} (hzero : ∀ i : Fin 64, pos ≤ i.val → out i = 0) (n : Nat)
    (vs : List Int) : overlay out pos (List.replicate n 0 ++ vs) = overlay out (pos + n) vs := by
  funext i
  unfold overlay
  by_cases hbefore : i.val < pos
  · rw [if_pos hbefore, if_pos (by omega)]
  · rw [if_neg hbefore]
    split
    next hzeros =>
      rw [List.getD_append _ _ _ _ (by rw [List.length_replicate]; omega), List.getD_replicate _ (by omega),
        hzero i (Nat.le_of_not_lt hbefore)]
      rfl
    next => rw [List.getD_append_right _ _ _ _ (by rw [List.length_replicate]; omega), List.length_replicate, Nat.sub_sub]

theorem overlay_cons (out : Tile) (pos : Nat) (v : Int) (vs : List Int) :
    overlay out pos (v :: vs) = overlay (placeAt out pos v) (pos + 1) vs := by
  funext i
  unfold overlay placeAt
  rcases lt_trichotomy i.val pos with hlt | heq | hgt
  · rw [if_pos hlt, if_pos (by omega), if_neg hlt.ne]
  · rw [if_neg (by omega), if_pos (by omega), if_pos heq, heq, Nat.sub_self, List.getD_cons_zero]
  · rw [if_neg (by omega), if_neg (by omega), show i.val - pos = i.val - (pos + 1) + 1 by omega, List.getD_cons_succ]

/-- The loop puts the expansion in the sequence from `pos` on, if the words there were 0 (R148). -/
theorem decodeRuns_eq_overlay (syms : List Word) (pos : Nat) (out : Tile)
    (hzero : ∀ i : Fin 64, pos ≤ i.val → out i = 0) : decodeRuns syms pos out = overlay out pos (expansion syms) := by
  fun_induction decodeRuns syms pos out with
  | case1 pos out => exact (overlay_nil hzero).symm
  | case2 w ws pos out hpast => rw [overlay_past out _ hpast]
  | case3 w ws pos out _ heob => rw [expansion_eob ws heob, overlay_nil hzero]
  | case4 w ws pos out _ heob hzrl ih =>
    rw [ih fun i hi => hzero i (by omega), expansion_cons ws heob, symbolExpansion_zrl hzrl, overlay_zeros_append hzero]
  | case5 w ws pos out _ heob hzrl _ ih =>
    have hplaced (i : Fin 64) (hi : pos + symRun w + 1 ≤ i.val) : placeAt out (pos + symRun w) (symAmp w) i = 0 := by
      rw [placeAt, if_neg (by omega), hzero i (by omega)]
    rw [ih hplaced, expansion_cons ws heob, symbolExpansion_normal hzrl, List.append_assoc, overlay_zeros_append hzero,
      List.singleton_append, overlay_cons]
  | case6 w ws pos out _ heob hzrl hpast ih =>
    rw [ih fun i hi => hzero i (by omega), expansion_cons ws heob, symbolExpansion_normal hzrl, List.append_assoc,
      overlay_zeros_append hzero, overlay_past out _ (by omega), overlay_past out _ (by omega)]

/-- RLE_DEC's words 1 to 63 are the sequence that the symbol words stand for (R147, R148). -/
theorem rleDecode_eq (syms : List Word) {i : Fin 64} (h : i ≠ 0) :
    rleDecode syms i = wordOf (expandedCoefficient syms i) := by
  have hpos : ¬i.val < 1 := fun h0 => h (Fin.ext (Nat.lt_one_iff.1 h0))
  rw [rleDecode, decodeRuns_eq_overlay syms 1 _ fun _ _ => rfl, overlay, if_neg hpos, expandedCoefficient_eq]

/-! ## How RLE_DEC ends -/

/-- The state RLE_DEC leaves in `dst` with the AC words of `t` (R149, R202). -/
def acStored (s : State) (dst : BufIx) (t : Tile) : State := (commitCommand (s.writeTileAc dst t)).useDraws

theorem exec_rleDec {s : State} (dst : BufIx) (h : s.tileN = 8) (hcount : s.symcnt.toNat ≤ 64) :
    exec (.rleDec dst) s = .next (acStored s dst (rleDecode (s.symbols s.symcnt.toNat))) := by
  rw [exec, execRleDec, withTileN_eight h, if_neg (by omega), endCommand_commit, acStored]

theorem exec_rleDec_capacity {s : State} (dst : BufIx) (h : s.tileN = 8) (hcount : 64 < s.symcnt.toNat) :
    exec (.rleDec dst) s = .next (failed s (encode (.rleDec dst)) .capacity s.symcnt.toNat) := by
  rw [exec, execRleDec, withTileN_eight h, if_pos hcount, endCommand_raise]

theorem acStored_ac (s : State) (dst : BufIx) (t : Tile) {i : Fin 64} (h : i ≠ 0) :
    (acStored s dst t).tb[dst][i] = some (t i) :=
  (writeTileAc_same s dst t i).trans (if_neg h)

theorem acStored_dc (s : State) (dst : BufIx) (t : Tile) :
    (acStored s dst t).tb[dst][(0 : Fin 64)] = s.tb[dst][(0 : Fin 64)] :=
  (writeTileAc_same s dst t 0).trans (if_pos rfl)

theorem acStored_other (s : State) {dst b : BufIx} (t : Tile) (h : b ≠ dst) : (acStored s dst t).tb[b] = s.tb[b] :=
  writeTileAc_other s t h

/-- Settles O45. -/
theorem rleDecCompletes : Obligations.RleDecCompletes := by
  intro dst s h
  refine ⟨fun hcount => ⟨_, exec_rleDec dst h hcount, fun i hi => ?words, acStored_dc s dst _, fun _ => acStored_other s _,
    rfl, rfl, rfl⟩, exec_rleDec_capacity dst h⟩
  case words =>
    rw [acStored_ac s dst _ hi, rleDecode_eq _ hi]
    rfl

/-! ## The round trip -/

/-- What a later command reads in SB, up to SYMCNT. -/
theorem symbolsStored_symbols (s : State) {syms : List Word} (h : syms.length ≤ 64) :
    (symbolsStored s syms).symbols syms.length = syms := by
  apply List.ext_getElem (symbols_length _ h)
  intro j _ hj
  have hword := symbol_of_written (symbolsStored_sb s (j := ⟨j, by omega⟩) hj)
  simpa [State.symbols] using hword

/-- The symbols of a sequence stand for its AC coefficients: the coded ones, and zeros after them (R150). -/
theorem AcInRange.expandedCoefficient_rleEncode {seq : Fin 64 → Int} (h : AcInRange seq) {i : Fin 64} (hi : i ≠ 0) :
    expandedCoefficient (rleEncode seq) i = seq i := by
  have hpos : i.val ≠ 0 := fun h0 => hi (Fin.ext h0)
  rw [expandedCoefficient_eq, h.expansion_rleEncode]
  by_cases hcoded : i.val - 1 < (codedIndices seq).length
  · have hindex : (codedIndices seq)[i.val - 1] = i := Fin.ext (by rw [getElem_codedIndices]; omega)
    rw [List.getD_eq_getElem _ _ (by rwa [List.length_map]), List.getElem_map, hindex]
  · rw [List.getD_eq_default _ _ (by rw [List.length_map]; omega),
      eq_zero_of_lastNonzero_lt (seq := seq) (k := i) (by rw [← length_codedIndices]; omega)]

/-- Settles O46: RLE_DEC reads the symbols RLE_ENC stored, and they stand for the coded coefficients. -/
theorem rleRoundTrip : Obligations.RleRoundTrip := by
  intro a b s s1 s2 h (hrange : AcInRange fun k => (s.tile a k).toInt) henc hdec i hi
  have hlen := length_rleEncode_le fun k => (s.tile a k).toInt
  rw [exec_rleEnc h hrange] at henc
  obtain rfl := Host.Outcome.next.inj henc
  have hcount := symbolsStored_symcnt s (hlen.trans_lt (by decide))
  rw [exec_rleDec (s := symbolsStored s _) b h (hcount ▸ by omega), hcount, symbolsStored_symbols s (by omega)] at hdec
  obtain rfl := Host.Outcome.next.inj hdec
  rw [acStored_ac _ b _ hi, rleDecode_eq _ hi, hrange.expandedCoefficient_rleEncode hi, wordOf_toInt]

end Sys2Proof.Machine

/-! SUPPORT. Proofs of the statements on the entropy coder (spec/44_huffman.md): the bytes a packing command appends and their
stuffing, the code tables, and how HUFF_DC, HUFF_AC and BITS_FLUSH end. -/

namespace Sys2Proof.Machine

/-! ## The bytes a packing command appends -/

@[simp] theorem bitsMsb_zero (v : Nat) : bitsMsb v 0 = [] := rfl

@[simp] theorem Packer.pushBits_nil (p : Packer) : p.pushBits [] = p := rfl

@[simp] theorem Packer.pushBits_cons (p : Packer) (b : Bool) (bs : List Bool) :
    p.pushBits (b :: bs) = (p.pushBit b).pushBits bs := rfl

/-- The pending bits and the pushed ones are the bits of the completed bytes and then the bits now pending; each completed byte
is output with its stuffing (R167, R168). -/
theorem Packer.Within.pushBits_bytes {p : Packer} (h : p.Within) (bits : List Bool) : ∃ bytes : List Byte,
    bitsMsb p.acc p.cnt ++ bits =
      bytes.flatMap (fun b => bitsMsb b.toNat 8) ++ bitsMsb (p.pushBits bits).acc (p.pushBits bits).cnt ∧
    (p.pushBits bits).out = p.out ++ bytes.flatMap stuffed := by
  induction bits generalizing p with
  | nil => exact ⟨[], by simp⟩
  | cons b bs ih =>
    obtain ⟨hcnt, hacc, hpush⟩ := pushBit_spec p b h.1 h.2
    obtain ⟨bytes, hbits, hout⟩ := ih (p := p.pushBit b) ⟨hcnt, hacc⟩
    rcases hpush with ⟨hkept, hpending⟩ | ⟨byte, hbyte, hempty, hfull⟩
    · exact ⟨bytes, by simpa [hpending] using hbits, hkept ▸ hout⟩
    · refine ⟨byte :: bytes, ?_, by simpa [hbyte] using hout⟩
      rw [hempty, bitsMsb_zero, List.nil_append] at hbits
      rw [List.append_cons, ← hfull, Packer.pushBits_cons, List.flatMap_cons, List.append_assoc, ← hbits]

/-- Settles O50. -/
theorem packerAppendsTheBits : Obligations.PackerAppendsTheBits := by
  intro p bits hcnt hacc q
  have h : p.Within := ⟨hcnt, hacc⟩
  obtain ⟨hcnt', hacc'⟩ := Packer.within_pushBits bits h
  exact ⟨hcnt', hacc', h.pushBits_bytes bits⟩

/-! ## The stuffing -/

/-- In a list of bytes every 0xFF is followed by a 0x00 (R168). -/
def AllStuffed (bytes : List Byte) : Prop := ∀ j, bytes[j]? = some 0xFF#8 → bytes[j + 1]? = some 0x00#8

theorem allStuffed_flatMap_stuffed (bytes : List Byte) : AllStuffed (bytes.flatMap stuffed) := by
  induction bytes with
  | nil => simp [AllStuffed]
  | cons b bs ih =>
    by_cases hb : b = 0xFF#8
    · rintro (_ | _ | j) hj
      · simp [stuffed, hb]
      · simp [stuffed, hb] at hj
      · simpa [stuffed, hb] using ih j (by simpa [stuffed, hb] using hj)
    · rintro (_ | j) hj
      · simp [stuffed, hb] at hj
      · simpa [stuffed, hb] using ih j (by simpa [stuffed, hb] using hj)

theorem Packer.flush_of_empty {p : Packer} (h : p.cnt = 0) : p.flush = ⟨0, 0, p.out⟩ := by
  simp [flush, h]

theorem Packer.flush_of_pending {p : Packer} (h : p.cnt ≠ 0) :
    p.flush = ⟨0, 0, p.out ++ stuffed (paddedByte p.acc p.cnt)⟩ :=
  if_pos (Nat.pos_of_ne_zero h)

theorem Packer.flush_pending (p : Packer) : p.flush.acc = 0 ∧ p.flush.cnt = 0 := by
  unfold flush
  split <;> exact ⟨rfl, rfl⟩

theorem Packer.flush_out {p : Packer} (h : p.out = []) : ∃ bytes : List Byte, p.flush.out = bytes.flatMap stuffed := by
  by_cases hcnt : p.cnt = 0
  · exact ⟨[], by simp [flush_of_empty hcnt, h]⟩
  · exact ⟨[paddedByte p.acc p.cnt], by simp [flush_of_pending hcnt, h]⟩

/-- The stuffing speaks of OB and OB_LEN only. -/
theorem stuffedInv_of_kept {s t : State} (h : StuffedInv s) (ob : t.ob = s.ob) (len : t.obLen = s.obLen) : StuffedInv t := by
  unfold StuffedInv
  rw [ob, len]
  exact h

theorem stuffedInv_of_empty {t : State} (len : t.obLen = 0) : StuffedInv t := fun k hk => by simp [len] at hk

/-- Bytes that are stuffed in themselves, appended to a stuffed stream, leave it stuffed (R168). -/
theorem stuffedInv_of_appended {s t : State} {bytes : List Byte} (h : StuffedInv s) (hbytes : AllStuffed bytes)
    (fits : s.obLen.toNat + bytes.length ≤ 4096) (ob : t.ob = Memory.writeBytes s.ob s.obLen.toNat bytes)
    (len : t.obLen = BitVec.ofNat 13 (s.obLen.toNat + bytes.length)) : StuffedInv t := by
  have hlen : t.obLen.toNat = s.obLen.toNat + bytes.length := by
    rw [len, BitVec.toNat_ofNat, Nat.mod_eq_of_lt (by omega)]
  intro k hk hff
  rw [hlen] at hk ⊢
  rw [ob, Memory.read_writeBytes] at hff ⊢
  rcases Nat.lt_or_ge k s.obLen.toNat with hbefore | happended
  · rw [if_neg (by omega)] at hff
    obtain ⟨hnext, hzero⟩ := h k hbefore hff
    exact ⟨by omega, by rwa [if_neg (by omega)]⟩
  · rw [if_pos ⟨happended, hk⟩] at hff
    have hzero := hbytes _ hff
    have hnext := (List.getElem?_eq_some_iff.1 hzero).1
    exact ⟨by omega, by rwa [if_pos (by omega), show k + 1 - s.obLen.toNat = k - s.obLen.toNat + 1 by omega]⟩

/-- Whatever a command does to the stream keeps the stuffing (R168, R172, R186, R187). -/
theorem StreamChange.stuffedInv {s t : State} (c : StreamChange s t) (h : StreamInv s) (hs : StuffedInv s) :
    StuffedInv t := by
  cases c with
  | kept ob len _ _ => exact stuffedInv_of_kept hs ob len
  | packed p how fits ob len _ _ =>
    have hout : ∃ bytes : List Byte, p.out = bytes.flatMap stuffed := by
      rcases how with ⟨bits, rfl⟩ | rfl
      · obtain ⟨bytes, -, hout⟩ := (Packer.within_start h.accLt).pushBits_bytes bits
        exact ⟨bytes, hout⟩
      · exact Packer.flush_out rfl
    obtain ⟨bytes, hout⟩ := hout
    exact stuffedInv_of_appended hs (hout ▸ allStuffed_flatMap_stuffed bytes) fits ob len
  | cleared _ len _ => exact stuffedInv_of_empty len

theorem engineStep_stuffedInv {s t : State} (h : StreamInv s) (hs : StuffedInv s) (ht : engineStep s = .next t) :
    StuffedInv t := by
  rcases engineStep_cases ht with ⟨-, rfl⟩ | ⟨w, -, ⟨v, c, aux, d, -, rfl⟩ | ⟨i, u, -, hexec, -, -⟩⟩
  · exact hs
  · exact stuffedInv_of_kept hs rfl rfl
  · exact (exec_stream hexec).stuffedInv h hs

/-- Settles O58: each step packs through `StreamChange`, empties the stream by reset, or leaves it alone. -/
theorem everyStepKeepsTheStuffing : Obligations.EveryStepKeepsTheStuffing := by
  intro s t h hs ht
  have hmoved (rest : List HostMove) : StuffedInv { s with inputs := rest } := stuffedInv_of_kept hs rfl rfl
  rcases step_cases ht with ⟨-, he⟩ | ⟨m, rest, -, ⟨-, he⟩ | ⟨-, rfl⟩ | ⟨-, rfl⟩ | ⟨_, _, -, hread⟩ |
    ⟨_, _, w, -, hwrite⟩⟩
  · exact engineStep_stuffedInv h hs he
  · exact engineStep_stuffedInv (s := { s with inputs := rest }) (streamInv_of_kept h rfl rfl rfl rfl) (hmoved rest) he
  · exact stuffedInv_of_empty rfl
  · exact stuffedInv_of_kept hs rfl rfl
  · rcases hread with rfl | ⟨off, -, -, -, -, -, rfl⟩
    · exact stuffedInv_of_kept hs rfl rfl
    · exact stuffedInv_of_kept hs rfl rfl
  · rcases hwrite with rfl | ⟨off, -, -, -, -, -, rfl⟩
    · exact hmoved rest
    · obtain ⟨ob, len, -, -⟩ := hostWrite_stream (locate off) w { s with inputs := rest }
      exact stuffedInv_of_kept hs ob len

/-! ## The code tables -/

/-- An entry that is not the absent one stands in the table (R31). -/
theorem mem_of_lookupCode_ne {table : List (Nat × HuffCode)} {key : Nat} (h : (lookupCode table key).len ≠ 0) :
    (key, lookupCode table key) ∈ table := by
  unfold lookupCode at h ⊢
  cases hc : table.lookup key with
  | none => simp [hc] at h
  | some c =>
    obtain ⟨before, after, rfl, -⟩ := List.lookup_eq_some_iff.1 hc
    simp

/-- Settles O47: the expansion is evaluated key by key; a DC key from 12 on is none of the listed values. -/
theorem huffmanTablesAsPrinted : Obligations.HuffmanTablesAsPrinted := by
  refine ⟨by decide +kernel, by decide +kernel, fun s hs => ?_, by decide +kernel⟩
  have hkeys : ∀ e ∈ expand dcBits dcHuffval, e.1 < 12 := by decide
  by_contra hpresent
  have := hkeys _ (mem_of_lookupCode_ne hpresent)
  omega

/-! ## No canonical code begins another -/

/-- Read as binary fractions, the code `c` is not below the number `code` of `len` bits, and it has no fewer bits (R160). -/
def HuffCode.AtLeast (c : HuffCode) (code len : Nat) : Prop := len ≤ c.len ∧ code * 2 ^ (c.len - len) ≤ c.code

/-- The canonical order (R160): `d` comes after all codes that begin with `c`. -/
def HuffCode.Before (c d : HuffCode) : Prop := d.AtLeast (c.code + 1) c.len

theorem HuffCode.AtLeast.mono {c : HuffCode} {code code' len : Nat} (h : c.AtLeast code len) (hle : code' ≤ code) :
    c.AtLeast code' len :=
  ⟨h.1, (Nat.mul_le_mul_right _ hle).trans h.2⟩

/-- A code one bit longer starts at twice the running code (R160). -/
theorem HuffCode.AtLeast.of_succ {c : HuffCode} {code len : Nat} (h : c.AtLeast (code <<< 1) (len + 1)) :
    c.AtLeast code len := by
  obtain ⟨hlen, hcode⟩ := h
  refine ⟨by omega, ?_⟩
  rw [show c.len - len = c.len - (len + 1) + 1 by omega, pow_succ']
  calc code * (2 * 2 ^ (c.len - (len + 1))) = code <<< 1 * 2 ^ (c.len - (len + 1)) := by rw [Nat.shiftLeft_eq]; ring
    _ ≤ c.code := hcode

theorem assignCodes_bounds {vs : List Nat} {code len : Nat} {e : Nat × HuffCode} (h : e ∈ assignCodes vs code len) :
    e.2.len = len ∧ code ≤ e.2.code ∧ e.2.code < code + vs.length := by
  induction vs generalizing code with
  | nil => cases h
  | cons v vs ih =>
    rcases List.mem_cons.1 h with rfl | h
    · simp
    · obtain ⟨hlen, hlow, hhigh⟩ := ih h
      exact ⟨hlen, by omega, by rw [List.length_cons]; omega⟩

theorem pairwise_assignCodes (vs : List Nat) (code len : Nat) :
    (assignCodes vs code len).Pairwise fun e f => e.2.Before f.2 := by
  induction vs generalizing code with
  | nil => exact .nil
  | cons v vs ih =>
    refine List.pairwise_cons.2 ⟨fun e he => ?_, ih _⟩
    obtain ⟨hlen, hlow, -⟩ := assignCodes_bounds he
    exact ⟨hlen.ge, by simpa [hlen] using hlow⟩

/-- The expansion from a running code on assigns no code below it (R160). -/
theorem atLeast_of_mem_expandFrom {counts vals : List Nat} {len code : Nat} {e : Nat × HuffCode}
    (h : e ∈ expandFrom counts len code vals) : e.2.AtLeast code len := by
  induction counts generalizing len code vals with
  | nil => cases h
  | cons count counts ih =>
    rcases List.mem_append.1 h with h | h
    · obtain ⟨hlen, hlow, -⟩ := assignCodes_bounds h
      exact ⟨hlen.ge, by simpa [hlen] using hlow⟩
    · exact (ih h).of_succ.mono (Nat.le_add_right _ _)

/-- The canonical expansion lists its codes in canonical order, whatever the counts and values are (R160). -/
theorem pairwise_expandFrom (counts : List Nat) (len code : Nat) (vals : List Nat) :
    (expandFrom counts len code vals).Pairwise fun e f => e.2.Before f.2 := by
  induction counts generalizing len code vals with
  | nil => exact .nil
  | cons count counts ih =>
    refine List.pairwise_append.2 ⟨pairwise_assignCodes _ _ _, ih _ _ _, fun e he f hf => ?_⟩
    obtain ⟨hlen, -, hhigh⟩ := assignCodes_bounds he
    have hafter := (atLeast_of_mem_expandFrom hf).of_succ
    have hcount := List.length_take_le count vals
    rw [HuffCode.Before, hlen]
    exact hafter.mono (by omega)

theorem bitsMsb_append (v n m : Nat) : bitsMsb v (n + m) = bitsMsb (v / 2 ^ m) n ++ bitsMsb v m := by
  induction n with
  | zero => simp
  | succ n ih => rw [Nat.succ_add, bitsMsb, bitsMsb, ih, Nat.testBit_div_two_pow, List.cons_append]

/-- The `n` low bits determine a number below 2^n. -/
theorem eq_of_bitsMsb_eq {v w n : Nat} (hv : v < 2 ^ n) (hw : w < 2 ^ n) (h : bitsMsb v n = bitsMsb w n) : v = w := by
  refine Nat.eq_of_testBit_eq fun j => ?_
  rcases Nat.lt_or_ge j n with hj | hj
  · have hbit := congrArg (·[n - 1 - j]?) h
    simpa [getElem?_bitsMsb _ (show n - 1 - j < n by omega), show n - 1 - (n - 1 - j) = j by omega] using hbit
  · have hpow : 2 ^ n ≤ 2 ^ j := Nat.pow_le_pow_right (by decide) hj
    rw [Nat.testBit_lt_two_pow (hv.trans_le hpow), Nat.testBit_lt_two_pow (hw.trans_le hpow)]

/-- The bits of a code, as they are packed (R167). -/
def HuffCode.bits (c : HuffCode) : List Bool := bitsMsb c.code c.len

/-- A code has no bit at or above its length (R31). -/
def HuffCode.Fits (c : HuffCode) : Prop := c.code < 2 ^ c.len

/-- A code does not begin a later one: it would be that code's leading part, which is above it. -/
theorem HuffCode.Before.not_isPrefix {c d : HuffCode} (h : c.Before d) (hc : c.Fits) (hd : d.Fits) : ¬ c.bits <+: d.bits := by
  obtain ⟨hlen, hcode⟩ := h
  obtain ⟨m, hm⟩ := Nat.exists_eq_add_of_le hlen
  rw [hm, Nat.add_sub_cancel_left, ← Nat.le_div_iff_mul_le (by positivity)] at hcode
  have hlead : d.code / 2 ^ m < 2 ^ c.len := by
    rw [Nat.div_lt_iff_lt_mul (by positivity), ← pow_add, ← hm]
    exact hd
  intro hprefix
  rw [bits, bits, hm, bitsMsb_append] at hprefix
  have hbits : bitsMsb c.code c.len = bitsMsb (d.code / 2 ^ m) c.len :=
    (List.prefix_of_prefix_length_le hprefix (List.prefix_append _ _) (by simp)).eq_of_length (by simp)
  have := eq_of_bitsMsb_eq hc hlead hbits
  omega

/-- A code is not the beginning of an earlier one: it would have that code's length, and be that code. -/
theorem HuffCode.Before.not_isPrefix_symm {c d : HuffCode} (h : c.Before d) (hc : c.Fits) (hd : d.Fits) :
    ¬ d.bits <+: c.bits := by
  intro hprefix
  have hlen : c.bits.length ≤ d.bits.length := by simpa [bits] using h.1
  exact h.not_isPrefix hc hd (hprefix.eq_of_length (le_antisymm hprefix.length_le hlen) ▸ List.prefix_rfl)

/-- No code of a canonical expansion begins another one, if every code fits its length (R160). -/
theorem not_isPrefix_of_mem_expand {counts vals : List Nat} (hfits : ∀ e ∈ expand counts vals, e.2.Fits)
    {e f : Nat × HuffCode} (he : e ∈ expand counts vals) (hf : f ∈ expand counts vals) (hne : e ≠ f) :
    ¬ e.2.bits <+: f.2.bits := by
  have : Std.Symm fun e f : Nat × HuffCode => e.2.Before f.2 ∨ f.2.Before e.2 := ⟨fun _ _ => Or.symm⟩
  have hordered : (expand counts vals).Pairwise fun e f => e.2.Before f.2 ∨ f.2.Before e.2 :=
    (pairwise_expandFrom counts 1 0 vals).imp .inl
  rcases hordered.forall he hf hne with h | h
  · exact h.not_isPrefix (hfits e he) (hfits f hf)
  · exact h.not_isPrefix_symm (hfits f hf) (hfits e he)

theorem dcCodes_fit : ∀ e ∈ expand dcBits dcHuffval, e.2.Fits := by unfold HuffCode.Fits; decide +kernel

theorem acCodes_fit : ∀ e ∈ expand acBits acHuffval, e.2.Fits := by unfold HuffCode.Fits; decide +kernel

theorem dcEhuf_present : ∀ k : Fin 12, (dcEhuf k.val).len ≠ 0 := by decide +kernel

/-- Settles O48: both tables are canonical expansions whose codes fit their lengths. -/
theorem codesAreSelfDelimiting : Obligations.CodesAreSelfDelimiting := by
  refine ⟨fun k k' hne => ?dc, fun k k' hk hk' hne => ?ac⟩
  case dc =>
    exact not_isPrefix_of_mem_expand dcCodes_fit (mem_of_lookupCode_ne (dcEhuf_present k))
      (mem_of_lookupCode_ne (dcEhuf_present k')) fun h => hne (Fin.ext (congrArg Prod.fst h))
  case ac =>
    exact not_isPrefix_of_mem_expand acCodes_fit (mem_of_lookupCode_ne hk) (mem_of_lookupCode_ne hk')
      fun h => hne (congrArg Prod.fst h)

/-! ## How a packing command ends -/

/-- The state a packing command leaves with the working copies `p`, on top of its other writes in `t` (R169, R202). -/
def packed (s t : State) (p : Packer) : State :=
  { t with ob := Memory.writeBytes s.ob s.obLen.toNat p.out, obLen := BitVec.ofNat 13 (s.obLen.toNat + p.out.length),
           bitAcc := BitVec.ofNat 7 p.acc, bitCnt := BitVec.ofNat 3 p.cnt, done := true, pending := none,
           draws := t.draws + 64 }

theorem endCommand_finishPacking_fits (i : Instr) {s : State} {p : Packer} (t : State)
    (h : s.obLen.toNat + p.out.length ≤ 4096) : endCommand i s (finishPacking s p t) = .next (packed s t p) := by
  rw [finishPacking_fits t h]
  rfl

theorem endCommand_finishPacking_full (i : Instr) {s : State} {p : Packer} (t : State)
    (h : 4096 < s.obLen.toNat + p.out.length) : endCommand i s (finishPacking s p t) =
      .next (failed s (encode i) .capacity (s.obLen.toNat + p.out.length)) := by
  rw [finishPacking_full t h, endCommand_raise]

/-- A command that ends without an error committed (R202). -/
theorem exists_commit_of_endCommand {i : Instr} {s t : State} {e : Ending} (h : endCommand i s e = .next t)
    (herr : t.err = false) : ∃ u, e = .commit u ∧ t = (commitCommand u).useDraws := by
  obtain rfl := Host.Outcome.next.inj h
  cases e with
  | raise c aux => cases herr
  | commit u => exact ⟨u, rfl, rfl⟩

theorem packed_of_finishPacking {s t u : State} {p : Packer} (h : finishPacking s p t = .commit u) :
    s.obLen.toNat + p.out.length ≤ 4096 ∧ (commitCommand u).useDraws = packed s t p := by
  rcases Nat.lt_or_ge 4096 (s.obLen.toNat + p.out.length) with hfull | hfits
  · rw [finishPacking_full t hfull] at h
    cases h
  · rw [finishPacking_fits t hfits] at h
    cases h
    exact ⟨hfits, rfl⟩

/-! ## How HUFF_DC ends -/

/-- The working copies after the DC value `d` (R170). -/
def packedDc (s : State) (d : Int) : Packer := (Packer.start s).pushBits (codedBits (dcEhuf (cat d)) d (cat d))

theorem exec_huffDc {s : State} {src : BufIx} {diff : Bool} (h : s.tileN = 8) (hcat : cat (codedDc s src diff) ≤ 11) :
    exec (.huffDc src diff) s = endCommand (.huffDc src diff) s
      (finishPacking s (packedDc s (codedDc s src diff)) { s with prevDc := s.tile src 0 }) := by
  rw [exec, execHuffDc, withTileN_eight h, if_neg (by omega), packedDc]

theorem exec_huffDc_table {s : State} {src : BufIx} {diff : Bool} (h : s.tileN = 8) (hcat : 11 < cat (codedDc s src diff)) :
    exec (.huffDc src diff) s =
      .next (failed s (encode (.huffDc src diff)) .table (cat (codedDc s src diff))) := by
  rw [exec, execHuffDc, withTileN_eight h, if_pos hcat, endCommand_raise]

theorem huffDc_inversion {s t : State} {src : BufIx} {diff : Bool} (ht : exec (.huffDc src diff) s = .next t)
    (herr : t.err = false) : cat (codedDc s src diff) ≤ 11 ∧
      s.obLen.toNat + (packedDc s (codedDc s src diff)).out.length ≤ 4096 ∧
      t = packed s { s with prevDc := s.tile src 0 } (packedDc s (codedDc s src diff)) := by
  obtain ⟨u, hend, rfl⟩ := exists_commit_of_endCommand ht herr
  have hbody := withTileN_commit hend
  split at hbody
  · cases hbody
  · rename_i hcat
    exact ⟨Nat.not_lt.1 hcat, packed_of_finishPacking hbody⟩

/-- Settles O51. -/
theorem huffDcOutcome : Obligations.HuffDcOutcome := by
  intro src diff s h v d p
  have hd : d = codedDc s src diff := rfl
  have hp : p = packedDc s d := by rw [packedDc, codedBits_eq]
  clear_value d p
  subst hp hd
  refine ⟨exec_huffDc_table h, fun hcat hfits => ?_, fun hcat hfull => ?_⟩
  · exact (exec_huffDc h hcat).trans (endCommand_finishPacking_fits _ _ hfits)
  · exact (exec_huffDc h hcat).trans (endCommand_finishPacking_full _ _ hfull)

/-! ## How HUFF_AC ends -/

/-- The working copies after the symbols `syms` (R171). -/
def packedSymbols (s : State) (syms : List Word) : Packer := (Packer.start s).pushBits (syms.flatMap symbolBits)

theorem firstAbsentKey_eq_some {syms : List Word} {j : Nat} (hj : j < syms.length)
    (habsent : (acEhuf (symKey syms[j])).len = 0) (hlowest : ∀ k (hk : k < j), (acEhuf (symKey syms[k])).len ≠ 0) :
    firstAbsentKey syms = some j :=
  List.findIdx?_eq_some_iff_getElem.2 ⟨hj, by simpa using habsent, fun k hk => by simpa using hlowest k hk⟩

theorem firstAbsentKey_eq_none_iff {syms : List Word} :
    firstAbsentKey syms = none ↔ ∀ w ∈ syms, (acEhuf (symKey w)).len ≠ 0 := by
  simp [firstAbsentKey]

theorem exec_huffAc_count {s : State} (h : s.tileN = 8) (hcount : 64 < s.symcnt.toNat) :
    exec .huffAc s = .next (failed s (encode .huffAc) .capacity s.symcnt.toNat) := by
  rw [exec, execHuffAc, withTileN_eight h, if_pos hcount, endCommand_raise]

theorem exec_huffAc_table {s : State} {j : Nat} (h : s.tileN = 8) (hcount : s.symcnt.toNat ≤ 64)
    (hj : firstAbsentKey (s.symbols s.symcnt.toNat) = some j) :
    exec .huffAc s = .next (failed s (encode .huffAc) .table j) := by
  simp only [exec, execHuffAc, withTileN_eight h, if_neg (Nat.not_lt.2 hcount), hj, endCommand_raise]

theorem exec_huffAc {s : State} (h : s.tileN = 8) (hcount : s.symcnt.toNat ≤ 64)
    (hpresent : firstAbsentKey (s.symbols s.symcnt.toNat) = none) :
    exec .huffAc s = endCommand .huffAc s (finishPacking s (packedSymbols s (s.symbols s.symcnt.toNat)) s) := by
  simp only [exec, execHuffAc, withTileN_eight h, if_neg (Nat.not_lt.2 hcount), hpresent, packedSymbols]

theorem huffAc_inversion {s t : State} (ht : exec .huffAc s = .next t) (herr : t.err = false) :
    s.symcnt.toNat ≤ 64 ∧ firstAbsentKey (s.symbols s.symcnt.toNat) = none ∧
      s.obLen.toNat + (packedSymbols s (s.symbols s.symcnt.toNat)).out.length ≤ 4096 ∧
      t = packed s s (packedSymbols s (s.symbols s.symcnt.toNat)) := by
  obtain ⟨u, hend, rfl⟩ := exists_commit_of_endCommand ht herr
  have hbody := withTileN_commit hend
  split at hbody
  · cases hbody
  · rename_i hcount
    split at hbody
    · cases hbody
    · rename_i hpresent
      exact ⟨Nat.not_lt.1 hcount, hpresent, packed_of_finishPacking hbody⟩

/-- Settles O52: the statement's key and bits of a symbol are the machine's. -/
theorem huffAcOutcome : Obligations.HuffAcOutcome := by
  intro s h n syms len bits p
  have hlen : ∀ w, len w = (acEhuf (symKey w)).len := fun w => by rw [symKey_eq]
  have hbits : bits = symbolBits := funext fun w => by rw [symbolBits, codedBits_eq, symKey_eq]; rfl
  have hp : p = packedSymbols s syms := by rw [packedSymbols, ← hbits]
  clear_value p bits len
  subst hp
  simp only [hlen]
  refine ⟨exec_huffAc_count h, fun hcount j hj habsent hlowest => ?table, fun hcount hpresent hfits => ?fits,
    fun hcount hpresent hfull => ?full⟩
  case table => exact exec_huffAc_table h hcount (firstAbsentKey_eq_some hj habsent hlowest)
  case fits =>
    exact (exec_huffAc h hcount (firstAbsentKey_eq_none_iff.2 hpresent)).trans (endCommand_finishPacking_fits _ _ hfits)
  case full =>
    exact (exec_huffAc h hcount (firstAbsentKey_eq_none_iff.2 hpresent)).trans (endCommand_finishPacking_full _ _ hfull)

/-! ## How BITS_FLUSH ends -/

theorem shiftLeft_or_ones (acc n : Nat) : acc <<< n ||| (2 ^ n - 1) = acc * 2 ^ n + (2 ^ n - 1) := by
  rw [Nat.shiftLeft_eq, mul_comm, ← Nat.two_pow_add_eq_or_of_lt (Nat.sub_lt (Nat.two_pow_pos n) Nat.one_pos)]

theorem bitsMsb_append_ones (acc cnt n : Nat) :
    bitsMsb (acc * 2 ^ n + (2 ^ n - 1)) (cnt + n) = bitsMsb acc cnt ++ List.replicate n true := by
  induction n with
  | zero => simp
  | succ n ih =>
    have hpos := Nat.two_pow_pos n
    have hstep : acc * 2 ^ (n + 1) + (2 ^ (n + 1) - 1) = 2 * (acc * 2 ^ n + (2 ^ n - 1)) + true.toNat := by
      rw [pow_succ, ← mul_assoc, Bool.toNat_true]
      omega
    rw [hstep, ← Nat.add_assoc, bitsMsb_snoc, ih, List.append_assoc, List.replicate_succ']

/-- The bits of the padded byte: the pending ones, then 1 bits (R172). -/
theorem bitsMsb_paddedByte {acc cnt : Nat} (hcnt : cnt ≤ 8) (hacc : acc < 2 ^ cnt) :
    bitsMsb (paddedByte acc cnt).toNat 8 = bitsMsb acc cnt ++ List.replicate (8 - cnt) true := by
  obtain ⟨n, hn⟩ := Nat.exists_eq_add_of_le hcnt
  have hbyte : acc * 2 ^ n + (2 ^ n - 1) < 2 ^ 8 := by
    have hpos := Nat.two_pow_pos n
    have hmul := Nat.mul_le_mul_right (2 ^ n) (Nat.succ_le_of_lt hacc)
    rw [← pow_add, ← hn, Nat.succ_mul] at hmul
    omega
  rw [paddedByte, hn, Nat.add_sub_cancel_left, shiftLeft_or_ones, BitVec.toNat_ofNat, ← hn, Nat.mod_eq_of_lt hbyte]
  exact hn ▸ bitsMsb_append_ones acc cnt n

/-- Settles O53. -/
theorem bitsFlushOutcome : Obligations.BitsFlushOutcome := by
  intro s hacc
  refine ⟨(Packer.start s).flush.out, fun hempty => ?empty, fun hpending => ?pending, fun hfits => ?fits, fun hfull => ?full⟩
  case empty =>
    have hcnt : (Packer.start s).cnt = 0 := congrArg BitVec.toNat hempty
    rw [Packer.flush_of_empty hcnt]
    rfl
  case pending =>
    have hcnt : (Packer.start s).cnt ≠ 0 := fun h0 => hpending (BitVec.eq_of_toNat_eq h0)
    rw [Packer.flush_of_pending hcnt]
    exact ⟨_, rfl, bitsMsb_paddedByte s.bitCnt.isLt.le hacc⟩
  case fits =>
    obtain ⟨hacc0, hcnt0⟩ := Packer.flush_pending (Packer.start s)
    refine (endCommand_finishPacking_fits .bitsFlush s hfits).trans ?_
    rw [packed, hacc0, hcnt0]
    rfl
  case full => exact endCommand_finishPacking_full .bitsFlush s hfull

/-! ## How much a packing command appends -/

/-- The longest DC code with its amplitude bits: category 11, 9 and 11 bits (R163). -/
theorem length_codedBits_dc {d : Int} (h : cat d ≤ 11) : (codedBits (dcEhuf (cat d)) d (cat d)).length ≤ 20 := by
  have hdc : ∀ c : Fin 12, (dcEhuf c.val).len + c.val ≤ 20 := by decide +kernel
  simpa [codedBits_eq] using hdc ⟨cat d, by omega⟩

/-- The longest AC code with its amplitude bits: 16 and 10 bits (R164). -/
theorem length_symbolBits {w : Word} (h : (acEhuf (symKey w)).len ≠ 0) : (symbolBits w).length ≤ 26 := by
  have hac : ∀ e ∈ expand acBits acHuffval, e.2.len + e.1 % 16 ≤ 26 := by decide +kernel
  have hlt : symSize w < 16 := (w.extractLsb' 16 4).isLt
  have hsize : symKey w % 16 = symSize w := by rw [symKey_eq, Nat.mul_add_mod, Nat.mod_eq_of_lt hlt]
  simpa [symbolBits, codedBits_eq, hsize] using hac (symKey w, acEhuf (symKey w)) (mem_of_lookupCode_ne h)

theorem length_stuffed_le (b : Byte) : (stuffed b).length ≤ 2 := by
  unfold stuffed
  split <;> simp

theorem length_flatMap_le {α β : Type} {l : List α} {f : α → List β} {n : Nat} (h : ∀ a ∈ l, (f a).length ≤ n) :
    (l.flatMap f).length ≤ n * l.length := by
  induction l with
  | nil => simp
  | cons a l ih =>
    have hhead := h a List.mem_cons_self
    have htail := ih fun b hb => h b (List.mem_cons_of_mem _ hb)
    rw [List.flatMap_cons, List.length_append, List.length_cons, Nat.mul_succ]
    omega

/-- A packing command completes one byte per 8 pending or new bits, and outputs at most two for each (R167, R168). -/
theorem Packer.Within.pushBits_growth {p : Packer} (h : p.Within) (bits : List Bool) : ∃ n,
    (p.pushBits bits).out.length ≤ p.out.length + 2 * n ∧ 8 * n + (p.pushBits bits).cnt = p.cnt + bits.length := by
  obtain ⟨bytes, hbits, hout⟩ := h.pushBits_bytes bits
  have hstuffed : (bytes.flatMap stuffed).length ≤ 2 * bytes.length := length_flatMap_le fun b _ => length_stuffed_le b
  have hlen : p.cnt + bits.length = bytes.length * 8 + (p.pushBits bits).cnt := by
    simpa using congrArg List.length hbits
  exact ⟨bytes.length, by rw [hout, List.length_append]; omega, by omega⟩

/-- What the stream has gained when `bits` bits have been packed: `n` bytes completed, each output as one byte or two. -/
def GrowsBy (s t : State) (bits : Nat) : Prop :=
  ∃ n, t.obLen.toNat ≤ s.obLen.toNat + 2 * n ∧ 8 * n + t.bitCnt.toNat = s.bitCnt.toNat + bits

theorem growsBy_packed {s : State} (t : State) {bits : List Bool} (h : StreamInv s)
    (hfits : s.obLen.toNat + ((Packer.start s).pushBits bits).out.length ≤ 4096) :
    GrowsBy s (packed s t ((Packer.start s).pushBits bits)) bits.length := by
  have hp := Packer.within_start h.accLt
  obtain ⟨n, hout, hbits⟩ := hp.pushBits_growth bits
  obtain ⟨hcnt, -⟩ := Packer.within_pushBits bits hp
  refine ⟨n, ?_, ?_⟩
  · rw [packed, BitVec.toNat_ofNat, Nat.mod_eq_of_lt (by omega)]
    simpa [Packer.start] using hout
  · rw [packed, BitVec.toNat_ofNat, Nat.mod_eq_of_lt hcnt, hbits]
    rfl

theorem huffDc_growsBy {s t : State} {src : BufIx} {diff : Bool} (h : StreamInv s)
    (ht : exec (.huffDc src diff) s = .next t) (herr : t.err = false) :
    t.symcnt = s.symcnt ∧ ∃ bits ≤ 20, GrowsBy s t bits := by
  obtain ⟨hcat, hfits, rfl⟩ := huffDc_inversion ht herr
  exact ⟨rfl, _, length_codedBits_dc hcat, growsBy_packed _ h hfits⟩

theorem huffAc_growsBy {s t : State} (h : StreamInv s) (ht : exec .huffAc s = .next t) (herr : t.err = false) :
    ∃ bits ≤ 26 * s.symcnt.toNat, GrowsBy s t bits := by
  obtain ⟨hcount, hpresent, hfits, rfl⟩ := huffAc_inversion ht herr
  have hbits := length_flatMap_le fun w hw => length_symbolBits (firstAbsentKey_eq_none_iff.1 hpresent w hw)
  rw [symbols_length s hcount] at hbits
  exact ⟨_, hbits, growsBy_packed _ h hfits⟩

/-- Settles O55: 7 pending bits, 20 of the DC value and 63 times 26 of the symbols complete at most 208 bytes. -/
theorem tileAppendsAtMost416Bytes : Obligations.TileAppendsAtMost416Bytes := by
  intro src diff s s1 s2 h _ hcount hdc herr1 hac herr2
  obtain ⟨hsymcnt, bits1, hbound1, n1, hlen1, hbits1⟩ := huffDc_growsBy h hdc herr1
  obtain ⟨bits2, hbound2, n2, hlen2, hbits2⟩ := huffAc_growsBy ((exec_stream hdc).streamInv h) hac herr2
  have hpending := s.bitCnt.isLt
  rw [hsymcnt] at hbound2
  omega

end Sys2Proof.Machine

/-! SUPPORT. Proof of the statement on the control commands (spec/45_control.md): each ends in a commit of its own writes. -/

namespace Sys2Proof.Machine

/-- NOP commits the state it started in (R185). -/
theorem exec_nop (s : State) : exec .nop s = .next (commitCommand s).useDraws :=
  endCommand_commit .nop s s

/-- OUT_CLEAR commits OB_LEN = 0 and no other write (R186). -/
theorem exec_outClear (s : State) : exec .outClear s = .next (commitCommand { s with obLen := 0 }).useDraws :=
  endCommand_commit .outClear s { s with obLen := 0 }

/-- STREAM_RESET commits the four stream registers at 0 and no other write (R187). -/
theorem exec_streamReset (s : State) : exec .streamReset s =
    .next (commitCommand { s with obLen := 0, bitAcc := 0, bitCnt := 0, prevDc := 0 }).useDraws :=
  endCommand_commit .streamReset s { s with obLen := 0, bitAcc := 0, bitCnt := 0, prevDc := 0 }

/-- Settles O56: each commits its own writes, and the reset values of the stream registers are 0. -/
theorem controlCommandsComplete : Obligations.ControlCommandsComplete := fun s =>
  ⟨exec_nop s, exec_outClear s, exec_streamReset s, rfl, rfl, rfl, rfl⟩

end Sys2Proof.Machine

/-! SUPPORT. Proofs of the statements on steps, acceptance and errors (spec/60_exceptions.md): the engine's step, CMD writes,
illegal words, how a command ends, the end of a run, and the interrupt output. -/

namespace Sys2Proof.Machine

/-! ## The engine's step -/

/-- With no command pending the engine does nothing (R200, R221). -/
theorem engineStep_idle {s : State} (h : s.pending = none) : engineStep s = .next s := by
  rw [engineStep, h]

/-- The engine's step with a pending command is that command's meaning (R200). -/
theorem engineStep_decoded {s : State} {w : Word} {i : Instr} (hp : s.pending = some w) (hd : decode w = .ok i) :
    engineStep s = exec i s := by
  rw [engineStep, hp]
  dsimp only
  rw [execute, hd]

/-- With no move left the step is the engine's (log 1). -/
theorem step_of_noMoves {s : State} (h : s.inputs = []) : step s = engineStep s := by
  rw [step, machineStep, h]

/-- At the engine's turn, too, once the turn is taken off the list (log 1). -/
theorem step_of_engineTurn {s : State} {rest : List HostMove} (h : s.inputs = .engineTurn :: rest) :
    step s = engineStep { s with inputs := rest } := by
  rw [step, machineStep, h]
  rfl

/-- Settles O6. -/
theorem stepRunsTheDecodedCommand : Obligations.StepRunsTheDecodedCommand := by
  refine ⟨fun s w i hp hd => ⟨fun hnil => ?noMoves, fun rest hturn => ?turn⟩, fun s nbits n i hd => ?fetched⟩
  case noMoves => rw [step_of_noMoves hnil, engineStep_decoded hp hd]
  case turn => exact (step_of_engineTurn hturn).trans (engineStep_decoded hp hd)
  case fetched =>
    exact (step_of_engineTurn (s := s.withFetchWord nbits n) rfl).trans (engineStep_decoded rfl hd)

/-- Settles O7. -/
theorem engineIdleWithoutCommand : Obligations.EngineIdleWithoutCommand := by
  refine ⟨fun s hp => ⟨fun hnil => ?noMoves, fun rest hturn => ?turn⟩, ?reset⟩
  case noMoves => rw [step_of_noMoves hnil, engineStep_idle hp]
  case turn => exact (step_of_engineTurn hturn).trans (engineStep_idle hp)
  case reset => exact (step_of_noMoves rfl).trans (engineStep_idle rfl)

/-! ## CMD writes -/

/-- Settles O8: CMD is never the engine's, so the write reaches `hostWriteCmd`, which tests BUSY and ERR. -/
theorem cmdWriteAcceptedOrDropped : Obligations.CmdWriteAcceptedOrDropped := by
  intro s w hr
  refine ⟨fun hidle => ?accepted, fun hbusy => ?dropped⟩
  case accepted => exact writeGives_storeLocation (l := .cmd) hr rfl (.inl rfl) fun _ => if_pos hidle
  case dropped =>
    have hno : ¬ (s.busy = false ∧ s.err = false) := by rcases hbusy with h | h <;> simp [h]
    exact writeGives_storeLocation (l := .cmd) hr rfl (.inl rfl) fun _ => if_neg hno

/-! ## Illegal words -/

/-- The rows of the table in the order of their opcodes: each asks for OPC and forbids every bit outside `used`
(R85, R87). -/
theorem opcodeTable_eq_usedMask : opcodeTable.map (fun r => (r.mask, r.value)) =
    (List.range 14).map fun n => (~~~usedMask n ||| 0xFF#32, BitVec.ofNat 32 n) := by
  decide

/-- A row asks two things apart: its opcode in the low byte, and no bit outside `used` (R87). -/
theorem and_row_eq_iff {n : Nat} (hn : n < 14) (w : Word) :
    w &&& (~~~usedMask n ||| 0xFF#32) = BitVec.ofNat 32 n ↔
      w &&& 0xFF#32 = BitVec.ofNat 32 n ∧ w &&& ~~~usedMask n = 0 := by
  have hopc : ∀ n < 14, BitVec.ofNat 32 n &&& 0xFF#32 = BitVec.ofNat 32 n ∧
      BitVec.ofNat 32 n &&& ~~~usedMask n = 0 ∧ (~~~usedMask n ||| 0xFF#32) &&& 0xFF#32 = 0xFF#32 ∧
      (~~~usedMask n ||| 0xFF#32) &&& ~~~usedMask n = ~~~usedMask n := by decide
  obtain ⟨hlow, hused, hmaskLow, hmaskUsed⟩ := hopc n hn
  constructor
  · exact fun h => ⟨by rw [← hmaskLow, ← BitVec.and_assoc, h, hlow], by rw [← hmaskUsed, ← BitVec.and_assoc, h, hused]⟩
  · rintro ⟨h1, h2⟩
    rw [BitVec.and_or_distrib_left, h1, h2]
    exact BitVec.zero_or

/-- OPC is `n` exactly when the low byte is (R80). -/
theorem and_lowByte_eq_iff {n : Nat} (hn : n < 14) (w : Word) :
    w &&& 0xFF#32 = BitVec.ofNat 32 n ↔ (w.extractLsb' 0 8).toNat = n := by
  have hbyte : (w &&& 0xFF#32).toNat = w.toNat % 2 ^ 8 := Nat.and_two_pow_sub_one_eq_mod w.toNat 8
  rw [← BitVec.toNat_inj, hbyte, BitVec.toNat_ofNat, Nat.mod_eq_of_lt (by omega : n < 2 ^ 32)]
  simp

/-- A word is a command exactly when its OPC is at most 0x0D and it has no bit outside `used` (R87). -/
theorem exists_decode_iff_usedMask (w : Word) : (∃ i, decode w = .ok i) ↔
    (w.extractLsb' 0 8).toNat ≤ 0x0D ∧ w &&& ~~~usedMask (w.extractLsb' 0 8).toNat = 0 := by
  have hrows : (∃ r ∈ opcodeTable, r.fits w = true) ↔
      ∃ p ∈ opcodeTable.map (fun r => (r.mask, r.value)), w &&& p.1 = p.2 := by
    simp [OpcodeRow.fits]
  rw [exists_decode_iff_fits, hrows, opcodeTable_eq_usedMask]
  constructor
  · rintro ⟨_, hmem, hfits⟩
    obtain ⟨n, hn, rfl⟩ := List.mem_map.1 hmem
    obtain ⟨hlow, hused⟩ := (and_row_eq_iff (List.mem_range.1 hn) w).1 hfits
    rw [(and_lowByte_eq_iff (List.mem_range.1 hn) w).1 hlow]
    exact ⟨Nat.le_of_lt_succ (List.mem_range.1 hn), hused⟩
  · rintro ⟨hopc, hused⟩
    have hn := Nat.lt_succ_of_le hopc
    exact ⟨_, List.mem_map_of_mem (List.mem_range.2 hn),
      (and_row_eq_iff hn w).2 ⟨(and_lowByte_eq_iff hn w).2 rfl, hused⟩⟩

/-- Settles O4: the decoder accepts exactly the words of the first clause, and the engine ends any other one. -/
theorem illegalWordsByOpcodeAndUsedBits : Obligations.IllegalWordsByOpcodeAndUsedBits := by
  refine fun w => ⟨(exists_decode_iff_usedMask w).2, fun hbad s hp => engineStep_illegal hp fun hcommand => ?_⟩
  obtain ⟨hopc, hused⟩ := (exists_decode_iff_usedMask w).1 hcommand
  exact hbad.elim (Nat.not_lt.2 hopc) (absurd hused)

/-! ## How a command ends -/

/-- A commit of data only, seen from the state the command started in (R202). -/
theorem DataOnly.commit_frame {s u : State} (h : DataOnly s u) :
    { (commitCommand u).useDraws with
      tb := s.tb, sb := s.sb, symcnt := s.symcnt, ob := s.ob, obLen := s.obLen, bitAcc := s.bitAcc, bitCnt := s.bitCnt,
      prevDc := s.prevDc, ovf := s.ovf, done := s.done, pending := s.pending, draws := s.draws } = s :=
  congrArg (fun v : State => { v with done := s.done, pending := s.pending, draws := s.draws }) h

/-- Settles O12: an illegal word fails, and a command ends as `exec_ends` says, with its own word in ERR_INFO. -/
theorem everyCommandCommitsOrChangesNothing : Obligations.EveryCommandCommitsOrChangesNothing := by
  intro s w hp
  by_cases hcommand : ∃ i, decode w = .ok i
  · obtain ⟨i, hd⟩ := hcommand
    obtain ⟨e, hexec, hgood⟩ := exec_ends i s
    obtain rfl := encodeOfDecodeIsTheWord w i hd
    rw [engineStep_decoded hp hd, hexec]
    rcases hgood with ⟨c, aux, rfl, hc⟩ | ⟨u, rfl, hdata⟩
    · exact ⟨_, endCommand_raise i s c aux, rfl, .inr ⟨c, _, hc, rfl⟩⟩
    · exact ⟨_, endCommand_commit i s u, rfl, .inl ⟨rfl, hdata.commit_frame⟩⟩
  · exact ⟨_, engineStep_illegal hp hcommand, rfl, .inr ⟨.illegal, 0, by decide, rfl⟩⟩

/-- A command of OPC 0x01 to 0x0A checks CFG.TILE_N before anything else (R206). -/
theorem exec_checks_tileN {i : Instr} (s : State) (hlow : 0x01 ≤ (encode i &&& 0xFF#32).toNat)
    (hhigh : (encode i &&& 0xFF#32).toNat ≤ 0x0A) : ∃ body, exec i s = endCommand i s (withTileN s body) := by
  cases i with
  | nop => exact absurd hlow (by decide)
  | bitsFlush | outClear | streamReset => exact absurd hhigh (by decide)
  | fdct | idct | quant | dequant | zigzag | unzigzag | rleEnc | rleDec | huffDc | huffAc => exact ⟨_, rfl⟩

/-- Settles O13. -/
theorem tileSizeMismatchIsConfigError : Obligations.TileSizeMismatchIsConfigError := by
  intro i s hlow hhigh hsize
  obtain ⟨body, hexec⟩ := exec_checks_tileN s hlow hhigh
  rw [hexec, withTileN_other hsize, endCommand_raise]

/-- The lowest index out of range is the one RLE_ENC reports (R144, R209). -/
theorem firstOutOfRange_eq_some {seq : Fin 64 → Int} {i : Fin 64} (hi : i ≠ 0) (hout : acOutOfRange (seq i) = true)
    (hlowest : ∀ k : Fin 64, k ≠ 0 → k < i → acOutOfRange (seq k) = false) : firstOutOfRange seq = some i := by
  refine List.find?_eq_some_iff_getElem.2 ⟨by simp [hi, hout], i.val, by simp, by simp, fun j hj => ?_⟩
  rw [List.getElem_finRange]
  by_cases h0 : j = 0
  · simp [h0]
  · have hk := hlowest ⟨j, by omega⟩ (fun h => h0 (congrArg Fin.val h)) hj
    simp [hk]

theorem acOutOfRange_iff (v : Int) : acOutOfRange v = true ↔ v < -32767 ∨ 32767 < v := by
  simp [acOutOfRange]

/-- Settles O42. -/
theorem rleEncRangeError : Obligations.RleEncRangeError := by
  intro src s i h hi hout hlowest
  have hfirst : firstOutOfRange (fun k => sint32 (s.tile src k)) = some i := by
    refine firstOutOfRange_eq_some hi ((acOutOfRange_iff _).2 hout) fun k hk hlt => ?_
    have hin := hlowest k hk hlt
    rw [← Bool.not_eq_true, acOutOfRange_iff, sint32]
    omega
  simp only [exec, execRleEnc, withTileN_eight h, hfirst, endCommand_raise]

/-! ## The end of a run -/

theorem DataOnly.inputs_kept {s u : State} (h : DataOnly s u) : u.inputs = s.inputs := (congrArg State.inputs h :)

/-- The engine takes no move of the outside world, and leaves nothing pending (R200). -/
theorem engineStep_inputs_pending {s t : State} (h : engineStep s = .next t) :
    t.inputs = s.inputs ∧ t.pending = none := by
  rcases engineStep_cases h with ⟨hp, rfl⟩ | ⟨w, -, ⟨v, c, aux, d, -, rfl⟩ | ⟨i, u, -, -, hdata, rfl⟩⟩
  · exact ⟨rfl, hp⟩
  · exact ⟨rfl, rfl⟩
  · exact ⟨hdata.inputs_kept, rfl⟩

/-- Each step takes one move off the list (log 1). -/
theorem step_inputs {s t : State} (h : step s = .next t) : t.inputs = s.inputs.tail := by
  rcases step_cases h with ⟨hnil, he⟩ | ⟨m, rest, hcons, hmove⟩
  · rw [(engineStep_inputs_pending he).1, hnil, List.tail_nil]
  · rw [hcons, List.tail_cons]
    rcases hmove with ⟨-, he⟩ | ⟨-, rfl⟩ | ⟨-, rfl⟩ | ⟨_, _, -, rfl | ⟨off, -, -, -, -, -, rfl⟩⟩ |
      ⟨_, _, w, -, rfl | ⟨off, -, -, -, -, -, rfl⟩⟩
    · exact (engineStep_inputs_pending he).1
    · rfl
    · rfl
    · rfl
    · rfl
    · rfl
    · exact (hostWrite_outside (locate off) w { s with inputs := rest }).1

/-- A run that does not stop is a step and the run from there. -/
theorem run_succ_cases {M : Host.Core} {k : Nat} {s t : M.State} (h : M.run (k + 1) s = .next t) :
    ∃ u, M.step s = .next u ∧ M.run k u = .next t := by
  unfold Host.Core.run at h
  cases hstep : M.step s with
  | next u => rw [hstep] at h; exact ⟨u, rfl, h⟩
  | fault r => rw [hstep] at h; cases h
  | refused r => rw [hstep] at h; cases h

/-- Once every move is taken, the next step is the engine's, and nothing is left (log 1). -/
theorem run_takes_moves {n : Nat} {s t : State} (hlen : s.inputs.length = n)
    (h : Host.Core.run core (n + 1) s = .next t) : t.inputs = [] ∧ t.pending = none := by
  induction n generalizing s with
  | zero =>
    obtain ⟨u, hstep, hrun⟩ := run_succ_cases h
    obtain rfl := Host.Outcome.next.inj hrun
    have hnil := List.length_eq_zero_iff.1 hlen
    obtain ⟨hinputs, hpending⟩ := engineStep_inputs_pending ((step_of_noMoves hnil).symm.trans hstep)
    exact ⟨hinputs.trans hnil, hpending⟩
  | succ n ih =>
    obtain ⟨u, hstep, hrun⟩ := run_succ_cases h
    exact ih (by rw [step_inputs hstep, List.length_tail, hlen, Nat.add_sub_cancel]) hrun

/-- A run that reaches a point where it can end has a first such point (R245). -/
theorem exists_runEnds {n : Nat} {s t : State} (h : Host.Core.run core n s = .next t) (hover : runOver t) :
    ∃ k ≤ n, ∃ e, RunEnds s k e := by
  classical
  have hex : ∃ k e, Host.Core.run core k s = .next e ∧ runOver e := ⟨n, t, h, hover⟩
  obtain ⟨e, hrun, hend⟩ := Nat.find_spec hex
  exact ⟨Nat.find hex, Nat.find_min' hex ⟨t, h, hover⟩, e, hrun, hend,
    fun j hj u hu hu' => Nat.find_min hex hj ⟨u, hu, hu'⟩⟩

/-- From a point where a run can end, a step is an idle turn of the engine, or a move of the reset input (R245). -/
theorem step_of_runOver {s t : State} (h : runOver s) (ht : step s = .next t) : t = { s with inputs := t.inputs } ∨
    (s.inputs.head? = some .assertReset ∧ t.pending = none) ∨ t = { s with inputs := t.inputs, resetLine := false } := by
  obtain ⟨hdone, hp⟩ := h
  rcases step_cases ht with ⟨-, he⟩ | ⟨m, rest, hcons, ⟨-, he⟩ | ⟨rfl, rfl⟩ | ⟨-, rfl⟩ | ⟨addr, bytes, rfl, -⟩ |
    ⟨addr, bytes, w, rfl, -⟩⟩
  · rw [engineStep_idle hp] at he
    cases he
    exact .inl rfl
  · rw [engineStep_idle (by exact hp)] at he
    cases he
    exact .inl rfl
  · exact .inr (.inl ⟨by rw [hcons, List.head?_cons], rfl⟩)
  · exact .inr (.inr rfl)
  · exact nomatch hdone (.read addr bytes) (hcons ▸ List.mem_cons_self)
  · exact nomatch hdone (.write addr bytes w) (hcons ▸ List.mem_cons_self)

/-- Settles O9. -/
theorem runEndsWithNothingPending : Obligations.RunEndsWithNothingPending := by
  refine ⟨fun s t h => ?ends, fun s t hover ht => ?staysOver⟩
  case ends =>
    obtain ⟨hinputs, hpending⟩ := run_takes_moves rfl h
    exact ⟨hinputs, hpending, exists_runEnds h ⟨by simp [hostDone, hinputs], hpending⟩⟩
  case staysOver =>
    have hdone : hostDone t := fun m hm => hover.1 m (List.mem_of_mem_tail (step_inputs ht ▸ hm))
    rcases step_of_runOver hover ht with e | ⟨hreset, hp⟩ | e
    · exact ⟨⟨hdone, e ▸ hover.2⟩, fun _ => by rw [e]⟩
    · exact ⟨⟨hdone, hp⟩, fun hno => absurd hreset hno⟩
    · exact ⟨⟨hdone, e ▸ hover.2⟩, fun _ => by rw [e]⟩

/-! ## The interrupt output -/

theorem irq_iff (s : State) :
    s.irq = true ↔ (s.done = true ∧ s.ieDone = true) ∨ (s.err = true ∧ s.ieErr = true) := by
  simp [State.irq]

/-- IRQ stays 1 while CTRL stays as it is and neither DONE nor ERR falls (R213). -/
theorem irq_of_irq {s t : State} (hdone : s.done = true → t.done = true) (herr : s.err = true → t.err = true)
    (hieDone : t.ieDone = s.ieDone) (hieErr : t.ieErr = s.ieErr) (h : s.irq = true) : t.irq = true := by
  rw [irq_iff] at h ⊢
  rw [hieDone, hieErr]
  exact h.imp (And.imp_left hdone) (And.imp_left herr)

theorem DataOnly.irq_kept {s u : State} (h : DataOnly s u) : u.irq = s.irq := (congrArg State.irq h :)

/-- The engine sets DONE or ERR and clears neither, so IRQ does not fall (R202, R213). -/
theorem engineStep_irq {s t : State} (ht : engineStep s = .next t) (h : s.irq = true) : t.irq = true := by
  rcases engineStep_cases ht with ⟨-, rfl⟩ | ⟨w, -, ⟨v, c, aux, d, -, rfl⟩ | ⟨i, u, -, -, hdata, rfl⟩⟩
  · exact h
  · exact irq_of_irq (s := s) id (fun _ => rfl) rfl rfl h
  · exact irq_of_irq (s := u) (fun _ => rfl) id rfl rfl (hdata.irq_kept.trans h)

/-- Of the host's writes, those of CTRL and STATUS alone reach what IRQ is made of (R33, R39, R213). -/
theorem hostWrite_irq {l : Location} (w : Word) (s : State) (hctrl : l ≠ .ctrl) (hstatus : l ≠ .status) :
    (hostWrite l w s).irq = s.irq := by
  unfold hostWrite
  split
  · rfl
  · cases l with
    | ctrl => exact absurd rfl hctrl
    | status => exact absurd rfl hstatus
    | cmd =>
      simp only [storeLocation, hostWriteCmd]
      split <;> rfl
    | _ => rfl

/-- CTRL stands at offset 0x004 only, and STATUS at 0x008 only (R47, R62). -/
theorem offset_of_locate_ctrl_status {off : Nat} (h4 : off % 4 = 0) :
    (locate off = .ctrl → off = 0x004) ∧ (locate off = .status → off = 0x008) := by
  have hregister : ∀ n, (registerAt n = .ctrl → n = 1) ∧ (registerAt n = .status → n = 2) := fun n => by
    unfold registerAt
    split <;> simp
  obtain ⟨hctrl, hstatus⟩ := hregister (off / 4)
  unfold locate
  split_ifs
  · exact ⟨fun h => by have := hctrl h; omega, fun h => by have := hstatus h; omega⟩
  all_goals exact ⟨nofun, nofun⟩

/-- Settles O25: of all that a step can do, only a reset and a write of CTRL or STATUS lower what IRQ is made of. -/
theorem irqFallsOnlyByAcknowledgeOrMask : Obligations.IrqFallsOnlyByAcknowledgeOrMask := by
  refine ⟨irq_iff, fun s t ht hon hoff => ?_⟩
  have hfalls : t.irq ≠ true := by simp [hoff]
  rcases step_cases ht with ⟨-, he⟩ | ⟨m, rest, hcons, ⟨-, he⟩ | ⟨rfl, -⟩ | ⟨-, rfl⟩ |
    ⟨_, _, -, rfl | ⟨off, -, -, -, -, -, rfl⟩⟩ | ⟨_, _, w, rfl, rfl | ⟨off, haddr, -, h4, rfl, -, rfl⟩⟩⟩
  · exact absurd (engineStep_irq he hon) hfalls
  · exact absurd (engineStep_irq he hon) hfalls
  · exact ⟨rest, .inl hcons⟩
  · exact absurd hon hfalls
  · exact absurd hon hfalls
  · exact absurd hon hfalls
  · exact absurd hon hfalls
  · obtain ⟨hctrl, hstatus⟩ := offset_of_locate_ctrl_status h4
    by_cases hc : locate off = .ctrl
    · exact ⟨rest, .inr (.inl ⟨w, by rw [hcons, haddr, hctrl hc]⟩)⟩
    by_cases hs : locate off = .status
    · exact ⟨rest, .inr (.inr ⟨w, by rw [hcons, haddr, hstatus hs]⟩)⟩
    exact absurd ((hostWrite_irq w { s with inputs := rest } hc hs).trans hon) hfalls

end Sys2Proof.Machine

/-! SUPPORT. Proofs of the statements on reset and on locations not written since (spec/70_reset_and_hazards.md): the state
reset leaves, the host's accesses while reset is asserted, and the free values of unwritten locations. -/

namespace Sys2Proof.Machine

/-! ## The reset state -/

/-- Settles O60: after reset the stream is empty and nothing is pending. -/
theorem invariantsHoldAtReset : Obligations.InvariantsHoldAtReset :=
  ⟨streamInv_toReset State.reset, stuffedInv_of_empty rfl, commandInv_of_idle rfl nofun⟩

/-- After reset no word of a tile buffer has been written (R230, R231). -/
theorem toReset_tb (s : State) (b : BufIx) (i : Fin 64) : s.toReset.tb[b][i] = none := by
  simp [State.toReset, State.reset]

/-- After reset no entry of the symbol buffer has been written (R230, R231). -/
theorem toReset_sb (s : State) (j : Fin 64) : s.toReset.sb[j] = none := by
  simp [State.toReset, State.reset]

/-! ## Steps that concern the reset input -/

/-- Asserting reset puts everything at its reset value, whatever was going on (R230). -/
theorem step_of_assertReset {s : State} {rest : List HostMove} (h : s.inputs = .assertReset :: rest) :
    step s = .next { ({ s with inputs := rest } : State).toReset with resetLine := true } := by
  rw [step, machineStep, h]
  rfl

/-- Releasing reset changes the level of the reset input only (log 11). -/
theorem step_releaseReset (s : State) (rest : List HostMove) :
    step { s with inputs := .releaseReset :: rest } = .next { s with inputs := rest, resetLine := false } := rfl

/-- While reset is asserted a supported read is not answered (R230). -/
theorem step_read_inReset {s : State} {off : Nat} (rest : List HostMove) (ho : off < 0x8000) (h4 : off % 4 = 0)
    (hr : s.resetLine = true) : step { s with inputs := .read (Config.coreBase + off) 4 :: rest } =
      .next (unanswered { s with inputs := rest }) := by
  rw [step_read]
  exact hostAccess_inReset _ _ ho h4 hr

/-- While reset is asserted a supported write stores nothing (R230). -/
theorem step_write_inReset {s : State} {off : Nat} (w : Word) (rest : List HostMove) (ho : off < 0x8000) (h4 : off % 4 = 0)
    (hr : s.resetLine = true) : step { s with inputs := .write (Config.coreBase + off) 4 w :: rest } =
      .next { s with inputs := rest } := by
  rw [step_write]
  exact hostAccess_inReset _ _ ho h4 hr

/-- Settles O26: each register's value is `State.reset`'s, and the host's accesses meet the asserted reset input. -/
theorem resetFromAnyState : Obligations.ResetFromAnyState := by
  intro s rest hinputs
  refine ⟨_, step_of_assertReset hinputs, rfl, rfl, rfl, rfl, rfl, rfl, rfl, rfl, rfl, rfl, rfl, rfl, rfl, rfl, rfl, rfl, rfl,
    rfl, rfl, toReset_tb s, toReset_sb s, fun _ => rfl, rfl, fun off w rest' h4 ho => ⟨?write, ⟨none, ?read⟩, ?release⟩⟩
  case write => exact step_write_inReset w rest' ho h4 rfl
  case read => exact step_read_inReset rest' ho h4 rfl
  case release => exact step_releaseReset _ rest'

/-! ## Bytes of the output buffer at or above OB_LEN -/

/-- A byte at or above OB_LEN is read as a free one (R68). -/
theorem outputByte_above {s : State} {k : Nat} (free : Byte) (h : s.obLen.toNat ≤ k) : s.outputByte k free = free := by
  rw [State.outputByte, if_neg (by omega)]

/-- A word is made of its four bytes (R63). -/
theorem littleEndian_extractLsb' (w : Word) :
    littleEndian (w.extractLsb' 0 8) (w.extractLsb' 8 8) (w.extractLsb' 16 8) (w.extractLsb' 24 8) = w := by
  apply BitVec.eq_of_toNat_eq
  have hw := w.isLt
  simp only [toNat_littleEndian, BitVec.extractLsb'_toNat, Nat.shiftRight_eq_div_pow]
  omega

/-- An OB word at or above OB_LEN is read as the free value (R68, log 5). -/
theorem idleRead_outputWord_above {s : State} {m : Fin 1024} (free : Word) (h : s.obLen.toNat ≤ 4 * m.val) :
    s.idleRead free (.outputWord m) = free := by
  rw [State.idleRead, outputByte_above _ h, outputByte_above _ (by omega), outputByte_above _ (by omega),
    outputByte_above _ (by omega), littleEndian_extractLsb']

/-- In any OB word, a byte at or above OB_LEN is the free value's byte at the same place (R68, log 5). -/
theorem idleRead_outputWord_byte_above {s : State} {m : Fin 1024} {j : Nat} (free : Word) (hj : j < 4)
    (h : s.obLen.toNat ≤ 4 * m.val + j) :
    (s.idleRead free (.outputWord m)).toNat / 2 ^ (8 * j) % 256 = free.toNat / 2 ^ (8 * j) % 256 := by
  rw [idleRead_outputWord_byte s free m hj, outputByte_above _ h, BitVec.extractLsb'_toNat, Nat.shiftRight_eq_div_pow]

/-! ## What a command's snapshot holds -/

/-- A word of the snapshot of a tile buffer that has not been written is the free value of its place (R231, log 4). -/
theorem tile_of_unwritten {s : State} {b : BufIx} {i : Fin 64} (h : s.tb[b][i] = none) :
    s.tile b i = Config.draw (s.draws + i.val) := by
  rw [State.tile, readOrDraw, h, Option.getD_none]

/-- A word of the snapshot of a tile buffer that has been written is what was written (R11). -/
theorem tile_word_of_written {s : State} {b : BufIx} {i : Fin 64} {w : Word} (h : s.tb[b][i] = some w) :
    s.tile b i = w := by
  rw [State.tile, readOrDraw, h, Option.getD_some]

/-- An entry of the snapshot of the symbol buffer that has not been written is the free value of its place (R231, log 4). -/
theorem symbol_of_unwritten {s : State} {j : Fin 64} (h : s.sb[j] = none) :
    s.symbol j = Config.draw (s.draws + j.val) := by
  rw [State.symbol, readOrDraw, h, Option.getD_none]

/-- Settles O27. -/
theorem unwrittenLocationsReadFree : Obligations.UnwrittenLocationsReadFree := by
  refine ⟨fun s hidle hr => ⟨fun b i h => ?tileWord, fun j h => ?symbolWord, fun m h hm => ?outputWord,
    fun m hm => ⟨s.idleRead (Config.draw s.draws) (.outputWord ⟨m, hm⟩), ?partialWord,
      fun j hj h => idleRead_outputWord_byte_above (m := ⟨m, hm⟩) _ hj h⟩⟩,
    fun s b i => ⟨tile_of_unwritten, fun w => tile_word_of_written, symbol_of_unwritten, fun w => symbol_of_written⟩⟩
  case tileWord =>
    exact readsAs_idleRead hr (locate_tile b i) (.inr hidle) (by rw [State.idleRead, h, Option.getD_none]) (by omega) (by omega)
  case symbolWord =>
    exact readsAs_idleRead hr (locate_symbol j) (.inr hidle) (by rw [State.idleRead, h, Option.getD_none]) (by omega) (by omega)
  case outputWord =>
    exact readsAs_idleRead hr (locate_output ⟨m, hm⟩) (.inr hidle) (idleRead_outputWord_above _ h) (by omega) (by omega)
  case partialWord =>
    exact readsAs_idleRead hr (locate_output ⟨m, hm⟩) (.inr hidle) rfl (by omega) (by omega)

end Sys2Proof.Machine
